-- ==== Sys2Proof/Word.lean ====
section
/-! DEFINITION. The word types of the block: bytes, token values and the signed 32-bit container fields (00_scope.md R10, R11, R12). -/

namespace Sys2Proof

/-- One element of a byte buffer: an 8-bit value (00_scope.md R12). -/
abbrev Byte := BitVec 8

/-- A u32: a token value and the ARG operand, `VAL_W = 32` bits, unsigned (00_scope.md R8, R10). -/
abbrev Word := BitVec 32

/-- An i32 as its 32 bits; its value is `BitVec.toInt`, two's complement (00_scope.md R11). -/
abbrev I32 := BitVec 32

end Sys2Proof
end

