-- ==== Sys2Proof/Syntax.lean ====
section
/-! DEFINITION. The commands of the block, one constructor per row of spec/opcode_table.json, with their typed operands
(30_encoding.md R80, R82, R84), and the raw form in which the host issues them: a command word and an operand payload. -/

namespace Sys2Proof

/-- One frame of FF_ENCODE's operand and of FF_DECODE's result: `(B, N, T, values)` (30_encoding.md R82, 44_container_ff.md R214). -/
structure Frame where
  shapeB : I32
  shapeN : I32
  shapeT : I32
  values : List Word
  deriving DecidableEq, Repr

/-- The command set (30_encoding.md R84). Every operand is a typed value carried with the command (R82). A bit width is the
number in the command word's NB field, 0..63 (R81); `WellFormed` says that it fits the field. -/
inductive Instr where
  /-- BW_RESET (R100) -/
  | bwReset
  /-- BW_PUSH nb, v (R101) -/
  | bwPush (nb : Nat) (v : Word)
  /-- BW_FINISH (R103) -/
  | bwFinish
  /-- BR_LOAD buf (R120) -/
  | brLoad (buf : List Byte)
  /-- BR_EXTRACT count, nb (R122) -/
  | brExtract (nb : Nat) (count : Word)
  /-- WS_CLEAR (R140) -/
  | wsClear
  /-- WS_SCAN v (R142) -/
  | wsScan (v : Word)
  /-- WS_WIDTH (R143) -/
  | wsWidth
  /-- WS_SELECT seq (R144) -/
  | wsSelect (seq : List Word)
  /-- CC_ENCODE version, sampleRate, modelName, levels (R165) -/
  | ccEncode (version : Byte) (sampleRate : Word) (modelName : List Byte) (levels : List (List Word))
  /-- CC_DECODE buf, fallbackName (R170) -/
  | ccDecode (buf : List Byte) (fallbackName : List Byte)
  /-- FF_ENCODE sampleRate, channelCount, frames (R205) -/
  | ffEncode (sampleRate : I32) (channelCount : I32) (frames : List Frame)
  /-- FF_DECODE buf (R210) -/
  | ffDecode (buf : List Byte)
  /-- ST_READ (R230) -/
  | stRead
  deriving DecidableEq, Repr

/-- The operand payloads of the command port, by kind (30_encoding.md R82). -/
inductive Operand where
  | none
  | arg (v : Word)
  | bytes (buf : List Byte)
  | seq (values : List Word)
  | ccEnc (version : Byte) (sampleRate : Word) (modelName : List Byte) (levels : List (List Word))
  | ccDec (buf : List Byte) (fallbackName : List Byte)
  | ffEnc (sampleRate : I32) (channelCount : I32) (frames : List Frame)
  deriving DecidableEq, Repr

/-- What the host issues: one 32-bit command word and one operand payload (30_encoding.md R80). -/
structure Command where
  word : Word
  operand : Operand
  deriving DecidableEq, Repr

/-- The assigned opcodes (30_encoding.md R84). -/
inductive Opcode where
  | bwReset | bwPush | bwFinish
  | brLoad | brExtract
  | wsClear | wsScan | wsWidth | wsSelect
  | ccEncode | ccDecode
  | ffEncode | ffDecode
  | stRead
  deriving DecidableEq, Repr

/-- Why a command is illegal (30_encoding.md R86), in the order of the decode function (R85). -/
inductive DecodeError where
  /-- the OPC value is not in R84 -/
  | unassignedOpcode (opc : Byte)
  /-- `RSV != 0` -/
  | reservedBits
  /-- `NB != 0` on an opcode that takes no width -/
  | unusedWidth
  /-- the operand is not of the kind the opcode names (R83) -/
  | operandKind
  deriving DecidableEq, Repr

end Sys2Proof
end

