-- ==== Sys2Proof/WellFormed.lean ====
section
/-! DEFINITION. When a term of `Instr` stands for a command of the port: its bit width fits the 6-bit NB field
(30_encoding.md R80, R81). Every other operand is typed, so that an ill-formed value cannot be written. -/

namespace Sys2Proof

/-- The width fits `NB = word[5:0]` (30_encoding.md R81: it ranges over 0..63). -/
abbrev widthFits (nb : Nat) : Bool := decide (nb < 64)

/-- Well-formed commands (30_encoding.md R80, R82). NB values 0 and 33..63 are legal encodings (R81): the check is the field's
width, not 1..32. -/
def Instr.wellFormed : Instr → Bool
  | .bwReset => true
  | .bwPush nb _ => widthFits nb
  | .bwFinish => true
  | .brLoad _ => true
  | .brExtract nb _ => widthFits nb
  | .wsClear => true
  | .wsScan _ => true
  | .wsWidth => true
  | .wsSelect _ => true
  | .ccEncode _ _ _ _ => true
  | .ccDecode _ _ => true
  | .ffEncode _ _ _ => true
  | .ffDecode _ => true
  | .stRead => true

end Sys2Proof
end

