-- ==== Sys2Proof/Decode.lean ====
section
/-! DEFINITION. Decoding a command word with its operand payload, total and rejecting by name (30_encoding.md R85, R86), then
the encoder, written from the opcode map (R84). -/

namespace Sys2Proof

/-- The OPC column of 30_encoding.md R84. -/
def Opcode.code : Opcode → Byte
  | .bwReset => 0x01
  | .bwPush => 0x02
  | .bwFinish => 0x03
  | .brLoad => 0x10
  | .brExtract => 0x11
  | .wsClear => 0x20
  | .wsScan => 0x21
  | .wsWidth => 0x22
  | .wsSelect => 0x23
  | .ccEncode => 0x30
  | .ccDecode => 0x31
  | .ffEncode => 0x40
  | .ffDecode => 0x41
  | .stRead => 0xF0

/-- The rows of 30_encoding.md R84. -/
def Opcode.all : List Opcode :=
  [.bwReset, .bwPush, .bwFinish, .brLoad, .brExtract, .wsClear, .wsScan, .wsWidth, .wsSelect,
    .ccEncode, .ccDecode, .ffEncode, .ffDecode, .stRead]

/-- The row of R84 whose OPC is the given byte, if there is one. -/
def Opcode.ofCode (b : Byte) : Option Opcode :=
  Opcode.all.find? fun o => o.code == b

/-- Whether NB carries a width: only BW_PUSH and BR_EXTRACT (30_encoding.md R80, R85). -/
def Opcode.takesWidth : Opcode → Bool
  | .bwPush => true
  | .brExtract => true
  | _ => false

/-- `OPC = word[31:24]` (30_encoding.md R80). -/
def opcField (w : Word) : Byte := w.extractLsb' 24 8

/-- `RSV = word[23:6]` (30_encoding.md R80). -/
def rsvField (w : Word) : BitVec 18 := w.extractLsb' 6 18

/-- `NB = zext_6(word[5:0])` (30_encoding.md R80, R81). -/
def nbField (w : Word) : Nat := (w.extractLsb' 0 6).toNat

/-- The command of an opcode, its width and its operand, if the operand is of the kind the opcode names
(30_encoding.md R82, R83, R84). -/
def Opcode.build : Opcode → Nat → Operand → Option Instr
  | .bwReset, _, .none => some .bwReset
  | .bwPush, nb, .arg v => some (.bwPush nb v)
  | .bwFinish, _, .none => some .bwFinish
  | .brLoad, _, .bytes buf => some (.brLoad buf)
  | .brExtract, nb, .arg v => some (.brExtract nb v)
  | .wsClear, _, .none => some .wsClear
  | .wsScan, _, .arg v => some (.wsScan v)
  | .wsWidth, _, .none => some .wsWidth
  | .wsSelect, _, .seq values => some (.wsSelect values)
  | .ccEncode, _, .ccEnc version sampleRate modelName levels => some (.ccEncode version sampleRate modelName levels)
  | .ccDecode, _, .ccDec buf fallbackName => some (.ccDecode buf fallbackName)
  | .ffEncode, _, .ffEnc sampleRate channelCount frames => some (.ffEncode sampleRate channelCount frames)
  | .ffDecode, _, .bytes buf => some (.ffDecode buf)
  | .stRead, _, .none => some .stRead
  | _, _, _ => none

/-- The decode function, its checks in the order of 30_encoding.md R85. -/
def decode (w : Word) (op : Operand) : Except DecodeError Instr :=
  match Opcode.ofCode (opcField w) with
  | none => .error (.unassignedOpcode (opcField w))
  | some o =>
    if rsvField w ≠ 0 then .error .reservedBits
    else if o.takesWidth = false ∧ nbField w ≠ 0 then .error .unusedWidth
    else match o.build (nbField w) op with
      | none => .error .operandKind
      | some i => .ok i

/-- The command word `(OPC << 24) | NB` (30_encoding.md R84). -/
def commandWord (o : Opcode) (nb : Nat) : Word :=
  (o.code.setWidth 32 <<< 24) ||| BitVec.ofNat 32 nb

/-- The command word and operand payload of a command (30_encoding.md R82, R84). -/
def encode : Instr → Command
  | .bwReset => ⟨commandWord .bwReset 0, .none⟩
  | .bwPush nb v => ⟨commandWord .bwPush nb, .arg v⟩
  | .bwFinish => ⟨commandWord .bwFinish 0, .none⟩
  | .brLoad buf => ⟨commandWord .brLoad 0, .bytes buf⟩
  | .brExtract nb count => ⟨commandWord .brExtract nb, .arg count⟩
  | .wsClear => ⟨commandWord .wsClear 0, .none⟩
  | .wsScan v => ⟨commandWord .wsScan 0, .arg v⟩
  | .wsWidth => ⟨commandWord .wsWidth 0, .none⟩
  | .wsSelect values => ⟨commandWord .wsSelect 0, .seq values⟩
  | .ccEncode version sampleRate modelName levels =>
    ⟨commandWord .ccEncode 0, .ccEnc version sampleRate modelName levels⟩
  | .ccDecode buf fallbackName => ⟨commandWord .ccDecode 0, .ccDec buf fallbackName⟩
  | .ffEncode sampleRate channelCount frames =>
    ⟨commandWord .ffEncode 0, .ffEnc sampleRate channelCount frames⟩
  | .ffDecode buf => ⟨commandWord .ffDecode 0, .bytes buf⟩
  | .stRead => ⟨commandWord .stRead 0, .none⟩

/-- The empty operand payload of an opcode's kind (30_encoding.md R82): ARG 0, empty buffers and sequences. The opcode table
gives the operand payload no bits, so this is the payload that a table row stands for (log entry 4). -/
def Opcode.zeroOperand : Opcode → Operand
  | .bwReset => .none
  | .bwPush => .arg 0
  | .bwFinish => .none
  | .brLoad => .bytes []
  | .brExtract => .arg 0
  | .wsClear => .none
  | .wsScan => .arg 0
  | .wsWidth => .none
  | .wsSelect => .seq []
  | .ccEncode => .ccEnc 0 0 [] []
  | .ccDecode => .ccDec [] []
  | .ffEncode => .ffEnc 0 0 []
  | .ffDecode => .bytes []
  | .stRead => .none

/-- The command whose word is the low `nbits` bits of `w` and whose operand payload is empty (log entry 4). An unassigned
opcode gets the payload NONE, and no word longer than 32 bits exists (30_encoding.md R87). -/
def tableCommand (nbits w : Nat) : Command :=
  let word := BitVec.ofNat 32 (w % 2 ^ nbits)
  ⟨word, ((Opcode.ofCode (opcField word)).map Opcode.zeroOperand).getD .none⟩

/-- The command the decoder reads from a row's bits (fixed by the host's interface). -/
def decodeTableWord (nbits w : Nat) : Option Instr :=
  if w % 2 ^ nbits < 2 ^ 32 then
    match decode (tableCommand nbits w).word (tableCommand nbits w).operand with
    | .ok i => some i
    | .error _ => none
  else none

end Sys2Proof
end

