-- ==== Sys2Proof/Config.lean ====
section
/-! DEFINITION. The implementation parameters of an instance of the block (00_scope.md R8): fixed before reset, read by the
commands, written by none (10_state.md R45). The two OPEN capacities are arguments of the model: every meaning reads them from
the instance's `Params`, and a statement about every state is a statement about every setting. -/

namespace Sys2Proof

/-- `P_OVF_POLICY` (00_scope.md R8, 40_bitwriter.md R102): what BW_PUSH and FF_ENCODE do with a value that does not fit its width. -/
inductive OvfPolicy where
  /-- raise ValueOutOfRange and change nothing (the default) -/
  | reject
  /-- keep the low bits of the value -/
  | mask
  deriving DecidableEq, Repr

/-- The parameters of one instance (00_scope.md R8). `none` stands for an unbounded capacity. -/
structure Params where
  /-- `P_OVF_POLICY` -/
  ovfPolicy : OvfPolicy
  /-- `P_STRICT_PAYLOAD`: whether CC_DECODE requires `payloadSize = ceil(length * bitWidth / 8)` -/
  strictPayload : Bool
  /-- `P_BUF_CAP`, OPEN: the largest byte buffer held or produced -/
  bufCap : Option Nat
  /-- `P_SEQ_CAP`, OPEN: the largest value sequence produced in one response -/
  seqCap : Option Nat
  deriving DecidableEq, Repr

/-- The spec's defaults REJECT and TRUE (00_scope.md R8). The two OPEN capacities have no value in the spec: unbounded here,
DESIGN CHOICE, log entry 2 (unsafe: no statement rests on it, each holds for every `Params`). -/
def Params.default : Params where
  ovfPolicy := .reject
  strictPayload := true
  bufCap := none
  seqCap := none

/-- `NB_MIN = 1` (00_scope.md R9). -/
def nbMin : Nat := 1

/-- `NB_MAX = 32` (00_scope.md R9). -/
def nbMax : Nat := 32

/-- `FF_WIDTH = 10` (00_scope.md R9, 44_container_ff.md R202). -/
def ffWidth : Nat := 10

end Sys2Proof
end

