-- ==== Sys2Proof/Machine/State.lean ====
section
/-! DEFINITION. The machine's state (10_state.md R30), the command port and the response port as plain data (60_exceptions.md
R241, R263), the reasons a step can stop, and the state after reset (70_reset_and_hazards.md R270). -/

namespace Sys2Proof.Machine

/-- The status codes other than OK (60_exceptions.md R240). -/
inductive RaiseKind where
  | truncatedHeader
  | truncatedPayload
  | unsupportedBitWidth
  | magicMismatch
  | invalidEncoding
  | valueOutOfRange
  | fieldOutOfRange
  | payloadSizeMismatch
  | shapeMismatch
  | capacityExceeded
  | illegalCommand
  deriving DecidableEq, Repr

/-- The field identifiers (60_exceptions.md R242). -/
inductive FieldId where
  | none
  | magic
  | version
  | sampleRate
  | modelNameLen
  | modelName
  | levelCount
  | levelLength
  | levelBitWidth
  | levelPayloadSize
  | levelPayload
  | ffSampleRate
  | ffChannelCount
  | ffFrameCount
  | ffShapeB
  | ffShapeN
  | ffShapeT
  | ffPayload
  | nb
  | arg
  | buffer
  | count
  deriving DecidableEq, Repr

/-- What `raise <Kind>(field, index)` carries (00_scope.md R13). -/
structure Raise where
  kind : RaiseKind
  field : FieldId
  index : Nat
  deriving DecidableEq, Repr

/-- One decoded level of a self-describing container (43_container_sd.md R179). -/
structure Level where
  length : Word
  bitWidth : Nat
  values : List Word
  deriving DecidableEq, Repr

/-- The result of a CC_DECODE that ends OK (43_container_sd.md R179). -/
structure Container where
  version : Byte
  sampleRate : Word
  name : List Byte
  fromFallback : Bool
  levels : List Level
  consumed : Nat
  deriving DecidableEq, Repr

/-- The result of an FF_DECODE that ends OK (44_container_ff.md R214). -/
structure FramedContainer where
  sampleRate : I32
  channelCount : I32
  frames : List Frame
  consumed : Nat
  deriving DecidableEq, Repr

/-- The snapshot that ST_READ returns (45_system.md R230). -/
structure Snapshot where
  status : BitVec 8
  errField : BitVec 8
  errIndex : BitVec 32
  stickyErr : Bool
  bwAcc : BitVec 7
  bwCnt : BitVec 3
  bwOutLen : Nat
  brPos : Nat
  brAcc : BitVec 7
  brCnt : BitVec 3
  brBufLen : Nat
  wsMax : Word
  deriving DecidableEq, Repr

/-- What a response carries beside its status (60_exceptions.md R241); `none` is `respond(NONE)` and the missing payload of a
command that did not end OK. -/
inductive Payload where
  | none
  | bytes (buf : List Byte)
  | values (seq : List Word)
  | width (w : Nat)
  | container (c : Container)
  | framed (c : FramedContainer)
  | snapshot (s : Snapshot)
  deriving DecidableEq, Repr

/-- The response record (60_exceptions.md R241). -/
structure Response where
  status : BitVec 8
  errField : BitVec 8
  errIndex : BitVec 32
  sticky : Bool
  payload : Payload
  deriving DecidableEq, Repr

/-- What the host does to the block (60_exceptions.md R263): issue a command, or assert reset between two commands. -/
inductive HostEvent where
  | command (c : Command)
  | reset
  deriving DecidableEq, Repr

/-- The state of one instance. The twelve elements of 10_state.md R30, then three fields of the model: the instance's
parameters (R8; fixed, log entry 1), what the host does next in arrival order, and the responses given (log entry 3). -/
structure State where
  /-- `BW_ACC`: the BitWriter's buffered bits (R30, R32) -/
  bwAcc : BitVec 7
  /-- `BW_CNT`: how many bits `BW_ACC` holds, 0..7 (R30, R32) -/
  bwCnt : BitVec 3
  /-- `BW_OUT`: the bytes emitted since the last BW_FINISH, BW_RESET or reset (R30, R33) -/
  bwOut : List Byte
  /-- `BR_BUF`: the BitReader's input (R30, R34) -/
  brBuf : List Byte
  /-- `BR_POS`: the index of the next input byte (R30, R35) -/
  brPos : Nat
  /-- `BR_ACC`: refilled bits not yet extracted (R30, R35) -/
  brAcc : BitVec 7
  /-- `BR_CNT`: how many bits `BR_ACC` holds, 0..7 (R30, R35) -/
  brCnt : BitVec 3
  /-- `WS_MAX`: the running maximum of the width selector (R30, R37) -/
  wsMax : BitVec 32
  /-- `STATUS`: the status code of the last completed command (R30, R38) -/
  status : BitVec 8
  /-- `ERR_FIELD`: the field identifier of the last status (R30, R39) -/
  errField : BitVec 8
  /-- `ERR_INDEX`: the level or frame index of the last status (R30, R39) -/
  errIndex : BitVec 32
  /-- `STICKY_ERR`: set by every error status, cleared only by reset (R30, R40) -/
  stickyErr : Bool
  /-- the instance's parameters (00_scope.md R8), which no command writes (R45) -/
  params : Params
  /-- what the host does next, in arrival order (R31) -/
  inputs : List HostEvent
  /-- the responses given so far, oldest first (60_exceptions.md R241) -/
  responses : List Response
  deriving DecidableEq, Repr

/-- The faults that stop the machine: none. Every command ends with a status in its response (60_exceptions.md R240, R251),
and no behaviour of the block is undefined (93_implementation_defined.md, section 2). -/
inductive Fault where
  deriving DecidableEq, Repr

/-- The commands without a meaning. -/
inductive Refusal where
  /-- raised by an arm of `exec` whose command has no meaning in the model (safe: the machine stops); no arm does -/
  | notModelled (mnemonic : String)
  deriving DecidableEq, Repr

/-- The state of an instance with the given parameters right after reset (70_reset_and_hazards.md R270, 10_state.md R30),
with nothing on its ports. -/
def State.resetWith (p : Params) : State where
  bwAcc := 0
  bwCnt := 0
  bwOut := []
  brBuf := []
  brPos := 0
  brAcc := 0
  brCnt := 0
  wsMax := 0
  status := 0
  errField := 0
  errIndex := 0
  stickyErr := false
  params := p
  inputs := []
  responses := []

/-- The machine right after reset, with the default parameters (00_scope.md R8, 70_reset_and_hazards.md R270; the two OPEN
capacities unbounded, log entry 2). -/
def State.reset : State := State.resetWith Params.default

end Sys2Proof.Machine
end

