-- ==== Sys2Proof/Machine/Flags.lean ====
section
/-! DEFINITION. The status registers' values: the numeric status codes (60_exceptions.md R240), the field identifiers (R242) and
the rule of the sticky error bit (10_state.md R40, 60_exceptions.md R252). -/

namespace Sys2Proof.Machine

/-- The status code OK (60_exceptions.md R240). -/
def statusOk : BitVec 8 := 0

/-- The status codes 1 to 11 (60_exceptions.md R240). -/
def RaiseKind.code : RaiseKind → BitVec 8
  | .truncatedHeader => 1
  | .truncatedPayload => 2
  | .unsupportedBitWidth => 3
  | .magicMismatch => 4
  | .invalidEncoding => 5
  | .valueOutOfRange => 6
  | .fieldOutOfRange => 7
  | .payloadSizeMismatch => 8
  | .shapeMismatch => 9
  | .capacityExceeded => 10
  | .illegalCommand => 11

/-- The field identifiers 0 to 21 (60_exceptions.md R242). -/
def FieldId.id : FieldId → BitVec 8
  | .none => 0
  | .magic => 1
  | .version => 2
  | .sampleRate => 3
  | .modelNameLen => 4
  | .modelName => 5
  | .levelCount => 6
  | .levelLength => 7
  | .levelBitWidth => 8
  | .levelPayloadSize => 9
  | .levelPayload => 10
  | .ffSampleRate => 11
  | .ffChannelCount => 12
  | .ffFrameCount => 13
  | .ffShapeB => 14
  | .ffShapeN => 15
  | .ffShapeT => 16
  | .ffPayload => 17
  | .nb => 18
  | .arg => 19
  | .buffer => 20
  | .count => 21

/-- `STICKY_ERR` after a command that raises `k`: set, unless `k` is MagicMismatch (10_state.md R40, 60_exceptions.md R252). -/
def stickyAfter (old : Bool) (k : RaiseKind) : Bool :=
  if k = .magicMismatch then old else true

end Sys2Proof.Machine
end

