-- ==== Sys2Proof/Machine/Bits.lean ====
section
/-! DEFINITION. The bit and number notation of the spec: masks, bit lengths, MSB-first bit sequences and streams
(00_scope.md R11, R14, R15; 41_bitreader.md R121). -/

namespace Sys2Proof.Machine

/-- `mask(n) = 2^n - 1` (00_scope.md R11). -/
def mask (n : Nat) : Nat := 2 ^ n - 1

/-- `ceildiv8(x) = (x + 7) >> 3` (00_scope.md R11). -/
def ceildiv8 (x : Nat) : Nat := (x + 7) >>> 3

/-- `bitlen(m)`, the least `w` with `m < 2^w` (00_scope.md R11); `bitlen_le_iff` says so. -/
def bitlen : Nat → Nat
  | 0 => 0
  | m + 1 => Nat.log2 (m + 1) + 1

/-- `bits(v, n)`, the n bits of `v`, most significant first (00_scope.md R15). -/
def bits (v : Nat) : Nat → List Bool
  | 0 => []
  | n + 1 => v.testBit n :: bits v n

/-- The number whose bits, most significant first, are the given sequence. -/
def natOfBits (s : List Bool) : Nat :=
  s.foldl (fun acc b => 2 * acc + b.toNat) 0

/-- The first `k` groups of 8 bits as bytes, the first bit of a group as bit 7 (00_scope.md R15). -/
def groupBytes : Nat → List Bool → List Byte
  | 0, _ => []
  | k + 1, s => BitVec.ofNat 8 (natOfBits (s.take 8)) :: groupBytes k (s.drop 8)

/-- A bit sequence padded with zero bits at its end to a multiple of 8 (00_scope.md R15). -/
def padBits (s : List Bool) : List Bool :=
  s ++ List.replicate (8 * ceildiv8 s.length - s.length) false

/-- `bytes_of(s)` (00_scope.md R15). -/
def bytesOf (s : List Bool) : List Byte :=
  groupBytes (ceildiv8 s.length) (padBits s)

/-- `bits_of_bytes`: the concatenation of `bits(b, 8)` over the bytes in order (40_bitwriter.md R106). -/
def bitsOfBytes (buf : List Byte) : List Bool :=
  buf.flatMap fun b => bits b.toNat 8

/-- Bit k of the stream of a buffer: bit `7 - (k mod 8)` of byte `floor(k / 8)` (00_scope.md R14), and 0 past the end
(41_bitreader.md R121). -/
def streamBit (buf : List Byte) (k : Nat) : Bool :=
  match buf[k / 8]? with
  | some b => b.toNat.testBit (7 - k % 8)
  | none => false

/-- `S_ext(p, n)`: the n-bit number at bit position `p` of the zero-extended stream (41_bitreader.md R121). -/
def streamValue (buf : List Byte) (p n : Nat) : Nat :=
  natOfBits ((List.range n).map fun k => streamBit buf (p + k))

end Sys2Proof.Machine
end

