-- ==== Sys2Proof/Machine/Operands.lean ====
section
/-! DEFINITION. Byte-aligned container fields (20_memory.md R62, R63), slices of buffers (00_scope.md R13), the capacity checks
(20_memory.md R61), the value-range policy (40_bitwriter.md R102), i32 dimensions and well-formed UTF-8 (00_scope.md R17). -/

namespace Sys2Proof.Machine

/-- `le16(x)` (00_scope.md R13). -/
def le16 (x : Nat) : List Byte :=
  [BitVec.ofNat 8 x, BitVec.ofNat 8 (x >>> 8)]

/-- `le32(x) = [x[7:0], x[15:8], x[23:16], x[31:24]]` (00_scope.md R13). -/
def le32 (x : Nat) : List Byte :=
  [BitVec.ofNat 8 x, BitVec.ofNat 8 (x >>> 8), BitVec.ofNat 8 (x >>> 16), BitVec.ofNat 8 (x >>> 24)]

/-- The little-endian number of a byte sequence: `rdle16` and `rdle32` on 2 and 4 bytes (00_scope.md R13). -/
def rdle : List Byte → Nat
  | [] => 0
  | b :: rest => b.toNat + 2 ^ 8 * rdle rest

/-- `buf[p..p+n)`, which `MemRead(buf, p, n)` returns (00_scope.md R12, R13). -/
def slice (buf : List Byte) (p n : Nat) : List Byte := (buf.drop p).take n

/-- Whether a length is larger than a capacity; nothing exceeds an unbounded one (00_scope.md R8, 20_memory.md R61). -/
def exceeds (cap : Option Nat) (n : Nat) : Bool :=
  match cap with
  | none => false
  | some c => decide (c < n)

/-- Raise `r` if `bad`, else go on: one check of a command's rule (00_scope.md R13). -/
def check (bad : Bool) (r : Raise) : Except Raise Unit :=
  if bad then .error r else .ok ()

/-- The width check of BW_PUSH and BR_EXTRACT: `nb` is in 1..32 (30_encoding.md R81). -/
def checkWidth (nb : Nat) : Except Raise Unit :=
  check (decide (nb < nbMin) || decide (nbMax < nb)) ⟨.unsupportedBitWidth, .nb, 0⟩

/-- The value-range policy, one for BW_PUSH and FF_ENCODE (40_bitwriter.md R102, 44_container_ff.md R206): a value that does
not fit `nb` bits raises ValueOutOfRange under REJECT and keeps its low `nb` bits under MASK. -/
def fitValue (policy : OvfPolicy) (nb v : Nat) (f : FieldId) (i : Nat) : Except Raise Nat :=
  if 2 ^ nb ≤ v then
    match policy with
    | .reject => .error ⟨.valueOutOfRange, f, i⟩
    | .mask => .ok (v &&& mask nb)
  else .ok v

/-- `B * N * T`, exact (44_container_ff.md R210). -/
def shapeProduct (b n t : I32) : Int := b.toInt * n.toInt * t.toInt

/-- One row of the table of well-formed UTF-8 (00_scope.md R17): the range of the first byte and of each byte after it. -/
structure Utf8Row where
  lead : Nat × Nat
  trail : List (Nat × Nat)
  deriving DecidableEq, Repr

/-- The table of 00_scope.md R17. -/
def utf8Table : List Utf8Row :=
  [⟨(0x00, 0x7F), []⟩,
    ⟨(0xC2, 0xDF), [(0x80, 0xBF)]⟩,
    ⟨(0xE0, 0xE0), [(0xA0, 0xBF), (0x80, 0xBF)]⟩,
    ⟨(0xE1, 0xEC), [(0x80, 0xBF), (0x80, 0xBF)]⟩,
    ⟨(0xED, 0xED), [(0x80, 0x9F), (0x80, 0xBF)]⟩,
    ⟨(0xEE, 0xEF), [(0x80, 0xBF), (0x80, 0xBF)]⟩,
    ⟨(0xF0, 0xF0), [(0x90, 0xBF), (0x80, 0xBF), (0x80, 0xBF)]⟩,
    ⟨(0xF1, 0xF3), [(0x80, 0xBF), (0x80, 0xBF), (0x80, 0xBF)]⟩,
    ⟨(0xF4, 0xF4), [(0x80, 0x8F), (0x80, 0xBF), (0x80, 0xBF)]⟩]

/-- Whether a byte lies in a range of the table. -/
def byteIn (r : Nat × Nat) (b : Byte) : Bool :=
  decide (r.1 ≤ b.toNat) && decide (b.toNat ≤ r.2)

/-- Whether a byte sequence is one character of the given ranges, one range for each byte. -/
def matchesRanges : List (Nat × Nat) → List Byte → Bool
  | [], [] => true
  | r :: rs, b :: bs => byteIn r b && matchesRanges rs bs
  | _, _ => false

/-- Whether a byte sequence is one character: it matches one row of the table (00_scope.md R17). -/
def utf8Char (c : List Byte) : Bool :=
  utf8Table.any fun row => matchesRanges (row.lead :: row.trail) c

/-- What is left of a byte sequence after its first character, if one stands there. The rows' first-byte ranges are disjoint,
so the first row whose range holds the lead byte is the only one that can match. -/
def utf8Rest (s : List Byte) : Option (List Byte) :=
  match s with
  | [] => none
  | b :: rest =>
    match utf8Table.find? fun row => byteIn row.lead b with
    | none => none
    | some row =>
      if matchesRanges row.trail (rest.take row.trail.length) then some (rest.drop row.trail.length) else none

/-- Splits at most `fuel` characters off a sequence and says whether nothing is left over. -/
def utf8Split : Nat → List Byte → Bool
  | _, [] => true
  | 0, _ :: _ => false
  | fuel + 1, s@(_ :: _) =>
    match utf8Rest s with
    | none => false
    | some rest => utf8Split fuel rest

/-- `utf8_wellformed` (00_scope.md R17): the sequence splits into characters with no bytes left over. Each character has a
byte, so the sequence's length bounds their number. -/
def utf8WellFormed (s : List Byte) : Bool := utf8Split s.length s

end Sys2Proof.Machine
end

