-- ==== Sys2Proof/Machine/Ops.lean ====
section
/-! DEFINITION. The shared operations: ending a command with a status (60_exceptions.md R250), the ports, the writer's push and
flush (40_bitwriter.md R101, R103, R104), the reader's value step (41_bitreader.md R123, R125) and the width function
(42_widthselector.md R141). -/

namespace Sys2Proof.Machine

/-! ### How a command ends -/

/-- What a command's rule computes: the state and payload of `respond`, or what it raises (00_scope.md R13). -/
abbrev Result := Except Raise (State × Payload)

/-- The response for the status registers as they stand (60_exceptions.md R241). -/
def State.respond (s : State) (payload : Payload) : State :=
  { s with responses := s.responses ++ [⟨s.status, s.errField, s.errIndex, s.stickyErr, payload⟩] }

/-- A command ends OK: STATUS, ERR_FIELD and ERR_INDEX become 0 and the response carries the payload (60_exceptions.md R250). -/
def complete (s : State) (payload : Payload) : State :=
  ({ s with status := statusOk, errField := FieldId.none.id, errIndex := 0 }).respond payload

/-- A command ends with a status other than OK, the block's only exception: the three status registers record it, STICKY_ERR
is set unless it is MagicMismatch, the response has no payload, and control goes nowhere (60_exceptions.md R250, R251, R252). -/
def raiseStatus (s : State) (r : Raise) : State :=
  ({ s with
      status := r.kind.code
      errField := r.field.id
      errIndex := BitVec.ofNat 32 r.index
      stickyErr := stickyAfter s.stickyErr r.kind }).respond .none

/-- The commit rule (60_exceptions.md R250): a rule's state changes take effect only if the command ends OK. -/
def commit (s : State) : Result → State
  | .ok (s', payload) => complete s' payload
  | .error r => raiseStatus s r

/-- An illegal command (30_encoding.md R86): IllegalCommand(NONE, 0), and nothing else changes. -/
def illegalCommand (s : State) : State :=
  raiseStatus s ⟨.illegalCommand, .none, 0⟩

/-! ### The ports -/

/-- The reset input (70_reset_and_hazards.md R270): every element of the state takes its reset value. The parameters stay; what
the host does after the reset, and the responses it already has, are the host's (log entry 3). -/
def resetBlock (s : State) : State :=
  { State.resetWith s.params with inputs := s.inputs, responses := s.responses }

/-- What the host does next, and the state once it is taken from the port (60_exceptions.md R263). -/
def takeInput (s : State) : Option (HostEvent × State) :=
  match s.inputs with
  | [] => none
  | e :: rest => some (e, { s with inputs := rest })

/-! ### The writer -/

/-- A BitWriter: the block's (10_state.md R32, R33) or a container command's private one (R41). -/
structure Writer where
  acc : BitVec 7
  cnt : BitVec 3
  out : List Byte
  deriving DecidableEq, Repr

/-- The empty writer (40_bitwriter.md R100, R104). -/
def Writer.empty : Writer := ⟨0, 0, []⟩

/-- The loop of BW_PUSH that emits whole bytes, `k` times: the emitted bytes and what is left of the `n` bits of `t`
(40_bitwriter.md R101). -/
def drain : Nat → Nat → Nat → List Byte × Nat
  | 0, _, t => ([], t)
  | k + 1, n, t =>
    let rest := drain k (n - 8) (t &&& mask (n - 8))
    (BitVec.ofNat 8 (t >>> (n - 8)) :: rest.1, rest.2)

/-- The state change of BW_PUSH on a value that fits its width. The loop runs while 8 bits are buffered, which is `n / 8` times
(40_bitwriter.md R101). -/
def Writer.push (w : Writer) (nb v : Nat) : Writer :=
  let n := w.cnt.toNat + nb
  let t := (w.acc.toNat <<< nb) ||| v
  let drained := drain (n / 8) n t
  { acc := BitVec.ofNat 7 drained.2
    cnt := BitVec.ofNat 3 (n % 8)
    out := w.out ++ drained.1 }

/-- What BW_FINISH hands off: the emitted bytes, and the buffered bits in a last byte padded with zeros (40_bitwriter.md R103). -/
def Writer.flush (w : Writer) : List Byte :=
  if 0 < w.cnt.toNat then w.out ++ [BitVec.ofNat 8 (w.acc.toNat <<< (8 - w.cnt.toNat))] else w.out

/-- `pack(values, nb)`: a private writer, run from empty and finished (40_bitwriter.md R104). -/
def pack (values : List Nat) (nb : Nat) : List Byte :=
  (values.foldl (fun w v => w.push nb v) Writer.empty).flush

/-- The block's writer. -/
def State.writer (s : State) : Writer := ⟨s.bwAcc, s.bwCnt, s.bwOut⟩

/-- The block's writer replaced. -/
def State.withWriter (s : State) (w : Writer) : State :=
  { s with bwAcc := w.acc, bwCnt := w.cnt, bwOut := w.out }

/-! ### The reader -/

/-- A reader's cursor over a buffer: the next byte, and the buffered bits. Inside a value step it holds up to 39 bits
(10_state.md R44). -/
structure Cursor where
  pos : Nat
  acc : Nat
  cnt : Nat
  deriving DecidableEq, Repr

/-- The cursor that BR_LOAD sets (41_bitreader.md R120). -/
def Cursor.start : Cursor := ⟨0, 0, 0⟩

/-- The refill loop of a value step over the bytes not yet read (41_bitreader.md R123). -/
def refill (nb : Nat) : List Byte → Cursor → Cursor
  | [], c => c
  | b :: rest, c =>
    if c.cnt < nb then refill nb rest ⟨c.pos + 1, (c.acc <<< 8) ||| b.toNat, c.cnt + 8⟩ else c

/-- `value_step(nb)`: the value and the cursor after it (41_bitreader.md R123). -/
def valueStep (buf : List Byte) (nb : Nat) (c : Cursor) : Nat × Cursor :=
  let f := refill nb (buf.drop c.pos) c
  if nb ≤ f.cnt then
    (f.acc >>> (f.cnt - nb), ⟨f.pos, f.acc &&& mask (f.cnt - nb), f.cnt - nb⟩)
  else (f.acc <<< (nb - f.cnt), ⟨f.pos, 0, 0⟩)

/-- `count` value steps in a row: their values, and the cursor after them (41_bitreader.md R122). -/
def extractValues (buf : List Byte) (nb : Nat) : Nat → Cursor → List Nat × Cursor
  | 0, c => ([], c)
  | k + 1, c =>
    let first := valueStep buf nb c
    let rest := extractValues buf nb k first.2
    (first.1 :: rest.1, rest.2)

/-- `unpack(bytes, count, nb)`: a private reader that starts empty (41_bitreader.md R125). -/
def unpack (buf : List Byte) (count nb : Nat) : List Nat :=
  (extractValues buf nb count Cursor.start).1

/-- Numbers as u32 values (00_scope.md R10). -/
def toWords (values : List Nat) : List Word := values.map (BitVec.ofNat 32)

/-- u32 values as numbers. -/
def fromWords (values : List Word) : List Nat := values.map BitVec.toNat

/-- The block's reader cursor (10_state.md R34). -/
def State.cursor (s : State) : Cursor := ⟨s.brPos, s.brAcc.toNat, s.brCnt.toNat⟩

/-- The block's reader cursor replaced. -/
def State.withCursor (s : State) (c : Cursor) : State :=
  { s with brPos := c.pos, brAcc := BitVec.ofNat 7 c.acc, brCnt := BitVec.ofNat 3 c.cnt }

/-- `BR_BITPOS = 8*BR_POS - BR_CNT`, the number of stream bits consumed (10_state.md R36). -/
def State.brBitPos (s : State) : Nat := 8 * s.brPos - s.brCnt.toNat

/-! ### The width selector -/

/-- `width(m) = max(1, bitlen(m))` (42_widthselector.md R141). -/
def width (m : Nat) : Nat := max 1 (bitlen m)

/-- The larger of a running maximum and one value (42_widthselector.md R142). -/
def scanMax (m v : Word) : Word := if m < v then v else m

/-- The largest value of a sequence, 0 if it is empty (42_widthselector.md R144). -/
def seqMax (seq : List Word) : Word := seq.foldl scanMax 0

end Sys2Proof.Machine
end

