-- ==== Sys2Proof/Machine/BitReader.lean ====
section
/-! DEFINITION. The BitReader commands BR_LOAD and BR_EXTRACT (41_bitreader.md). -/

namespace Sys2Proof.Machine

/-- The rule of BR_LOAD (41_bitreader.md R120): the buffer is copied in and the cursor starts over. -/
def brLoadRule (buf : List Byte) (s : State) : Result := do
  check (exceeds s.params.bufCap buf.length) ⟨.capacityExceeded, .buffer, 0⟩
  return ({ s with brBuf := buf }.withCursor Cursor.start, .none)

/-- BR_LOAD buf (41_bitreader.md R120). -/
def execBrLoad (buf : List Byte) (s : State) : Host.Outcome State Fault Refusal :=
  .next (commit s (brLoadRule buf s))

/-- The rule of BR_EXTRACT, its checks in order (41_bitreader.md R122). Running out of input raises nothing (R127). -/
def brExtractRule (nb : Nat) (count : Word) (s : State) : Result := do
  checkWidth nb
  check (exceeds s.params.seqCap count.toNat) ⟨.capacityExceeded, .count, 0⟩
  let extracted := extractValues s.brBuf nb count.toNat s.cursor
  return (s.withCursor extracted.2, .values (toWords extracted.1))

/-- BR_EXTRACT count, nb (41_bitreader.md R122). -/
def execBrExtract (nb : Nat) (count : Word) (s : State) : Host.Outcome State Fault Refusal :=
  .next (commit s (brExtractRule nb count s))

end Sys2Proof.Machine
end

