-- ==== Sys2Proof/Machine/BitWriter.lean ====
section
/-! DEFINITION. The BitWriter commands BW_RESET, BW_PUSH and BW_FINISH (40_bitwriter.md). -/

namespace Sys2Proof.Machine

/-- BW_RESET (40_bitwriter.md R100): the writer is emptied, and nothing is handed off. -/
def execBwReset (s : State) : Host.Outcome State Fault Refusal :=
  .next (commit s (.ok (s.withWriter Writer.empty, .none)))

/-- The rule of BW_PUSH, its checks in order (40_bitwriter.md R101). -/
def bwPushRule (nb : Nat) (v : Word) (s : State) : Result := do
  checkWidth nb
  let fitted ← fitValue s.params.ovfPolicy nb v.toNat .arg 0
  let w := s.writer.push nb fitted
  check (exceeds s.params.bufCap w.out.length) ⟨.capacityExceeded, .buffer, 0⟩
  return (s.withWriter w, .none)

/-- BW_PUSH nb, v (40_bitwriter.md R101). -/
def execBwPush (nb : Nat) (v : Word) (s : State) : Host.Outcome State Fault Refusal :=
  .next (commit s (bwPushRule nb v s))

/-- The rule of BW_FINISH (40_bitwriter.md R103). -/
def bwFinishRule (s : State) : Result := do
  let out := s.writer.flush
  check (exceeds s.params.bufCap out.length) ⟨.capacityExceeded, .buffer, 0⟩
  return (s.withWriter Writer.empty, .bytes out)

/-- BW_FINISH (40_bitwriter.md R103). -/
def execBwFinish (s : State) : Host.Outcome State Fault Refusal :=
  .next (commit s (bwFinishRule s))

end Sys2Proof.Machine
end

