-- ==== Sys2Proof/Machine/ContainerSd.lean ====
section
/-! DEFINITION. The self-describing container codec: CC_ENCODE and CC_DECODE (43_container_sd.md). -/

namespace Sys2Proof.Machine

/-- The tag "SNAC" (43_container_sd.md R162, 00_scope.md R16). -/
def magicTag : List Byte := [0x53, 0x4E, 0x41, 0x43]

/-! ### CC_ENCODE -/

/-- The width CC_ENCODE selects for a level (43_container_sd.md R166, R167). -/
def levelWidth (level : List Word) : Nat := width (seqMax level).toNat

/-- The payload chunk of a level (43_container_sd.md R165). -/
def levelChunk (level : List Word) : List Byte := pack (fromWords level) (levelWidth level)

/-- The loop over the levels from level `i` on: the metadata bytes and the payload bytes (43_container_sd.md R165). -/
def encodeLevels : List (List Word) → Nat → Except Raise (List Byte × List Byte)
  | [], _ => .ok ([], [])
  | level :: levels, i => do
    check (decide (2 ^ 32 - 1 < level.length)) ⟨.fieldOutOfRange, .levelLength, i⟩
    let chunk := levelChunk level
    check (decide (2 ^ 32 - 1 < chunk.length)) ⟨.fieldOutOfRange, .levelPayloadSize, i⟩
    let rest ← encodeLevels levels (i + 1)
    return (le32 level.length ++ le16 (levelWidth level) ++ le32 chunk.length ++ rest.1, chunk ++ rest.2)

/-- The bytes of a self-describing container, or what CC_ENCODE raises, its checks in order (43_container_sd.md R165). -/
def encodeContainer (bufCap : Option Nat) (version : Byte) (sampleRate : Word) (modelName : List Byte)
    (levels : List (List Word)) : Except Raise (List Byte) := do
  check (decide (2 ^ 16 - 1 < modelName.length)) ⟨.fieldOutOfRange, .modelNameLen, 0⟩
  check (!utf8WellFormed modelName) ⟨.invalidEncoding, .modelName, 0⟩
  check (decide (2 ^ 32 - 1 < levels.length)) ⟨.fieldOutOfRange, .levelCount, 0⟩
  let body ← encodeLevels levels 0
  let out := magicTag ++ [version] ++ le32 sampleRate.toNat ++ le16 modelName.length ++ modelName
    ++ le32 levels.length ++ body.1 ++ body.2
  check (exceeds bufCap out.length) ⟨.capacityExceeded, .buffer, 0⟩
  return out

/-- The rule of CC_ENCODE: no state but the status registers changes (43_container_sd.md R165, 10_state.md R41). -/
def ccEncodeRule (version : Byte) (sampleRate : Word) (modelName : List Byte) (levels : List (List Word)) (s : State) :
    Result := do
  let out ← encodeContainer s.params.bufCap version sampleRate modelName levels
  return (s, .bytes out)

/-- CC_ENCODE version, sampleRate, modelName, levels (43_container_sd.md R165). -/
def execCcEncode (version : Byte) (sampleRate : Word) (modelName : List Byte) (levels : List (List Word)) (s : State) :
    Host.Outcome State Fault Refusal :=
  .next (commit s (ccEncodeRule version sampleRate modelName levels s))

/-! ### CC_DECODE -/

/-- `need(n, field, i)` at read position `p` (43_container_sd.md R172, 20_memory.md R63). -/
def need (buf : List Byte) (p n : Nat) (f : FieldId) (i : Nat) : Except Raise Unit :=
  check (decide (buf.length < p + n)) ⟨.truncatedHeader, f, i⟩

/-- A little-endian field of `n` bytes at position `p`, read after its bounds check (43_container_sd.md R172). -/
def readField (buf : List Byte) (p n : Nat) (f : FieldId) (i : Nat) : Except Raise Nat := do
  need buf p n f i
  return rdle (slice buf p n)

/-- The metadata record of one level (00_scope.md R19, LevelMetadata). -/
structure LevelMeta where
  length : Nat
  bitWidth : Nat
  payloadSize : Nat
  deriving DecidableEq, Repr

/-- One metadata record, field by field, each check as soon as its field is read (43_container_sd.md R174, R175). -/
def readMeta (strict : Bool) (buf : List Byte) (i p : Nat) : Except Raise LevelMeta := do
  let n ← readField buf p 4 .levelLength i
  let w ← readField buf (p + 4) 2 .levelBitWidth i
  check (decide (w < nbMin) || decide (nbMax < w)) ⟨.unsupportedBitWidth, .levelBitWidth, i⟩
  let size ← readField buf (p + 6) 4 .levelPayloadSize i
  check (strict && decide (size ≠ ceildiv8 (n * w))) ⟨.payloadSizeMismatch, .levelPayloadSize, i⟩
  return ⟨n, w, size⟩

/-- `k` metadata records from level `i` at position `p` on, and the position after them (43_container_sd.md R174). -/
def readMetas (strict : Bool) (buf : List Byte) : Nat → Nat → Nat → Except Raise (List LevelMeta × Nat)
  | 0, _, p => .ok ([], p)
  | k + 1, i, p => do
    let m ← readMeta strict buf i p
    let rest ← readMetas strict buf k (i + 1) (p + 10)
    return (m :: rest.1, rest.2)

/-- The payload chunks from level `i` at position `p` on, each decoded by a fresh private reader, and the position after them
(43_container_sd.md R176, R177). -/
def readPayloads (seqCap : Option Nat) (buf : List Byte) :
    List LevelMeta → Nat → Nat → Except Raise (List Level × Nat)
  | [], _, p => .ok ([], p)
  | m :: metas, i, p => do
    check (decide (buf.length < p + m.payloadSize)) ⟨.truncatedPayload, .levelPayload, i⟩
    check (exceeds seqCap m.length) ⟨.capacityExceeded, .count, i⟩
    let values := toWords (unpack (slice buf p m.payloadSize) m.length m.bitWidth)
    let rest ← readPayloads seqCap buf metas (i + 1) (p + m.payloadSize)
    return (⟨BitVec.ofNat 32 m.length, m.bitWidth, values⟩ :: rest.1, rest.2)

/-- The model identifier at position 11 and the position after it: the fallback if its length is 0 (43_container_sd.md R173). -/
def readName (buf fallbackName : List Byte) (len : Nat) : Except Raise (List Byte × Bool) :=
  if len = 0 then .ok (fallbackName, true)
  else do
    need buf 11 len .modelName 0
    check (!utf8WellFormed (slice buf 11 len)) ⟨.invalidEncoding, .modelName, 0⟩
    return (slice buf 11 len, false)

/-- A decoded container, or what CC_DECODE raises, its checks in order (43_container_sd.md R170, R171, R180). The fields before
the name stand at fixed offsets (R161). -/
def decodeContainer (p : Params) (buf fallbackName : List Byte) : Except Raise Container := do
  check (exceeds p.bufCap buf.length) ⟨.capacityExceeded, .buffer, 0⟩
  check (decide (buf.length < 4) || slice buf 0 4 != magicTag) ⟨.magicMismatch, .magic, 0⟩
  let version ← readField buf 4 1 .version 0
  let sampleRate ← readField buf 5 4 .sampleRate 0
  let nameLen ← readField buf 9 2 .modelNameLen 0
  let name ← readName buf fallbackName nameLen
  let levelCount ← readField buf (11 + nameLen) 4 .levelCount 0
  let metas ← readMetas p.strictPayload buf levelCount 0 (15 + nameLen)
  let levels ← readPayloads p.seqCap buf metas.1 0 metas.2
  return ⟨BitVec.ofNat 8 version, BitVec.ofNat 32 sampleRate, name.1, name.2, levels.1, levels.2⟩

/-- The rule of CC_DECODE: no state but the status registers changes (43_container_sd.md R170, 10_state.md R41). -/
def ccDecodeRule (buf fallbackName : List Byte) (s : State) : Result := do
  let c ← decodeContainer s.params buf fallbackName
  return (s, .container c)

/-- CC_DECODE buf, fallbackName (43_container_sd.md R170). -/
def execCcDecode (buf fallbackName : List Byte) (s : State) : Host.Outcome State Fault Refusal :=
  .next (commit s (ccDecodeRule buf fallbackName s))

end Sys2Proof.Machine
end

