-- ==== Sys2Proof/Machine/ContainerFf.lean ====
section
/-! DEFINITION. The fixed-width framed container codec: FF_ENCODE and FF_DECODE (44_container_ff.md). -/

namespace Sys2Proof.Machine

/-! ### FF_ENCODE -/

/-- The codes of frame `i` under the value-range policy (44_container_ff.md R205, R206). -/
def fitCodes (policy : OvfPolicy) (i : Nat) : List Word → Except Raise (List Nat)
  | [] => .ok []
  | v :: values => do
    let first ← fitValue policy ffWidth v.toNat .ffPayload i
    let rest ← fitCodes policy i values
    return first :: rest

/-- One frame: its shape and its packed codes, its checks in order (44_container_ff.md R205). -/
def encodeFrame (policy : OvfPolicy) (i : Nat) (f : Frame) : Except Raise (List Byte) := do
  check (decide (f.shapeB.toInt < 0)) ⟨.fieldOutOfRange, .ffShapeB, i⟩
  check (decide (f.shapeN.toInt < 0)) ⟨.fieldOutOfRange, .ffShapeN, i⟩
  check (decide (f.shapeT.toInt < 0)) ⟨.fieldOutOfRange, .ffShapeT, i⟩
  check (decide ((f.values.length : Int) ≠ shapeProduct f.shapeB f.shapeN f.shapeT)) ⟨.shapeMismatch, .ffPayload, i⟩
  let codes ← fitCodes policy i f.values
  return le32 f.shapeB.toNat ++ le32 f.shapeN.toNat ++ le32 f.shapeT.toNat ++ pack codes ffWidth

/-- The frames from frame `i` on (44_container_ff.md R205). -/
def encodeFrames (policy : OvfPolicy) : List Frame → Nat → Except Raise (List Byte)
  | [], _ => .ok []
  | f :: frames, i => do
    let first ← encodeFrame policy i f
    let rest ← encodeFrames policy frames (i + 1)
    return first ++ rest

/-- The bytes of a framed container, or what FF_ENCODE raises, its checks in order (44_container_ff.md R205). An i32 field
`y` is stored as `le32(y mod 2^32)` (20_memory.md R62), the number of its 32 bits. -/
def encodeFramed (p : Params) (sampleRate channelCount : I32) (frames : List Frame) : Except Raise (List Byte) := do
  check (decide (2 ^ 31 - 1 < frames.length)) ⟨.fieldOutOfRange, .ffFrameCount, 0⟩
  let body ← encodeFrames p.ovfPolicy frames 0
  let out := le32 sampleRate.toNat ++ le32 channelCount.toNat ++ le32 frames.length ++ body
  check (exceeds p.bufCap out.length) ⟨.capacityExceeded, .buffer, 0⟩
  return out

/-- The rule of FF_ENCODE: no state but the status registers changes (44_container_ff.md R205, 10_state.md R41). -/
def ffEncodeRule (sampleRate channelCount : I32) (frames : List Frame) (s : State) : Result := do
  let out ← encodeFramed s.params sampleRate channelCount frames
  return (s, .bytes out)

/-- FF_ENCODE sampleRate, channelCount, frames (44_container_ff.md R205). -/
def execFfEncode (sampleRate channelCount : I32) (frames : List Frame) (s : State) : Host.Outcome State Fault Refusal :=
  .next (commit s (ffEncodeRule sampleRate channelCount frames s))

/-! ### FF_DECODE -/

/-- An i32 field at position `p`, as its 32 bits: `sext_32(rdle32(b))` is its `toInt` (44_container_ff.md R210). -/
def readI32 (buf : List Byte) (p : Nat) (f : FieldId) (i : Nat) : Except Raise I32 := do
  let x ← readField buf p 4 f i
  return BitVec.ofNat 32 x

/-- A count or dimension field at position `p`: a negative one raises FieldOutOfRange as soon as it is read
(44_container_ff.md R211). -/
def readDim (buf : List Byte) (p : Nat) (f : FieldId) (i : Nat) : Except Raise I32 := do
  let x ← readI32 buf p f i
  check (decide (x.toInt < 0)) ⟨.fieldOutOfRange, f, i⟩
  return x

/-- Frame `i` at position `p`, and the position after it (44_container_ff.md R210). -/
def readFrame (seqCap : Option Nat) (buf : List Byte) (i p : Nat) : Except Raise (Frame × Nat) := do
  let b ← readDim buf p .ffShapeB i
  let n ← readDim buf (p + 4) .ffShapeN i
  let t ← readDim buf (p + 8) .ffShapeT i
  let cnt := (shapeProduct b n t).toNat
  let size := ceildiv8 (ffWidth * cnt)
  check (decide (buf.length < p + 12 + size)) ⟨.truncatedPayload, .ffPayload, i⟩
  check (exceeds seqCap cnt) ⟨.capacityExceeded, .count, i⟩
  return (⟨b, n, t, toWords (unpack (slice buf (p + 12) size) cnt ffWidth)⟩, p + 12 + size)

/-- `k` frames from frame `i` at position `p` on, and the position after them (44_container_ff.md R210). -/
def readFrames (seqCap : Option Nat) (buf : List Byte) : Nat → Nat → Nat → Except Raise (List Frame × Nat)
  | 0, _, p => .ok ([], p)
  | k + 1, i, p => do
    let first ← readFrame seqCap buf i p
    let rest ← readFrames seqCap buf k (i + 1) first.2
    return (first.1 :: rest.1, rest.2)

/-- A decoded framed container, or what FF_DECODE raises, its checks in order (44_container_ff.md R210, R216). -/
def decodeFramed (p : Params) (buf : List Byte) : Except Raise FramedContainer := do
  check (exceeds p.bufCap buf.length) ⟨.capacityExceeded, .buffer, 0⟩
  let sampleRate ← readI32 buf 0 .ffSampleRate 0
  let channelCount ← readI32 buf 4 .ffChannelCount 0
  let frameCount ← readDim buf 8 .ffFrameCount 0
  let frames ← readFrames p.seqCap buf frameCount.toNat 0 12
  return ⟨sampleRate, channelCount, frames.1, frames.2⟩

/-- The rule of FF_DECODE: no state but the status registers changes (44_container_ff.md R210, 10_state.md R41). -/
def ffDecodeRule (buf : List Byte) (s : State) : Result := do
  let c ← decodeFramed s.params buf
  return (s, .framed c)

/-- FF_DECODE buf (44_container_ff.md R210). -/
def execFfDecode (buf : List Byte) (s : State) : Host.Outcome State Fault Refusal :=
  .next (commit s (ffDecodeRule buf s))

end Sys2Proof.Machine
end

