-- ==== Sys2Proof/Machine/System.lean ====
section
/-! DEFINITION. The system command ST_READ (45_system.md). -/

namespace Sys2Proof.Machine

/-- The snapshot of the architectural state, the two buffers by their lengths (45_system.md R230). -/
def State.snapshot (s : State) : Snapshot where
  status := s.status
  errField := s.errField
  errIndex := s.errIndex
  stickyErr := s.stickyErr
  bwAcc := s.bwAcc
  bwCnt := s.bwCnt
  bwOutLen := s.bwOut.length
  brPos := s.brPos
  brAcc := s.brAcc
  brCnt := s.brCnt
  brBufLen := s.brBuf.length
  wsMax := s.wsMax

/-- ST_READ (45_system.md R230, R231): the snapshot is taken before the status registers become OK. -/
def execStRead (s : State) : Host.Outcome State Fault Refusal :=
  .next (commit s (.ok (s, .snapshot s.snapshot)))

end Sys2Proof.Machine
end

