-- ==== Sys2Proof/Machine/WidthSelector.lean ====
section
/-! DEFINITION. The WidthSelector commands WS_CLEAR, WS_SCAN, WS_WIDTH and WS_SELECT (42_widthselector.md). -/

namespace Sys2Proof.Machine

/-- WS_CLEAR (42_widthselector.md R140). -/
def execWsClear (s : State) : Host.Outcome State Fault Refusal :=
  .next (commit s (.ok ({ s with wsMax := 0 }, .none)))

/-- WS_SCAN v (42_widthselector.md R142). -/
def execWsScan (v : Word) (s : State) : Host.Outcome State Fault Refusal :=
  .next (commit s (.ok ({ s with wsMax := scanMax s.wsMax v }, .none)))

/-- WS_WIDTH (42_widthselector.md R143). -/
def execWsWidth (s : State) : Host.Outcome State Fault Refusal :=
  .next (commit s (.ok (s, .width (width s.wsMax.toNat))))

/-- WS_SELECT seq (42_widthselector.md R144): `WS_MAX` is neither read nor written. -/
def execWsSelect (seq : List Word) (s : State) : Host.Outcome State Fault Refusal :=
  .next (commit s (.ok (s, .width (width (seqMax seq).toNat))))

end Sys2Proof.Machine
end

