-- ==== Sys2Proof/Machine/Dispatch.lean ====
section
/-! DEFINITION. The meaning of each command, one arm per constructor of `Instr` (30_encoding.md R84, R85). -/

namespace Sys2Proof.Machine

def exec (i : Instr) (s : State) : Host.Outcome State Fault Refusal :=
  match i with
  | .bwReset => Sys2Proof.Machine.execBwReset s
  | .bwPush nb v => Sys2Proof.Machine.execBwPush nb v s
  | .bwFinish => Sys2Proof.Machine.execBwFinish s
  | .brLoad buf => Sys2Proof.Machine.execBrLoad buf s
  | .brExtract nb count => Sys2Proof.Machine.execBrExtract nb count s
  | .wsClear => Sys2Proof.Machine.execWsClear s
  | .wsScan v => Sys2Proof.Machine.execWsScan v s
  | .wsWidth => Sys2Proof.Machine.execWsWidth s
  | .wsSelect seq => Sys2Proof.Machine.execWsSelect seq s
  | .ccEncode version sampleRate modelName levels => Sys2Proof.Machine.execCcEncode version sampleRate modelName levels s
  | .ccDecode buf fallbackName => Sys2Proof.Machine.execCcDecode buf fallbackName s
  | .ffEncode sampleRate channelCount frames => Sys2Proof.Machine.execFfEncode sampleRate channelCount frames s
  | .ffDecode buf => Sys2Proof.Machine.execFfDecode buf s
  | .stRead => Sys2Proof.Machine.execStRead s

end Sys2Proof.Machine
end

