-- ==== Sys2Proof/Machine/Step.lean ====
section
/-! DEFINITION. One step: the block takes what the host does next from its port and executes it (10_state.md R31,
60_exceptions.md R263). -/

namespace Sys2Proof.Machine

/-- One step (00_scope.md R18, 20_memory.md R69). With nothing on the port the block is idle and its state is kept
(60_exceptions.md R259); reset is applied between commands (70_reset_and_hazards.md R271); an illegal command raises
IllegalCommand (30_encoding.md R85, R86). -/
def step (s : State) : Host.Outcome State Fault Refusal :=
  match takeInput s with
  | none => .next s
  | some (.reset, s') => .next (resetBlock s')
  | some (.command c, s') =>
    match decode c.word c.operand with
    | .ok i => exec i s'
    | .error _ => .next (illegalCommand s')

/-- The state with a table row's command put on the port before everything else the host does, so that the next step runs it
(log entry 4). -/
def State.withFetchWord (s : State) (nbits w : Nat) : State :=
  { s with inputs := .command (tableCommand nbits w) :: s.inputs }

end Sys2Proof.Machine
end

