-- ==== Sys2Proof/Machine/Pseudo.lean ====
section
/-! DEFINITION. The pseudo-instructions `pack` and `unpack` (30_encoding.md R90): what the host issues for one, and how it reads
the responses. They are no commands of the block. -/

namespace Sys2Proof.Machine

/-- The two pseudo-instructions (30_encoding.md R90). -/
inductive Pseudo where
  | pack (values : List Word) (nb : Nat)
  | unpack (buf : List Byte) (count : Word) (nb : Nat)
  deriving DecidableEq, Repr

/-- The commands a pseudo-instruction stands for, in order (30_encoding.md R90). -/
def Pseudo.expand : Pseudo → List Instr
  | .pack values nb => .bwReset :: (values.map fun v => Instr.bwPush nb v) ++ [.bwFinish]
  | .unpack buf count nb => [.brLoad buf, .brExtract nb count]

/-- What the host puts on the port to issue a list of commands, in arrival order (30_encoding.md R80). -/
def issue (program : List Instr) : List HostEvent :=
  program.map fun i => .command (encode i)

/-- The state with a list of commands put on the port as what the host does next. -/
def State.withProgram (s : State) (program : List Instr) : State :=
  { s with inputs := issue program ++ s.inputs }

/-- The status of a pseudo-instruction, from the responses of its expansion: that of the first command that did not end OK, and
OK if there is none (30_encoding.md R90). -/
def Pseudo.status (responses : List Response) : BitVec 8 :=
  match responses.find? fun r => r.status != statusOk with
  | some r => r.status
  | none => statusOk

/-- The result of a pseudo-instruction: that of the last command of its expansion (30_encoding.md R90). -/
def Pseudo.result (responses : List Response) : Payload :=
  match responses.getLast? with
  | some r => r.payload
  | none => .none

end Sys2Proof.Machine
end

