-- ==== Sys2Proof/Safety.lean ====
section
/-! DEFINITION. The terms in which claims speak: the invariants of the state (10_state.md R32, R35, R38 to R40; 20_memory.md
R61), and the state after a command that ended OK or with a status (60_exceptions.md R241, R250), in the spec's own numbers. -/

namespace Sys2Proof.Machine

/-- The BitWriter's accumulator holds `BW_CNT` bits (10_state.md R32). -/
abbrev WriterHolds (s : State) : Prop := s.bwAcc.toNat < 2 ^ s.bwCnt.toNat

/-- The BitReader's cursor lies in its buffer, and its accumulator holds the low `BR_CNT` bits of the last byte read
(10_state.md R35). -/
abbrev ReaderHolds (s : State) : Prop :=
  s.brPos ≤ s.brBuf.length ∧ s.brAcc.toNat < 2 ^ s.brCnt.toNat ∧
    (0 < s.brCnt.toNat →
      1 ≤ s.brPos ∧ s.brAcc.toNat = (s.brBuf.getD (s.brPos - 1) 0).toNat &&& mask s.brCnt.toNat)

/-- Neither buffer is longer than `P_BUF_CAP` (20_memory.md R61, 10_state.md R30). -/
abbrev BuffersFit (s : State) : Prop :=
  exceeds s.params.bufCap s.bwOut.length = false ∧ exceeds s.params.bufCap s.brBuf.length = false

/-- The status registers hold a status of the table, its field and index agree with it, and an error has set STICKY_ERR
(60_exceptions.md R240, R242, R252; 10_state.md R39, R40; 30_encoding.md R85). -/
abbrev StatusHolds (s : State) : Prop :=
  s.status.toNat ≤ 11 ∧ s.errField.toNat ≤ 21 ∧
    (s.status = 0 → s.errField = 0 ∧ s.errIndex = 0) ∧
    (s.status = 4 → s.errField = 1 ∧ s.errIndex = 0) ∧
    (s.status = 11 → s.errField = 0 ∧ s.errIndex = 0) ∧
    (s.status ≠ 0 → s.status ≠ 4 → s.stickyErr = true)

/-- The invariant of the state between commands. -/
abbrev State.Inv (s : State) : Prop :=
  WriterHolds s ∧ ReaderHolds s ∧ BuffersFit s ∧ StatusHolds s

/-- `s` with the status registers of a command that ended OK, and its response with the payload (60_exceptions.md R241, R250). -/
def endedOk (s : State) (payload : Payload) : State :=
  { s with
    status := 0
    errField := 0
    errIndex := 0
    responses := s.responses ++ [⟨0, 0, 0, s.stickyErr, payload⟩] }

/-- `s` with the status registers of a command that ended with status `code`, field `field` and index `index`, STICKY_ERR set
unless the code is 4, MagicMismatch, and its response without a payload (60_exceptions.md R241, R250, R252). -/
def endedWith (s : State) (code field : BitVec 8) (index : Nat) : State :=
  { s with
    status := code
    errField := field
    errIndex := BitVec.ofNat 32 index
    stickyErr := s.stickyErr || code != 4
    responses := s.responses ++ [⟨code, field, BitVec.ofNat 32 index, s.stickyErr || code != 4, .none⟩] }

end Sys2Proof.Machine
end

