-- ==== Sys2Proof/Certificates/Slice0/Obligations.lean ====
section
/-! DEFINITION. The statements about the block, from the numbered rules of spec/. The terms `endedOk` and `endedWith` (the state
after a command that ended OK, or with a status) and the invariants are in Sys2Proof/Safety.lean. The command port and the list
of responses are the model's carriers of R241 and R263 (log entry 3). -/

namespace Sys2Proof.Machine

/-- The bits of a sequence of values, each at width `nb`, in order (40_bitwriter.md R104). -/
def valueBits (values : List Nat) (nb : Nat) : List Bool := values.flatMap fun v => bits v nb

/-- The u32 values at width `nb` that stand from bit position `p` of a buffer's stream on (41_bitreader.md R124). -/
def streamValues (buf : List Byte) (p nb count : Nat) : List Word :=
  (List.range count).map fun k => BitVec.ofNat 32 (streamValue buf (p + k * nb) nb)

/-- `w` is the least width of at least 1 that holds every number of the list (42_widthselector.md R145). -/
abbrev LeastWidth (values : List Nat) (w : Nat) : Prop :=
  1 ≤ w ∧ (∀ v ∈ values, v < 2 ^ w) ∧ (w = 1 ∨ ∃ v ∈ values, 2 ^ (w - 1) ≤ v)

/-! ### Command words -/

/-- OPC and operand kind of each row of 30_encoding.md R84; the kinds NONE, ARG, BYTES, SEQ, CCENC, CCDEC, FFENC of R82 are
numbered 0 to 6. -/
def opcodeRows : List (Nat × Nat) :=
  [(0x01, 0), (0x02, 1), (0x03, 0), (0x10, 2), (0x11, 1), (0x20, 0), (0x21, 1), (0x22, 0), (0x23, 3), (0x30, 4),
    (0x31, 5), (0x40, 6), (0x41, 2), (0xF0, 0)]

/-- The number of an operand's kind. -/
def operandKind : Operand → Nat
  | .none => 0
  | .arg _ => 1
  | .bytes _ => 2
  | .seq _ => 3
  | .ccEnc _ _ _ _ => 4
  | .ccDec _ _ => 5
  | .ffEnc _ _ _ => 6

/-- The illegal encodings of 30_encoding.md R86, in its order. -/
abbrev Illegal (c : Command) : Prop :=
  c.word.toNat / 2 ^ 24 ∉ opcodeRows.map Prod.fst ∨
    c.word.toNat / 2 ^ 6 % 2 ^ 18 ≠ 0 ∨
    (c.word.toNat % 2 ^ 6 ≠ 0 ∧ c.word.toNat / 2 ^ 24 ≠ 0x02 ∧ c.word.toNat / 2 ^ 24 ≠ 0x11) ∨
    (c.word.toNat / 2 ^ 24, operandKind c.operand) ∉ opcodeRows

/-! ### Conditions on operands -/

/-- The value is accepted at its width: it fits, or the policy is MASK (40_bitwriter.md R102). -/
abbrev Accepted (policy : OvfPolicy) (nb : Nat) (v : Word) : Prop := v.toNat < 2 ^ nb ∨ policy = .mask

/-- Bytes BW_PUSH leaves in `BW_OUT`: the old ones and `floor((BW_CNT + nb) / 8)` new ones (40_bitwriter.md R101). -/
def pushedLength (s : State) (nb : Nat) : Nat := s.bwOut.length + (s.bwCnt.toNat + nb) / 8

/-- The stream BW_FINISH hands off: the emitted bytes and the buffered bits, padded with zero bits (40_bitwriter.md R103). -/
def finishedStream (s : State) : List Byte :=
  bytesOf (bitsOfBytes s.bwOut ++ bits s.bwAcc.toNat s.bwCnt.toNat)

/-! ### The self-describing layout -/

/-- A level as it stands in a container: its length, its bitWidth and its payload chunk (43_container_sd.md R160). -/
structure LevelRecord where
  length : Nat
  bitWidth : Nat
  chunk : List Byte
  deriving DecidableEq, Repr

/-- The fields up to the name, the name included (43_container_sd.md R160, R161). -/
def snacNamed (version : Byte) (sampleRate : Word) (name : List Byte) : List Byte :=
  [0x53, 0x4E, 0x41, 0x43] ++ [version] ++ le32 sampleRate.toNat ++ le16 name.length ++ name

/-- The fields before the metadata (43_container_sd.md R160, R161). -/
def snacHeader (version : Byte) (sampleRate : Word) (name : List Byte) (levelCount : Nat) : List Byte :=
  snacNamed version sampleRate name ++ le32 levelCount

/-- The metadata record of a level (43_container_sd.md R160, R161). -/
def snacRecord (r : LevelRecord) : List Byte := le32 r.length ++ le16 r.bitWidth ++ le32 r.chunk.length

/-- A self-describing container: header, metadata records, payload chunks (43_container_sd.md R160, R164). -/
def snacBytes (version : Byte) (sampleRate : Word) (name : List Byte) (records : List LevelRecord) : List Byte :=
  snacHeader version sampleRate name records.length ++ records.flatMap snacRecord ++ records.flatMap LevelRecord.chunk

/-- The record of a level that CC_ENCODE writes (43_container_sd.md R165, R166). -/
def encodedRecord (level : List Word) : LevelRecord :=
  ⟨level.length, levelWidth level, bytesOf (valueBits (fromWords level) (levelWidth level))⟩

/-- A record whose numbers fit its fields, whose bitWidth is legal and whose size is the one strict mode asks for
(43_container_sd.md R174, R175). -/
abbrev LegalRecord (p : Params) (r : LevelRecord) : Prop :=
  r.length < 2 ^ 32 ∧ 1 ≤ r.bitWidth ∧ r.bitWidth ≤ 32 ∧ r.chunk.length < 2 ^ 32 ∧
    (p.strictPayload = true → r.chunk.length = (r.length * r.bitWidth + 7) / 8)

/-- The level that CC_DECODE returns for a record (43_container_sd.md R177, R179). -/
def decodedLevel (r : LevelRecord) : Level :=
  ⟨BitVec.ofNat 32 r.length, r.bitWidth, streamValues r.chunk 0 r.bitWidth r.length⟩

/-- A name that fits its field and is well-formed (43_container_sd.md R165, R173). -/
abbrev LegalName (name : List Byte) : Prop := name.length < 2 ^ 16 ∧ utf8WellFormed name = true

/-! ### The framed layout -/

/-- A frame as it stands in a framed container: its shape and its packed codes (44_container_ff.md R200). -/
structure FrameRecord where
  shapeB : I32
  shapeN : I32
  shapeT : I32
  chunk : List Byte
  deriving DecidableEq, Repr

/-- The number of codes of a shape, `B * N * T` (44_container_ff.md R201). -/
def codeCount (b n t : I32) : Nat := b.toNat * n.toNat * t.toNat

/-- One frame's bytes (44_container_ff.md R200, R201). -/
def framedRecord (r : FrameRecord) : List Byte :=
  le32 r.shapeB.toNat ++ le32 r.shapeN.toNat ++ le32 r.shapeT.toNat ++ r.chunk

/-- A framed container (44_container_ff.md R200). -/
def framedBytes (sampleRate channelCount : I32) (records : List FrameRecord) : List Byte :=
  le32 sampleRate.toNat ++ le32 channelCount.toNat ++ le32 records.length ++ records.flatMap framedRecord

/-- A frame that FF_ENCODE accepts (44_container_ff.md R205). -/
abbrev LegalFrame (policy : OvfPolicy) (f : Frame) : Prop :=
  0 ≤ f.shapeB.toInt ∧ 0 ≤ f.shapeN.toInt ∧ 0 ≤ f.shapeT.toInt ∧
    (f.values.length : Int) = f.shapeB.toInt * f.shapeN.toInt * f.shapeT.toInt ∧
    ∀ v ∈ fromWords f.values, v < 2 ^ 10 ∨ policy = .mask

/-- Status code and field of the first check that a frame fails (44_container_ff.md R205, R216). -/
def frameError (f : Frame) : BitVec 8 × BitVec 8 :=
  if f.shapeB.toInt < 0 then (7, 14)
  else if f.shapeN.toInt < 0 then (7, 15)
  else if f.shapeT.toInt < 0 then (7, 16)
  else if (f.values.length : Int) ≠ f.shapeB.toInt * f.shapeN.toInt * f.shapeT.toInt then (9, 17)
  else (6, 17)

/-- The record of a frame that FF_ENCODE writes: its codes modulo 1024 (44_container_ff.md R205, R206). -/
def encodedFrame (f : Frame) : FrameRecord :=
  ⟨f.shapeB, f.shapeN, f.shapeT, bytesOf (valueBits (f.values.map fun v => v.toNat % 1024) 10)⟩

/-- A record with non-negative dimensions and the chunk size its shape declares (44_container_ff.md R201, R203). -/
abbrev LegalFrameRecord (r : FrameRecord) : Prop :=
  0 ≤ r.shapeB.toInt ∧ 0 ≤ r.shapeN.toInt ∧ 0 ≤ r.shapeT.toInt ∧
    r.chunk.length = (10 * codeCount r.shapeB r.shapeN r.shapeT + 7) / 8

/-- The frame that FF_DECODE returns for a record (44_container_ff.md R210). -/
def decodedFrame (r : FrameRecord) : Frame :=
  ⟨r.shapeB, r.shapeN, r.shapeT, streamValues r.chunk 0 10 (codeCount r.shapeB r.shapeN r.shapeT)⟩

/-! ### Whole-machine terms -/

/-- The status codes a command may end with: OK, and those whose row of 60_exceptions.md R240 names it under 'raised by'. -/
def possibleStatuses : Instr → List (BitVec 8)
  | .bwReset => [0]
  | .bwPush _ _ => [0, 3, 6, 10]
  | .bwFinish => [0, 10]
  | .brLoad _ => [0, 10]
  | .brExtract _ _ => [0, 3, 10]
  | .wsClear => [0]
  | .wsScan _ => [0]
  | .wsWidth => [0]
  | .wsSelect _ => [0]
  | .ccEncode _ _ _ _ => [0, 5, 7, 10]
  | .ccDecode _ _ => [0, 1, 2, 3, 4, 5, 8, 10]
  | .ffEncode _ _ _ => [0, 6, 7, 9, 10]
  | .ffDecode _ => [0, 1, 2, 7, 10]
  | .stRead => [0]

/-- Writer, reader and selector state agree (10_state.md R30). -/
abbrev SameStreams (s t : State) : Prop :=
  t.bwAcc = s.bwAcc ∧ t.bwCnt = s.bwCnt ∧ t.bwOut = s.bwOut ∧ t.brBuf = s.brBuf ∧ t.brPos = s.brPos ∧
    t.brAcc = s.brAcc ∧ t.brCnt = s.brCnt ∧ t.wsMax = s.wsMax

/-- The four container commands. -/
def isContainerCommand : Instr → Bool
  | .ccEncode _ _ _ _ => true
  | .ccDecode _ _ => true
  | .ffEncode _ _ _ => true
  | .ffDecode _ => true
  | _ => false

/-- A byte lies in a range. -/
abbrev InRange (b : Byte) (lo hi : Nat) : Prop := lo ≤ b.toNat ∧ b.toNat ≤ hi

/-- One character of the table of well-formed UTF-8, row by row (00_scope.md R17). -/
def Utf8Character : List Byte → Prop
  | [a] => InRange a 0x00 0x7F
  | [a, b] => InRange a 0xC2 0xDF ∧ InRange b 0x80 0xBF
  | [a, b, c] =>
    InRange c 0x80 0xBF ∧
      ((InRange a 0xE0 0xE0 ∧ InRange b 0xA0 0xBF) ∨ (InRange a 0xE1 0xEC ∧ InRange b 0x80 0xBF) ∨
        (InRange a 0xED 0xED ∧ InRange b 0x80 0x9F) ∨ (InRange a 0xEE 0xEF ∧ InRange b 0x80 0xBF))
  | [a, b, c, d] =>
    InRange c 0x80 0xBF ∧ InRange d 0x80 0xBF ∧
      ((InRange a 0xF0 0xF0 ∧ InRange b 0x90 0xBF) ∨ (InRange a 0xF1 0xF3 ∧ InRange b 0x80 0xBF) ∨
        (InRange a 0xF4 0xF4 ∧ InRange b 0x80 0x8F))
  | _ => False

end Sys2Proof.Machine

open Sys2Proof Sys2Proof.Machine

/-! ### Decoding and the step -/

/-- Six command words of 30_encoding.md R84, written out, decode to their commands (95_test_vectors.md, 2.1 and section 3). -/
def Obligations.SampleCommandWordsDecode : Prop :=
  decode 0x02000003 (.arg 5) = .ok (.bwPush 3 5) ∧
    decode 0x11000010 (.arg 1) = .ok (.brExtract 16 1) ∧
    decode 0x21000000 (.arg 9) = .ok (.wsScan 9) ∧
    decode 0x31000000 (.ccDec [0x53] []) = .ok (.ccDecode [0x53] []) ∧
    decode 0x41000000 (.bytes [0xC0]) = .ok (.ffDecode [0xC0]) ∧
    decode 0xF0000000 .none = .ok .stRead

/-- Decoding the word and operand of any well-formed command gives that command (30_encoding.md R80, R82, R84, R85). -/
def Obligations.EncodedCommandDecodesToItself : Prop :=
  ∀ i : Instr, i.wellFormed = true → decode (encode i).word (encode i).operand = .ok i

/-- A word and operand that decode are the encoding of what they decode to: each legal word has one meaning
(30_encoding.md R84, R85). -/
def Obligations.DecodedCommandEncodesBack : Prop :=
  ∀ (w : Word) (op : Operand) (i : Instr), decode w op = .ok i → i.wellFormed = true ∧ encode i = ⟨w, op⟩

/-- An illegal command raises IllegalCommand(NONE, 0) and changes only the status registers; every other command decodes
(30_encoding.md R85, R86). -/
def Obligations.IllegalCommandRaisesIllegalCommand : Prop :=
  ∀ (s : State) (c : Command) (rest : List HostEvent), s.inputs = .command c :: rest →
    (Illegal c → step s = .next (endedWith { s with inputs := rest } 11 0 0)) ∧
      (¬Illegal c → ∃ i, decode c.word c.operand = .ok i)

/-- When the command on the port decodes, the step is its meaning, run on the state with the command taken from the port. The
port as a list in the state is the model's choice (log entry 3). -/
def Obligations.StepRunsDecodedCommand : Prop :=
  ∀ (s : State) (c : Command) (rest : List HostEvent) (i : Instr), s.inputs = .command c :: rest →
    decode c.word c.operand = .ok i → step s = exec i { s with inputs := rest }

/-- With nothing on the port the state is kept (60_exceptions.md R259). That an idle block takes a step that changes nothing is
the model's choice (log entry 3). -/
def Obligations.IdleStepKeepsState : Prop :=
  ∀ s : State, s.inputs = [] → step s = .next s

/-- Reset sets every element of the state to its reset value and keeps the parameters (70_reset_and_hazards.md R270). That the
responses and the rest of the port stay is the model's choice (log entry 3) and is not stated. -/
def Obligations.ResetSetsEveryElement : Prop :=
  ∀ (s : State) (rest : List HostEvent), s.inputs = .reset :: rest →
    ∃ t, step s = .next t ∧ t.bwAcc = 0 ∧ t.bwCnt = 0 ∧ t.bwOut = [] ∧ t.brBuf = [] ∧ t.brPos = 0 ∧ t.brAcc = 0 ∧
      t.brCnt = 0 ∧ t.wsMax = 0 ∧ t.status = 0 ∧ t.errField = 0 ∧ t.errIndex = 0 ∧ t.stickyErr = false ∧
      t.params = s.params

/-- The state after reset meets the invariant, under every setting of the parameters (10_state.md R30, R32, R35). The
setting of `State.reset` itself is the model's choice (log entry 2). -/
def Obligations.ResetStateMeetsInvariant : Prop :=
  ∀ p : Params, (State.resetWith p).Inv ∧ State.reset.Inv

/-- Every step keeps the invariant of the writer, the reader, the buffers and the status registers (10_state.md R32, R35, R40;
20_memory.md R61; 60_exceptions.md R242). -/
def Obligations.EveryStepKeepsInvariant : Prop :=
  ∀ s t : State, s.Inv → step s = .next t → t.Inv

/-- No step stops: every command, legal or not, ends with one of the status codes 0 to 11, and after any status the block
accepts the next one (60_exceptions.md R240, R251; 70_reset_and_hazards.md R279, R280). The port as a list is the model's choice
(log entry 3). -/
def Obligations.EveryCommandEndsWithStatus : Prop :=
  ∀ s : State, ∃ t, step s = .next t ∧ t.inputs = s.inputs.tail ∧
    ∀ c : Command, s.inputs.head? = some (.command c) → t.status.toNat ≤ 11

/-! ### Responses, errors and what commands may write -/

/-- Every command on the port gives one response, which is the record of the status registers after the command, with a
payload only if the status is OK (60_exceptions.md R241). The list of responses is the model's choice (log entry 3). -/
def Obligations.EveryCommandGivesOneResponse : Prop :=
  ∀ (s t : State) (c : Command) (rest : List HostEvent), s.inputs = .command c :: rest → step s = .next t →
    ∃ payload, t.responses = s.responses ++ [⟨t.status, t.errField, t.errIndex, t.stickyErr, payload⟩] ∧
      (t.status ≠ 0 → payload = .none)

/-- The commit rule: after a command that ends OK the status registers are 0 and STICKY_ERR is as it was; after any other,
nothing but the status registers has changed, and STICKY_ERR is set unless the status is MagicMismatch
(60_exceptions.md R250, R252). -/
def Obligations.FailingCommandChangesOnlyStatus : Prop :=
  ∀ (i : Instr) (s t : State), exec i s = .next t →
    (t.status = 0 → t.errField = 0 ∧ t.errIndex = 0 ∧ t.stickyErr = s.stickyErr) ∧
      (t.status ≠ 0 → SameStreams s t ∧ t.stickyErr = (s.stickyErr || t.status != 4))

/-- Each status arises only from the commands that its row of the status table names (60_exceptions.md R240). -/
def Obligations.StatusArisesOnlyFromItsCommands : Prop :=
  ∀ (i : Instr) (s t : State), exec i s = .next t → t.status ∈ possibleStatuses i

/-- A container command leaves writer, reader and selector as they are, whatever its status (10_state.md R41,
70_reset_and_hazards.md R277). -/
def Obligations.ContainerCommandsLeaveStreams : Prop :=
  ∀ (i : Instr) (s t : State), isContainerCommand i = true → exec i s = .next t → SameStreams s t

/-- Which commands write which part of the state: only BW_RESET, BW_PUSH and BW_FINISH the writer, BW_PUSH by appending; only
BR_LOAD the reader's buffer; only BR_LOAD and BR_EXTRACT the cursor; only WS_CLEAR and WS_SCAN the maximum (10_state.md R33,
R34, R37). -/
def Obligations.EachCommandWritesOnlyItsUnit : Prop :=
  ∀ (i : Instr) (s t : State), exec i s = .next t →
    (i ≠ .bwReset → i ≠ .bwFinish → (∀ nb v, i ≠ .bwPush nb v) →
      t.bwAcc = s.bwAcc ∧ t.bwCnt = s.bwCnt ∧ t.bwOut = s.bwOut) ∧
    (∀ nb v, i = .bwPush nb v → s.bwOut <+: t.bwOut) ∧
    ((∀ buf, i ≠ .brLoad buf) → t.brBuf = s.brBuf) ∧
    ((∀ buf, i ≠ .brLoad buf) → (∀ nb count, i ≠ .brExtract nb count) →
      t.brPos = s.brPos ∧ t.brAcc = s.brAcc ∧ t.brCnt = s.brCnt) ∧
    (i ≠ .wsClear → (∀ v, i ≠ .wsScan v) → t.wsMax = s.wsMax)

/-- No step changes a parameter, and only reset clears STICKY_ERR (10_state.md R40, R45). The parameters as a field
of the state, and reset as an event of the port, are the model's choices (log entries 1 and 3). -/
def Obligations.ParametersAndStickyErrorStay : Prop :=
  ∀ s t : State, step s = .next t →
    t.params = s.params ∧ (s.inputs.head? ≠ some .reset → s.stickyErr = true → t.stickyErr = true)

/-! ### The BitWriter -/

/-- BW_RESET decodes from its word; it empties the writer and changes nothing else (40_bitwriter.md R100). -/
def Obligations.BwResetEmptiesWriter : Prop :=
  decode 0x01000000 .none = .ok .bwReset ∧
    ∀ s : State, exec .bwReset s = .next (endedOk { s with bwAcc := 0, bwCnt := 0, bwOut := [] } .none)

/-- BW_PUSH of an accepted value at a legal width completes: it appends the value's `nb` bits, most significant first, to the
stream of emitted and buffered bits, whole bytes going to `BW_OUT`, and changes nothing else (40_bitwriter.md R101, R106). -/
def Obligations.BwPushAppendsValueBits : Prop :=
  ∀ (s : State) (nb : Nat) (v : Word), WriterHolds s → 1 ≤ nb → nb ≤ 32 → Accepted s.params.ovfPolicy nb v →
    exceeds s.params.bufCap (pushedLength s nb) = false →
    ∃ t, exec (.bwPush nb v) s = .next t ∧
      t = endedOk { s with bwAcc := t.bwAcc, bwCnt := t.bwCnt, bwOut := t.bwOut } .none ∧
      bitsOfBytes t.bwOut ++ bits t.bwAcc.toNat t.bwCnt.toNat =
        bitsOfBytes s.bwOut ++ bits s.bwAcc.toNat s.bwCnt.toNat ++ bits (v.toNat % 2 ^ nb) nb ∧
      t.bwOut.length = pushedLength s nb ∧ t.bwCnt.toNat = (s.bwCnt.toNat + nb) % 8 ∧ WriterHolds t

/-- The errors of BW_PUSH in their order: the width, then the value under REJECT, then the capacity (40_bitwriter.md R101). -/
def Obligations.BwPushErrorsInOrder : Prop :=
  ∀ (s : State) (nb : Nat) (v : Word),
    (nb < 1 ∨ 32 < nb → exec (.bwPush nb v) s = .next (endedWith s 3 18 0)) ∧
    (1 ≤ nb → nb ≤ 32 → ¬Accepted s.params.ovfPolicy nb v → exec (.bwPush nb v) s = .next (endedWith s 6 19 0)) ∧
    (1 ≤ nb → nb ≤ 32 → Accepted s.params.ovfPolicy nb v → exceeds s.params.bufCap (pushedLength s nb) = true →
      exec (.bwPush nb v) s = .next (endedWith s 10 20 0))

/-- BW_FINISH decodes from its word; it hands off the zero-padded stream and empties the writer, or raises CapacityExceeded
and leaves it (40_bitwriter.md R103). -/
def Obligations.BwFinishHandsOffPaddedStream : Prop :=
  decode 0x03000000 .none = .ok .bwFinish ∧
  ∀ s : State, WriterHolds s →
    (exceeds s.params.bufCap (finishedStream s).length = false →
      exec .bwFinish s =
        .next (endedOk { s with bwAcc := 0, bwCnt := 0, bwOut := [] } (.bytes (finishedStream s)))) ∧
    (exceeds s.params.bufCap (finishedStream s).length = true → exec .bwFinish s = .next (endedWith s 10 20 0))

/-- `pack` in closed form: the values' bits in order, zero-padded to bytes (40_bitwriter.md R104). -/
def Obligations.PackIsPaddedValueBits : Prop :=
  ∀ (values : List Nat) (nb : Nat), 1 ≤ nb → nb ≤ 32 → (∀ v ∈ values, v < 2 ^ nb) →
    pack values nb = bytesOf (valueBits values nb)

/-- The length law: `N` values at width `nb` take `ceil(N * nb / 8)` bytes (40_bitwriter.md R105). -/
def Obligations.PackedLengthIsCeilingOfBits : Prop :=
  ∀ (values : List Nat) (nb : Nat), 1 ≤ nb → nb ≤ 32 → (∀ v ∈ values, v < 2 ^ nb) →
    (pack values nb).length = (values.length * nb + 7) / 8

/-- A program of pushes of mixed widths, run on the machine: the stream grows by the bits of the accepted values, in order, and
a push that ends in an error leaves no trace in it (40_bitwriter.md R106, 70_reset_and_hazards.md R278). A program is a list of
commands on the port (log entry 3). -/
def Obligations.MixedWidthPushesGrowOneStream : Prop :=
  ∀ (s : State) (pushes : List (Nat × Word)), WriterHolds s → s.params.bufCap = none → (∀ p ∈ pushes, p.1 < 64) →
    ∃ t, Host.Core.run Sys2Proof.core pushes.length (s.withProgram (pushes.map fun p => .bwPush p.1 p.2)) = .next t ∧
      t.inputs = s.inputs ∧
      bitsOfBytes t.bwOut ++ bits t.bwAcc.toNat t.bwCnt.toNat =
        bitsOfBytes s.bwOut ++ bits s.bwAcc.toNat s.bwCnt.toNat ++
          (pushes.filter fun p => decide (1 ≤ p.1 ∧ p.1 ≤ 32 ∧ Accepted s.params.ovfPolicy p.1 p.2)).flatMap
            fun p => bits (p.2.toNat % 2 ^ p.1) p.1

/-! ### The BitReader -/

/-- BR_LOAD decodes from its word; it copies the buffer in and restarts the cursor, or raises CapacityExceeded and leaves
the reader (41_bitreader.md R120). -/
def Obligations.BrLoadAttachesBuffer : Prop :=
  ∀ (s : State) (buf : List Byte),
    decode 0x10000000 (.bytes buf) = .ok (.brLoad buf) ∧
    (exceeds s.params.bufCap buf.length = false →
      exec (.brLoad buf) s = .next (endedOk { s with brBuf := buf, brPos := 0, brAcc := 0, brCnt := 0 } .none)) ∧
    (exceeds s.params.bufCap buf.length = true → exec (.brLoad buf) s = .next (endedWith s 10 20 0))

/-- BR_EXTRACT in closed form: it completes with the `count` values that stand at width `nb` from the cursor's bit position on
in the zero-extended stream, moves the cursor past them but not past the end, and changes nothing else
(41_bitreader.md R122, R124). -/
def Obligations.BrExtractReadsStreamValues : Prop :=
  ∀ (s : State) (nb : Nat) (count : Word), ReaderHolds s → 1 ≤ nb → nb ≤ 32 →
    exceeds s.params.seqCap count.toNat = false →
    ∃ t, exec (.brExtract nb count) s = .next t ∧
      t = endedOk { s with brPos := t.brPos, brAcc := t.brAcc, brCnt := t.brCnt }
        (.values (streamValues s.brBuf s.brBitPos nb count.toNat)) ∧
      t.brBitPos = min (s.brBitPos + count.toNat * nb) (8 * s.brBuf.length) ∧
      t.brPos = (t.brBitPos + 7) / 8 ∧ t.brCnt.toNat = 8 * t.brPos - t.brBitPos ∧ ReaderHolds t

/-- The errors of BR_EXTRACT in their order: the width, then the count (41_bitreader.md R122). -/
def Obligations.BrExtractErrorsInOrder : Prop :=
  ∀ (s : State) (nb : Nat) (count : Word),
    (nb < 1 ∨ 32 < nb → exec (.brExtract nb count) s = .next (endedWith s 3 18 0)) ∧
    (1 ≤ nb → nb ≤ 32 → exceeds s.params.seqCap count.toNat = true →
      exec (.brExtract nb count) s = .next (endedWith s 10 21 0))

/-- On an exhausted reader every value is 0, no error arises and the reader stays as it is (41_bitreader.md R127). -/
def Obligations.ExhaustedReaderReturnsZeros : Prop :=
  ∀ (s : State) (nb : Nat) (count : Word), ReaderHolds s → s.brPos = s.brBuf.length → s.brCnt = 0 → 1 ≤ nb →
    nb ≤ 32 → exceeds s.params.seqCap count.toNat = false →
    exec (.brExtract nb count) s = .next (endedOk s (.values (List.replicate count.toNat 0)))

/-- The round trip: unpacking a packed sequence at its width gives the sequence (41_bitreader.md R128). -/
def Obligations.UnpackInvertsPack : Prop :=
  ∀ (values : List Nat) (nb : Nat), 1 ≤ nb → nb ≤ 32 → (∀ v ∈ values, v < 2 ^ nb) →
    unpack (pack values nb) values.length nb = values

/-- A packed stream cut to `m` bytes: values whose bits are all present decode exactly, the one that straddles the cut gets its
missing low bits as zeros, and values past the cut are 0 (41_bitreader.md R129). -/
def Obligations.CutStreamDecodesWithZeroFill : Prop :=
  ∀ (values : List Nat) (nb m k v : Nat), 1 ≤ nb → nb ≤ 32 → (∀ v ∈ values, v < 2 ^ nb) →
    m ≤ (pack values nb).length → values[k]? = some v →
    ((k + 1) * nb ≤ 8 * m → (unpack ((pack values nb).take m) values.length nb)[k]? = some v) ∧
    (k * nb < 8 * m → 8 * m < (k + 1) * nb →
      (unpack ((pack values nb).take m) values.length nb)[k]? =
        some (v / 2 ^ ((k + 1) * nb - 8 * m) * 2 ^ ((k + 1) * nb - 8 * m))) ∧
    (8 * m ≤ k * nb → (unpack ((pack values nb).take m) values.length nb)[k]? = some 0)

/-! ### The WidthSelector -/

/-- WS_CLEAR decodes from its word; it restarts the scanner and changes nothing else, and a WS_WIDTH after it responds with the
width 1 of the empty sequence (42_widthselector.md R140). -/
def Obligations.WsClearRestartsScanner : Prop :=
  decode 0x20000000 .none = .ok .wsClear ∧
    ∀ s : State, exec .wsClear s = .next (endedOk { s with wsMax := 0 } .none) ∧
      exec .wsWidth (endedOk { s with wsMax := 0 } .none) =
        .next (endedOk (endedOk { s with wsMax := 0 } .none) (.width 1))

/-- WS_SCAN decodes from its word; it raises the maximum to a larger value and changes nothing else (42_widthselector.md R142). -/
def Obligations.WsScanKeepsMaximum : Prop :=
  ∀ (s : State) (v : Word), decode 0x21000000 (.arg v) = .ok (.wsScan v) ∧
    exec (.wsScan v) s =
      .next (endedOk { s with wsMax := BitVec.ofNat 32 (max s.wsMax.toNat v.toNat) } .none)

/-- WS_WIDTH decodes from its word; it responds with the least width of at least 1 that holds `WS_MAX`, which is at most 32,
and changes nothing else (42_widthselector.md R141, R143). -/
def Obligations.WsWidthReportsLeastWidth : Prop :=
  decode 0x22000000 .none = .ok .wsWidth ∧
    ∀ s : State, ∃ w, exec .wsWidth s = .next (endedOk s (.width w)) ∧ LeastWidth [s.wsMax.toNat] w ∧ w ≤ 32

/-- WS_SELECT decodes from its word; it responds with the least width of at least 1 that holds every value of the
sequence, which is at most 32, and changes nothing else, `WS_MAX` included (42_widthselector.md R144, R145). -/
def Obligations.WsSelectReportsLeastWidth : Prop :=
  ∀ (s : State) (seq : List Word), decode 0x23000000 (.seq seq) = .ok (.wsSelect seq) ∧
    ∃ w, exec (.wsSelect seq) s = .next (endedOk s (.width w)) ∧ LeastWidth (fromWords seq) w ∧ w ≤ 32

/-- Minimality: the width of the maximum is the least that holds every value, and packing at it round-trips
(42_widthselector.md R145). -/
def Obligations.SelectedWidthIsLeastAndRoundTrips : Prop :=
  ∀ seq : List Word,
    LeastWidth (fromWords seq) (width (seqMax seq).toNat) ∧
      unpack (pack (fromWords seq) (width (seqMax seq).toNat)) seq.length (width (seqMax seq).toNat) = fromWords seq

/-- The scanner agrees with the function: clear, one scan for each value, then width, run on the machine, end with the width of
the maximum, which is the response of WS_SELECT (42_widthselector.md R147). The port and the responses as lists are the model's
choice (log entry 3). -/
def Obligations.ScannerAgreesWithSelect : Prop :=
  ∀ (s : State) (seq : List Word),
    ∃ t u, Host.Core.run Sys2Proof.core (seq.length + 2)
        (s.withProgram (.wsClear :: seq.map Instr.wsScan ++ [.wsWidth])) = .next t ∧
      exec (.wsSelect seq) s = .next u ∧
      t.responses.getLast?.map Response.payload = some (.width (width (seqMax seq).toNat)) ∧
      u.responses.getLast?.map Response.payload = some (.width (width (seqMax seq).toNat))

/-! ### The self-describing container -/

/-- CC_ENCODE completes on operands that fit their fields: it responds with the container that holds each level at its selected
width, and changes nothing else (43_container_sd.md R160, R165, R166). -/
def Obligations.CcEncodeWritesLayout : Prop :=
  ∀ (s : State) (version : Byte) (sampleRate : Word) (name : List Byte) (levels : List (List Word)),
    LegalName name → levels.length < 2 ^ 32 →
    (∀ l ∈ levels, l.length < 2 ^ 32 ∧ (encodedRecord l).chunk.length < 2 ^ 32) →
    exceeds s.params.bufCap (snacBytes version sampleRate name (levels.map encodedRecord)).length = false →
    exec (.ccEncode version sampleRate name levels) s =
      .next (endedOk s (.bytes (snacBytes version sampleRate name (levels.map encodedRecord))))

/-- The errors of CC_ENCODE in their order: the name's length, its text, the level count, the first level whose length or whose
payload does not fit its field, the capacity (43_container_sd.md R165). -/
def Obligations.CcEncodeErrorsInOrder : Prop :=
  ∀ (s : State) (version : Byte) (sampleRate : Word) (name : List Byte) (levels : List (List Word)),
    (2 ^ 16 ≤ name.length → exec (.ccEncode version sampleRate name levels) s = .next (endedWith s 7 4 0)) ∧
    (name.length < 2 ^ 16 → utf8WellFormed name = false →
      exec (.ccEncode version sampleRate name levels) s = .next (endedWith s 5 5 0)) ∧
    (LegalName name → 2 ^ 32 ≤ levels.length →
      exec (.ccEncode version sampleRate name levels) s = .next (endedWith s 7 6 0)) ∧
    (∀ (good : List (List Word)) (bad : List Word) (rest : List (List Word)), levels = good ++ bad :: rest →
      LegalName name → levels.length < 2 ^ 32 →
      (∀ l ∈ good, l.length < 2 ^ 32 ∧ (encodedRecord l).chunk.length < 2 ^ 32) →
      (2 ^ 32 ≤ bad.length →
        exec (.ccEncode version sampleRate name levels) s = .next (endedWith s 7 7 good.length)) ∧
      (bad.length < 2 ^ 32 → 2 ^ 32 ≤ (encodedRecord bad).chunk.length →
        exec (.ccEncode version sampleRate name levels) s = .next (endedWith s 7 9 good.length))) ∧
    (LegalName name → levels.length < 2 ^ 32 →
      (∀ l ∈ levels, l.length < 2 ^ 32 ∧ (encodedRecord l).chunk.length < 2 ^ 32) →
      exceeds s.params.bufCap (snacBytes version sampleRate name (levels.map encodedRecord)).length = true →
      exec (.ccEncode version sampleRate name levels) s = .next (endedWith s 10 20 0))

/-- CC_DECODE completes on every container of the layout whose records are legal, whatever follows it: it responds with the
fields, the name or the fallback, each level's values read from its own chunk, and the container's length, and changes nothing
else (43_container_sd.md R160, R163, R170, R173, R177, R178, R179). -/
def Obligations.CcDecodeReadsLayout : Prop :=
  ∀ (s : State) (version : Byte) (sampleRate : Word) (name : List Byte) (records : List LevelRecord)
    (trailing fallback : List Byte), LegalName name → records.length < 2 ^ 32 →
    (∀ r ∈ records, LegalRecord s.params r ∧ exceeds s.params.seqCap r.length = false) →
    exceeds s.params.bufCap (snacBytes version sampleRate name records ++ trailing).length = false →
    exec (.ccDecode (snacBytes version sampleRate name records ++ trailing) fallback) s =
      .next (endedOk s (.container
        { version := version
          sampleRate := sampleRate
          name := if name = [] then fallback else name
          fromFallback := decide (name = [])
          levels := records.map decodedLevel
          consumed := (snacBytes version sampleRate name records).length }))

/-- A buffer that does not start with the tag, or is shorter, gives MagicMismatch(MAGIC, 0), without a result and without
setting STICKY_ERR; only the capacity is checked before it (43_container_sd.md R170, R171; 60_exceptions.md R252). -/
def Obligations.CcDecodeRejectsOtherTags : Prop :=
  ∀ (s : State) (buf fallback : List Byte),
    (exceeds s.params.bufCap buf.length = true → exec (.ccDecode buf fallback) s = .next (endedWith s 10 20 0)) ∧
    (exceeds s.params.bufCap buf.length = false → buf.length < 4 ∨ buf.take 4 ≠ [0x53, 0x4E, 0x41, 0x43] →
      exec (.ccDecode buf fallback) s = .next (endedWith s 4 1 0) ∧
        (endedWith s 4 1 0).stickyErr = s.stickyErr)

/-- A buffer that starts with the tag and is too short for a field before the metadata raises TruncatedHeader with that field:
the version, the sample rate, the name's length, the name, and after a well-formed (or empty) name the level count
(43_container_sd.md R170, R172). -/
def Obligations.CcDecodeNamesShortHeaderField : Prop :=
  ∀ (s : State) (buf fallback : List Byte), exceeds s.params.bufCap buf.length = false →
    buf.take 4 = [0x53, 0x4E, 0x41, 0x43] →
    (buf.length < 5 → exec (.ccDecode buf fallback) s = .next (endedWith s 1 2 0)) ∧
    (5 ≤ buf.length → buf.length < 9 → exec (.ccDecode buf fallback) s = .next (endedWith s 1 3 0)) ∧
    (9 ≤ buf.length → buf.length < 11 → exec (.ccDecode buf fallback) s = .next (endedWith s 1 4 0)) ∧
    (11 ≤ buf.length → rdle (slice buf 9 2) ≠ 0 → buf.length < 11 + rdle (slice buf 9 2) →
      exec (.ccDecode buf fallback) s = .next (endedWith s 1 5 0)) ∧
    (11 + rdle (slice buf 9 2) ≤ buf.length →
      utf8WellFormed (slice buf 11 (rdle (slice buf 9 2))) = true → buf.length < 15 + rdle (slice buf 9 2) →
      exec (.ccDecode buf fallback) s = .next (endedWith s 1 6 0))

/-- A buffer too short for a field of a metadata record, after legal records, raises TruncatedHeader with that field and the
level's index: the length, the bitWidth, and after a legal bitWidth the payloadSize (43_container_sd.md R170, R172, R174). -/
def Obligations.CcDecodeNamesShortMetadataField : Prop :=
  ∀ (s : State) (version : Byte) (sampleRate : Word) (name : List Byte) (good : List LevelRecord) (levelCount : Nat)
    (rest fallback buf : List Byte),
    LegalName name → levelCount < 2 ^ 32 → good.length < levelCount → (∀ r ∈ good, LegalRecord s.params r) →
    buf = snacHeader version sampleRate name levelCount ++ good.flatMap snacRecord ++ rest →
    exceeds s.params.bufCap buf.length = false →
    (rest.length < 4 → exec (.ccDecode buf fallback) s = .next (endedWith s 1 7 good.length)) ∧
    (4 ≤ rest.length → rest.length < 6 → exec (.ccDecode buf fallback) s = .next (endedWith s 1 8 good.length)) ∧
    (6 ≤ rest.length → rest.length < 10 → 1 ≤ rdle (slice rest 4 2) → rdle (slice rest 4 2) ≤ 32 →
      exec (.ccDecode buf fallback) s = .next (endedWith s 1 9 good.length))

/-- A stored name that is not UTF-8 raises InvalidEncoding, whatever follows it. After legal records, a bitWidth outside 1..32
raises UnsupportedBitWidth with its level's index before payloadSize is read, even where the buffer ends, and under strict mode a
payloadSize other than `ceil(length * bitWidth / 8)` raises PayloadSizeMismatch with it (43_container_sd.md R173, R174, R175). -/
def Obligations.CcDecodeRejectsBadMetadata : Prop :=
  ∀ (s : State) (version : Byte) (sampleRate : Word) (name rest fallback : List Byte), name.length < 2 ^ 16 →
    (utf8WellFormed name = false →
      exceeds s.params.bufCap (snacNamed version sampleRate name ++ rest).length = false →
      exec (.ccDecode (snacNamed version sampleRate name ++ rest) fallback) s = .next (endedWith s 5 5 0)) ∧
    (∀ (good : List LevelRecord) (levelCount length bitWidth : Nat) (buf : List Byte), utf8WellFormed name = true →
      levelCount < 2 ^ 32 → good.length < levelCount → (∀ r ∈ good, LegalRecord s.params r) →
      length < 2 ^ 32 → bitWidth < 2 ^ 16 →
      buf = snacHeader version sampleRate name levelCount ++ good.flatMap snacRecord ++
        (le32 length ++ le16 bitWidth ++ rest) →
      exceeds s.params.bufCap buf.length = false →
      (bitWidth < 1 ∨ 32 < bitWidth →
        exec (.ccDecode buf fallback) s = .next (endedWith s 3 8 good.length)) ∧
      (1 ≤ bitWidth → bitWidth ≤ 32 → s.params.strictPayload = true → 4 ≤ rest.length →
        rdle (slice rest 0 4) ≠ (length * bitWidth + 7) / 8 →
        exec (.ccDecode buf fallback) s = .next (endedWith s 8 9 good.length)))

/-- The payload errors of CC_DECODE in their order: after legal metadata and the payloads of `good`, a next level whose declared
payload is longer than what remains raises TruncatedPayload with its index, and one whose payload is there but whose length is
above `P_SEQ_CAP` raises CapacityExceeded(COUNT) with it. The chunk of `bad` and those of `more` stand only for their declared
sizes: what follows the payloads of `good` is `rest` (43_container_sd.md R170, R176, R180). -/
def Obligations.CcDecodePayloadErrorsInOrder : Prop :=
  ∀ (s : State) (version : Byte) (sampleRate : Word) (name : List Byte) (good : List LevelRecord) (bad : LevelRecord)
    (more records : List LevelRecord) (rest fallback buf : List Byte),
    LegalName name → records = good ++ bad :: more → records.length < 2 ^ 32 →
    (∀ r ∈ records, LegalRecord s.params r) → (∀ r ∈ good, exceeds s.params.seqCap r.length = false) →
    buf = snacHeader version sampleRate name records.length ++ records.flatMap snacRecord ++
      good.flatMap LevelRecord.chunk ++ rest →
    exceeds s.params.bufCap buf.length = false →
    (rest.length < bad.chunk.length → exec (.ccDecode buf fallback) s = .next (endedWith s 2 10 good.length)) ∧
    (bad.chunk.length ≤ rest.length → exceeds s.params.seqCap bad.length = true →
      exec (.ccDecode buf fallback) s = .next (endedWith s 10 21 good.length))

/-- The container round trip: what CC_ENCODE writes, CC_DECODE reads back on any instance that can hold it, strict or not, with
every field and value as it was given (43_container_sd.md R181). -/
def Obligations.ContainerRoundTrip : Prop :=
  ∀ (s d : State) (version : Byte) (sampleRate : Word) (name : List Byte) (levels : List (List Word))
    (out fallback : List Byte),
    exec (.ccEncode version sampleRate name levels) s = .next (endedOk s (.bytes out)) →
    exceeds d.params.bufCap out.length = false → (∀ l ∈ levels, exceeds d.params.seqCap l.length = false) →
    exec (.ccDecode out fallback) d =
      .next (endedOk d (.container
        { version := version
          sampleRate := sampleRate
          name := if name = [] then fallback else name
          fromFallback := decide (name = [])
          levels := levels.map fun l => ⟨BitVec.ofNat 32 l.length, width (seqMax l).toNat, l⟩
          consumed := out.length }))

/-- Idempotence: encoding the decoded levels of a container that CC_ENCODE wrote gives the same bytes, with a non-empty name or
an empty fallback (43_container_sd.md R182). -/
def Obligations.ReencodingGivesSameBytes : Prop :=
  ∀ (s : State) (version : Byte) (sampleRate : Word) (name : List Byte) (levels : List (List Word))
    (out fallback : List Byte) (c : Container),
    exec (.ccEncode version sampleRate name levels) s = .next (endedOk s (.bytes out)) →
    exec (.ccDecode out fallback) s = .next (endedOk s (.container c)) → name ≠ [] ∨ fallback = [] →
    exec (.ccEncode c.version c.sampleRate c.name (c.levels.map Level.values)) s = .next (endedOk s (.bytes out))

/-- Truncation is fatal: a container that CC_ENCODE wrote, cut after byte 3 or later, raises TruncatedHeader or
TruncatedPayload, and with one byte of the last level's payload missing, TruncatedPayload with that level's index. The premise
on `P_SEQ_CAP` is the model's reading: a longer level before the cut raises CapacityExceeded first (log entry 8,
43_container_sd.md R183, R180). -/
def Obligations.CutContainerIsTruncated : Prop :=
  ∀ (s : State) (version : Byte) (sampleRate : Word) (name : List Byte) (levels : List (List Word))
    (out fallback : List Byte),
    exec (.ccEncode version sampleRate name levels) s = .next (endedOk s (.bytes out)) →
    (∀ l ∈ levels, exceeds s.params.seqCap l.length = false) →
    (∀ n, 4 ≤ n → n < out.length →
      ∃ (code field : BitVec 8) (index : Nat), (code = 1 ∨ code = 2) ∧
        exec (.ccDecode (out.take n) fallback) s = .next (endedWith s code field index)) ∧
    (∀ last, levels.getLast? = some last → last ≠ [] →
      exec (.ccDecode out.dropLast fallback) s = .next (endedWith s 2 10 (levels.length - 1)))

/-! ### The framed container -/

/-- FF_ENCODE completes on legal frames: it responds with the framed container of their shapes and of their codes at 10 bits,
and changes nothing else (44_container_ff.md R200, R205, R206). -/
def Obligations.FfEncodeWritesLayout : Prop :=
  ∀ (s : State) (sampleRate channelCount : I32) (frames : List Frame), frames.length < 2 ^ 31 →
    (∀ f ∈ frames, LegalFrame s.params.ovfPolicy f) →
    exceeds s.params.bufCap (framedBytes sampleRate channelCount (frames.map encodedFrame)).length = false →
    exec (.ffEncode sampleRate channelCount frames) s =
      .next (endedOk s (.bytes (framedBytes sampleRate channelCount (frames.map encodedFrame))))

/-- The errors of FF_ENCODE in their order: the frame count, the first frame that fails a check with its index, the capacity
(44_container_ff.md R205, R216). -/
def Obligations.FfEncodeErrorsInOrder : Prop :=
  ∀ (s : State) (sampleRate channelCount : I32) (frames : List Frame),
    (2 ^ 31 ≤ frames.length → exec (.ffEncode sampleRate channelCount frames) s = .next (endedWith s 7 13 0)) ∧
    (∀ (good : List Frame) (bad : Frame) (rest : List Frame), frames = good ++ bad :: rest → frames.length < 2 ^ 31 →
      (∀ f ∈ good, LegalFrame s.params.ovfPolicy f) → ¬LegalFrame s.params.ovfPolicy bad →
      exec (.ffEncode sampleRate channelCount frames) s =
        .next (endedWith s (frameError bad).1 (frameError bad).2 good.length)) ∧
    (frames.length < 2 ^ 31 → (∀ f ∈ frames, LegalFrame s.params.ovfPolicy f) →
      exceeds s.params.bufCap (framedBytes sampleRate channelCount (frames.map encodedFrame)).length = true →
      exec (.ffEncode sampleRate channelCount frames) s = .next (endedWith s 10 20 0))

/-- FF_DECODE completes on every framed container of the layout, whatever follows it: it responds with the fields, each frame's
codes and the container's length, and changes nothing else (44_container_ff.md R200, R210, R212, R214). -/
def Obligations.FfDecodeReadsLayout : Prop :=
  ∀ (s : State) (sampleRate channelCount : I32) (records : List FrameRecord) (trailing : List Byte),
    records.length < 2 ^ 31 →
    (∀ r ∈ records, LegalFrameRecord r ∧
      exceeds s.params.seqCap (codeCount r.shapeB r.shapeN r.shapeT) = false) →
    exceeds s.params.bufCap (framedBytes sampleRate channelCount records ++ trailing).length = false →
    exec (.ffDecode (framedBytes sampleRate channelCount records ++ trailing)) s =
      .next (endedOk s (.framed
        { sampleRate := sampleRate
          channelCount := channelCount
          frames := records.map decodedFrame
          consumed := (framedBytes sampleRate channelCount records).length }))

/-- The header errors of FF_DECODE in their order: the capacity, each short field, and a negative frame count
(44_container_ff.md R210, R211). -/
def Obligations.FfDecodeHeaderErrorsInOrder : Prop :=
  ∀ (s : State) (buf : List Byte),
    (exceeds s.params.bufCap buf.length = true → exec (.ffDecode buf) s = .next (endedWith s 10 20 0)) ∧
    (exceeds s.params.bufCap buf.length = false →
      (buf.length < 4 → exec (.ffDecode buf) s = .next (endedWith s 1 11 0)) ∧
      (4 ≤ buf.length → buf.length < 8 → exec (.ffDecode buf) s = .next (endedWith s 1 12 0)) ∧
      (8 ≤ buf.length → buf.length < 12 → exec (.ffDecode buf) s = .next (endedWith s 1 13 0)) ∧
      (12 ≤ buf.length → 2 ^ 31 ≤ rdle (slice buf 8 4) → exec (.ffDecode buf) s = .next (endedWith s 7 13 0)))

/-- The errors of FF_DECODE in the first bad frame, after good ones, in their order and with its index: each dimension in turn,
too short and then negative; then codes that are cut short; then more codes than `P_SEQ_CAP`
(44_container_ff.md R210, R211, R216). -/
def Obligations.FfDecodeFrameErrorsInOrder : Prop :=
  ∀ (s : State) (sampleRate channelCount : I32) (frameCount : Nat) (good : List FrameRecord) (rest buf : List Byte)
    (b n t : Nat),
    frameCount < 2 ^ 31 → good.length < frameCount →
    (∀ r ∈ good, LegalFrameRecord r ∧
      exceeds s.params.seqCap (codeCount r.shapeB r.shapeN r.shapeT) = false) →
    buf = le32 sampleRate.toNat ++ le32 channelCount.toNat ++ le32 frameCount ++ good.flatMap framedRecord ++ rest →
    exceeds s.params.bufCap buf.length = false →
    b = rdle (slice rest 0 4) → n = rdle (slice rest 4 4) → t = rdle (slice rest 8 4) →
    (rest.length < 4 → exec (.ffDecode buf) s = .next (endedWith s 1 14 good.length)) ∧
    (4 ≤ rest.length → 2 ^ 31 ≤ b → exec (.ffDecode buf) s = .next (endedWith s 7 14 good.length)) ∧
    (4 ≤ rest.length → b < 2 ^ 31 →
      (rest.length < 8 → exec (.ffDecode buf) s = .next (endedWith s 1 15 good.length)) ∧
      (8 ≤ rest.length → 2 ^ 31 ≤ n → exec (.ffDecode buf) s = .next (endedWith s 7 15 good.length)) ∧
      (8 ≤ rest.length → n < 2 ^ 31 →
        (rest.length < 12 → exec (.ffDecode buf) s = .next (endedWith s 1 16 good.length)) ∧
        (12 ≤ rest.length → 2 ^ 31 ≤ t → exec (.ffDecode buf) s = .next (endedWith s 7 16 good.length)) ∧
        (12 ≤ rest.length → t < 2 ^ 31 →
          (rest.length < 12 + (10 * (b * n * t) + 7) / 8 →
            exec (.ffDecode buf) s = .next (endedWith s 2 17 good.length)) ∧
          (12 + (10 * (b * n * t) + 7) / 8 ≤ rest.length → exceeds s.params.seqCap (b * n * t) = true →
            exec (.ffDecode buf) s = .next (endedWith s 10 21 good.length)))))

/-- Any buffer of 12 or more bytes whose third i32 is 0 decodes OK as a container with no frames (44_container_ff.md R213). -/
def Obligations.FfDecodeAcceptsAnyZeroFrameCount : Prop :=
  ∀ (s : State) (buf : List Byte), exceeds s.params.bufCap buf.length = false → 12 ≤ buf.length →
    slice buf 8 4 = [0, 0, 0, 0] →
    exec (.ffDecode buf) s =
      .next (endedOk s (.framed
        ⟨BitVec.ofNat 32 (rdle (slice buf 0 4)), BitVec.ofNat 32 (rdle (slice buf 4 4)), [], 12⟩))

/-- The framed round trip: what FF_ENCODE writes, FF_DECODE reads back, each code modulo 1024, which under REJECT is the code
itself; and cut to any shorter length it raises TruncatedHeader or TruncatedPayload (44_container_ff.md R215). -/
def Obligations.FramedRoundTripAndTruncation : Prop :=
  ∀ (s : State) (sampleRate channelCount : I32) (frames : List Frame) (out : List Byte),
    exec (.ffEncode sampleRate channelCount frames) s = .next (endedOk s (.bytes out)) →
    (∀ f ∈ frames, exceeds s.params.seqCap (codeCount f.shapeB f.shapeN f.shapeT) = false) →
    exec (.ffDecode out) s =
        .next (endedOk s (.framed
          { sampleRate := sampleRate
            channelCount := channelCount
            frames := frames.map fun f => ⟨f.shapeB, f.shapeN, f.shapeT, f.values.map (· % 1024)⟩
            consumed := out.length })) ∧
      (s.params.ovfPolicy = .reject → ∀ f ∈ frames, f.values.map (· % 1024) = f.values) ∧
      (∀ n, n < out.length →
        ∃ (code field : BitVec 8) (index : Nat), (code = 1 ∨ code = 2) ∧
          exec (.ffDecode (out.take n)) s = .next (endedWith s code field index))

/-! ### The system command, text and pseudo-instructions -/

/-- ST_READ decodes from its word; it responds with the state as it was before the command, the buffers by their lengths,
and sets only the three status registers to OK (45_system.md R230, R231). -/
def Obligations.StReadReturnsSnapshot : Prop :=
  decode 0xF0000000 .none = .ok .stRead ∧
  ∀ s : State,
    exec .stRead s =
      .next (endedOk s (.snapshot
        { status := s.status
          errField := s.errField
          errIndex := s.errIndex
          stickyErr := s.stickyErr
          bwAcc := s.bwAcc
          bwCnt := s.bwCnt
          bwOutLen := s.bwOut.length
          brPos := s.brPos
          brAcc := s.brAcc
          brCnt := s.brCnt
          brBufLen := s.brBuf.length
          wsMax := s.wsMax }))

/-- A byte sequence is well-formed UTF-8 when it splits into characters of the table, with no bytes left over
(00_scope.md R17). -/
def Obligations.Utf8CheckMatchesTable : Prop :=
  ∀ s : List Byte,
    utf8WellFormed s = true ↔ ∃ chars : List (List Byte), s = chars.flatten ∧ ∀ c ∈ chars, Utf8Character c

/-- The little-endian fields are read back as they were written, an i32 with its sign (00_scope.md R11, R13;
20_memory.md R62). -/
def Obligations.LittleEndianFieldsReadBack : Prop :=
  (∀ x, x < 2 ^ 16 → rdle (le16 x) = x) ∧ (∀ x, x < 2 ^ 32 → rdle (le32 x) = x) ∧
    (∀ y : Int, -2 ^ 31 ≤ y → y < 2 ^ 31 →
      (BitVec.ofNat 32 (rdle (le32 (y % 2 ^ 32).toNat))).toInt = y)

/-- The pseudo-instruction `pack`, run on the machine from any state, ends OK with the packed bytes and leaves an empty writer
(30_encoding.md R90, 40_bitwriter.md R104; log entries 3 and 12). -/
def Obligations.PackProgramReturnsPackedBytes : Prop :=
  ∀ (s : State) (values : List Word) (nb : Nat), 1 ≤ nb → nb ≤ 32 → (∀ v ∈ fromWords values, v < 2 ^ nb) →
    exceeds s.params.bufCap ((values.length * nb + 7) / 8) = false →
    ∃ t, Host.Core.run Sys2Proof.core (values.length + 2) (s.withProgram (Pseudo.pack values nb).expand) = .next t ∧
      Pseudo.status (t.responses.drop s.responses.length) = 0 ∧
      Pseudo.result (t.responses.drop s.responses.length) = .bytes (bytesOf (valueBits (fromWords values) nb)) ∧
      t.bwAcc = 0 ∧ t.bwCnt = 0 ∧ t.bwOut = []

/-- The pseudo-instruction `unpack`, run on the machine from any state, ends OK with the values of the buffer's stream
(30_encoding.md R90, 41_bitreader.md R125; log entries 3 and 12). -/
def Obligations.UnpackProgramReturnsStreamValues : Prop :=
  ∀ (s : State) (buf : List Byte) (count : Word) (nb : Nat), 1 ≤ nb → nb ≤ 32 →
    exceeds s.params.bufCap buf.length = false → exceeds s.params.seqCap count.toNat = false →
    ∃ t, Host.Core.run Sys2Proof.core 2 (s.withProgram (Pseudo.unpack buf count nb).expand) = .next t ∧
      Pseudo.status (t.responses.drop s.responses.length) = 0 ∧
      Pseudo.result (t.responses.drop s.responses.length) = .values (streamValues buf 0 nb count.toNat)
end

