-- ==== Sys2Proof/Laws/Bits.lean ====
section
/-! SUPPORT. The bit notation: bit sequences, their numbers, and the padding of a sequence to bytes. -/

namespace Sys2Proof.Machine

theorem land_mask (x n : Nat) : x &&& mask n = x % 2 ^ n := by
  simp [mask, Nat.and_two_pow_sub_one_eq_mod]

theorem ceildiv8_eq (x : Nat) : ceildiv8 x = (x + 7) / 8 := by
  simp [ceildiv8, Nat.shiftRight_eq_div_pow]

theorem bitlen_le_iff (m w : Nat) : bitlen m ≤ w ↔ m < 2 ^ w := by
  cases m with
  | zero => simp [bitlen]
  | succ m => simp only [bitlen]; rw [Nat.succ_le_iff, Nat.log2_lt (by omega)]

@[simp] theorem bits_length (v n : Nat) : (bits v n).length = n := by
  induction n with
  | zero => rfl
  | succ n ih => simp [bits, ih]

theorem bits_getElem? (v n k : Nat) (h : k < n) : (bits v n)[k]? = some (v.testBit (n - 1 - k)) := by
  induction n generalizing k with
  | zero => omega
  | succ n ih =>
    cases k with
    | zero => simp [bits]
    | succ k => simp only [bits, List.getElem?_cons_succ]; rw [ih k (by omega)]; congr 2; omega

theorem bits_congr (v w n : Nat) (h : ∀ i < n, v.testBit i = w.testBit i) : bits v n = bits w n := by
  induction n with
  | zero => rfl
  | succ n ih => simp only [bits]; rw [h n (by omega), ih fun i hi => h i (by omega)]

theorem bits_mod (v n : Nat) : bits (v % 2 ^ n) n = bits v n :=
  bits_congr _ _ _ fun i hi => by simp [Nat.testBit_mod_two_pow, hi]

theorem bits_add (v m n : Nat) : bits v (m + n) = bits (v >>> n) m ++ bits v n := by
  induction m with
  | zero => simp [bits]
  | succ m ih =>
    rw [show m + 1 + n = (m + n) + 1 by omega]
    simp only [bits, ih, List.cons_append]
    congr 1
    simp [Nat.testBit_shiftRight, Nat.add_comm]

theorem bits_join (a b m n : Nat) (h : b < 2 ^ n) : bits ((a <<< n) ||| b) (m + n) = bits a m ++ bits b n := by
  rw [bits_add]
  congr 1
  · congr 1
    rw [Nat.shiftRight_or_distrib, Nat.shiftLeft_shiftRight, Nat.shiftRight_eq_div_pow b, Nat.div_eq_of_lt h, Nat.or_zero]
  · refine bits_congr _ _ _ fun i hi => ?_
    simp [Nat.testBit_shiftLeft, hi]

theorem natOfBits_append_single (s : List Bool) (b : Bool) : natOfBits (s ++ [b]) = 2 * natOfBits s + b.toNat := by
  simp [natOfBits, List.foldl_append]

theorem natOfBits_append (s t : List Bool) : natOfBits (s ++ t) = natOfBits s * 2 ^ t.length + natOfBits t := by
  induction t using List.reverseRecOn with
  | nil => simp [natOfBits]
  | append_singleton t b ih =>
    rw [← List.append_assoc, natOfBits_append_single, natOfBits_append_single, ih]
    simp [pow_succ]; ring

theorem natOfBits_lt (s : List Bool) : natOfBits s < 2 ^ s.length := by
  induction s using List.reverseRecOn with
  | nil => simp [natOfBits]
  | append_singleton t b ih =>
    rw [natOfBits_append_single, List.length_append, List.length_singleton, pow_succ]
    have := Bool.toNat_le b
    omega

theorem natOfBits_bits_mod (v n : Nat) : natOfBits (bits v n) = v % 2 ^ n := by
  induction n with
  | zero => simp [bits, natOfBits, Nat.mod_one]
  | succ n ih =>
    have h : bits v (n + 1) = [v.testBit n] ++ bits v n := rfl
    rw [h, natOfBits_append, ih, bits_length, Nat.mod_pow_succ, ← Nat.toNat_testBit]
    simp [natOfBits]; ring

theorem bits_natOfBits (s : List Bool) : bits (natOfBits s) s.length = s := by
  induction s using List.reverseRecOn with
  | nil => rfl
  | append_singleton t b ih =>
    rw [natOfBits_append_single, List.length_append, List.length_singleton, bits_add]
    rw [Nat.shiftRight_eq_div_pow, show (2 * natOfBits t + b.toNat) / 2 ^ 1 = natOfBits t by
      have := Bool.toNat_le b; omega, ih]
    cases b <;> simp [bits]

theorem streamBit_eq (buf : List Byte) (k : Nat) : streamBit buf k = (bitsOfBytes buf).getD k false := by
  induction buf generalizing k with
  | nil => simp [streamBit, bitsOfBytes]
  | cons b buf ih =>
    have hcons : bitsOfBytes (b :: buf) = bits b.toNat 8 ++ bitsOfBytes buf := by simp [bitsOfBytes]
    rw [hcons]
    by_cases hk : k < 8
    · rw [List.getD_append _ _ _ _ (by simpa using hk)]
      have h1 : k / 8 = 0 := by omega
      have h2 : k % 8 = k := by omega
      simp [streamBit, h1, h2, List.getD, bits_getElem? _ _ _ hk]
    · rw [List.getD_append_right _ _ _ _ (by simpa using Nat.le_of_not_lt hk), bits_length, ← ih]
      obtain ⟨j, rfl⟩ : ∃ j, k = j + 8 := ⟨k - 8, by omega⟩
      simp [streamBit]

@[simp] theorem bitsOfBytes_nil : bitsOfBytes [] = [] := rfl

@[simp] theorem bitsOfBytes_cons (b : Byte) (buf : List Byte) :
    bitsOfBytes (b :: buf) = bits b.toNat 8 ++ bitsOfBytes buf := by simp [bitsOfBytes]

@[simp] theorem bitsOfBytes_append (a b : List Byte) : bitsOfBytes (a ++ b) = bitsOfBytes a ++ bitsOfBytes b := by
  simp [bitsOfBytes]

@[simp] theorem bitsOfBytes_length (buf : List Byte) : (bitsOfBytes buf).length = 8 * buf.length := by
  induction buf with
  | nil => rfl
  | cons b buf ih => simp [ih]; omega

theorem natOfBits_lt_of_length (s : List Bool) (n : Nat) (h : s.length = n) : natOfBits s < 2 ^ n := h ▸ natOfBits_lt s

theorem bitsOfBytes_groupBytes (k : Nat) (s : List Bool) (h : s.length = 8 * k) : bitsOfBytes (groupBytes k s) = s := by
  induction k generalizing s with
  | zero => simp [groupBytes, List.length_eq_zero_iff.mp (by omega : s.length = 0)]
  | succ k ih =>
    have h8 : (s.take 8).length = 8 := by simp; omega
    rw [groupBytes, bitsOfBytes_cons, ih _ (by simp; omega), BitVec.toNat_ofNat,
      Nat.mod_eq_of_lt (natOfBits_lt_of_length _ 8 h8)]
    have hb := bits_natOfBits (s.take 8)
    rw [h8] at hb
    rw [hb]
    exact List.take_append_drop 8 s

theorem padBits_length (s : List Bool) : (padBits s).length = 8 * ceildiv8 s.length := by
  simp [padBits, ceildiv8_eq]; omega

theorem groupBytes_length (k : Nat) (s : List Bool) : (groupBytes k s).length = k := by
  induction k generalizing s with
  | zero => rfl
  | succ k ih => simp [groupBytes, ih]

theorem bytesOf_length (s : List Bool) : (bytesOf s).length = (s.length + 7) / 8 := by
  rw [bytesOf, groupBytes_length, ceildiv8_eq]

theorem bitsOfBytes_bytesOf (s : List Bool) : bitsOfBytes (bytesOf s) = padBits s :=
  bitsOfBytes_groupBytes _ _ (padBits_length s)

theorem groupBytes_append (m n : Nat) (s t : List Bool) (h : s.length = 8 * m) :
    groupBytes (m + n) (s ++ t) = groupBytes m s ++ groupBytes n t := by
  induction m generalizing s with
  | zero => simp [groupBytes, List.length_eq_zero_iff.mp (by omega : s.length = 0)]
  | succ m ih =>
    rw [show m + 1 + n = (m + n) + 1 by omega, groupBytes, groupBytes, List.take_append_of_le_length (by omega),
      List.drop_append_of_le_length (by omega), ih _ (by simp; omega), List.cons_append]

theorem groupBytes_bitsOfBytes (buf : List Byte) : groupBytes buf.length (bitsOfBytes buf) = buf := by
  induction buf with
  | nil => rfl
  | cons b buf ih =>
    rw [bitsOfBytes_cons, List.length_cons, Nat.add_comm, groupBytes_append 1 _ _ _ (by simp), ih]
    have h : natOfBits (bits b.toNat 8) = b.toNat := by
      rw [natOfBits_bits_mod]; exact Nat.mod_eq_of_lt b.isLt
    simp [groupBytes, List.take_of_length_le, h]

theorem bytesOf_bitsOfBytes_append (buf : List Byte) (s : List Bool) :
    bytesOf (bitsOfBytes buf ++ s) = buf ++ bytesOf s := by
  have hc : ceildiv8 (bitsOfBytes buf ++ s).length = buf.length + ceildiv8 s.length := by
    simp [ceildiv8_eq]; omega
  have hp : padBits (bitsOfBytes buf ++ s) = bitsOfBytes buf ++ padBits s := by
    rw [padBits, hc, padBits, List.append_assoc]
    congr 3
    simp; omega
  rw [bytesOf, hc, hp, groupBytes_append _ _ _ _ (by simp), groupBytes_bitsOfBytes, bytesOf]

theorem bytesOf_inj_bits (buf : List Byte) : bytesOf (bitsOfBytes buf) = buf := by
  simpa [bytesOf, groupBytes, ceildiv8] using bytesOf_bitsOfBytes_append buf []

end Sys2Proof.Machine
end

