-- ==== Sys2Proof/Laws/Fields.lean ====
section
/-! SUPPORT. What the shared checks and field reads of the commands do, each said once. -/

namespace Sys2Proof.Machine

@[simp] theorem le16_length (x : Nat) : (le16 x).length = 2 := rfl
@[simp] theorem le32_length (x : Nat) : (le32 x).length = 4 := rfl

theorem rdle_le16 (x : Nat) (h : x < 2 ^ 16) : rdle (le16 x) = x := by
  simp [rdle, le16, Nat.shiftRight_eq_div_pow]; omega

theorem rdle_le32 (x : Nat) (h : x < 2 ^ 32) : rdle (le32 x) = x := by
  simp [rdle, le32, Nat.shiftRight_eq_div_pow]; omega

/-- A little-endian number is below its range (00_scope.md R13). -/
theorem rdle_lt (l : List Byte) : rdle l < 2 ^ (8 * l.length) := by
  induction l with
  | nil => simp [rdle]
  | cons b l ih =>
    have := b.isLt
    simp only [rdle, List.length_cons]
    rw [show 8 * (l.length + 1) = 8 * l.length + 8 by ring, pow_add]
    omega

theorem rdle_slice_lt (l : List Byte) (k : Nat) : rdle (slice l k 4) < 2 ^ 32 :=
  lt_of_lt_of_le (rdle_lt _) (Nat.pow_le_pow_right (by omega) (by simp [slice]; omega))

/-- The sign of a u32 number read as an i32 (00_scope.md R11). -/
theorem ofNat_toInt_neg_iff (x : Nat) (hx : x < 2 ^ 32) : (BitVec.ofNat 32 x).toInt < 0 ↔ 2 ^ 31 ≤ x := by
  rw [BitVec.toInt_eq_toNat_cond, BitVec.toNat_ofNat, Nat.mod_eq_of_lt hx]; split <;> omega

theorem slice_append (a b c : List Byte) (p n : Nat) (hp : p = a.length) (hn : n = b.length) :
    slice (a ++ (b ++ c)) p n = b := by
  subst hp hn; simp [slice]

@[simp] theorem check_false (r : Raise) : check false r = .ok () := rfl
@[simp] theorem check_true (r : Raise) : check true r = .error r := rfl
theorem check_ok_iff (b : Bool) (r : Raise) : check b r = .ok () ↔ b = false := by cases b <;> simp [check]
theorem check_error_iff (b : Bool) (r e : Raise) : check b r = .error e ↔ b = true ∧ e = r := by
  cases b <;> simp [check, eq_comm]

@[simp] theorem except_ok_bind {α β : Type} (a : α) (f : α → Except Raise β) : ((.ok a : Except Raise α) >>= f) = f a := rfl
@[simp] theorem except_error_bind {α β : Type} (e : Raise) (f : α → Except Raise β) :
    ((.error e : Except Raise α) >>= f) = .error e := rfl
@[simp] theorem except_pure {α : Type} (a : α) : (pure a : Except Raise α) = .ok a := rfl
theorem except_bind_ok_iff {α β : Type} (x : Except Raise α) (f : α → Except Raise β) (b : β) :
    (x >>= f) = .ok b ↔ ∃ a, x = .ok a ∧ f a = .ok b := by
  cases x with
  | ok a => simp
  | error e => simp
theorem except_bind_error_iff {α β : Type} (x : Except Raise α) (f : α → Except Raise β) (e : Raise) :
    (x >>= f) = .error e ↔ x = .error e ∨ ∃ a, x = .ok a ∧ f a = .error e := by
  cases x with
  | ok a => simp
  | error e => simp

theorem readField_ok (a b c : List Byte) (p n : Nat) (f : FieldId) (i : Nat) (hp : p = a.length) (hn : n = b.length) :
    readField (a ++ (b ++ c)) p n f i = .ok (rdle b) := by
  have h : ¬(a ++ (b ++ c)).length < p + n := by simp [hp, hn]
  simp only [readField, need, h, decide_false, check_false, except_ok_bind, slice_append a b c p n hp hn, except_pure]

theorem readField_short (buf : List Byte) (p n : Nat) (f : FieldId) (i : Nat) (h : buf.length < p + n) :
    readField buf p n f i = .error ⟨.truncatedHeader, f, i⟩ := by
  simp [readField, need, h]

theorem readField_cases (buf : List Byte) (p n : Nat) (f : FieldId) (i : Nat) :
    (buf.length < p + n ∧ readField buf p n f i = .error ⟨.truncatedHeader, f, i⟩) ∨
      (p + n ≤ buf.length ∧ readField buf p n f i = .ok (rdle (slice buf p n))) := by
  by_cases h : buf.length < p + n
  · exact .inl ⟨h, readField_short buf p n f i h⟩
  · exact .inr ⟨by omega, by simp [readField, need, h]⟩

/-- What stands behind a prefix is read at its position in the rest. -/
theorem slice_after (a rest : List Byte) (p k n : Nat) (hp : p = a.length + k) :
    slice (a ++ rest) p n = slice rest k n := by
  subst hp; simp [slice]

/-- A field that lies in the rest of a buffer. -/
theorem readField_after (a rest : List Byte) (p k n : Nat) (f : FieldId) (i : Nat) (hp : p = a.length + k)
    (h : k + n ≤ rest.length) : readField (a ++ rest) p n f i = .ok (rdle (slice rest k n)) := by
  rcases readField_cases (a ++ rest) p n f i with ⟨h1, _⟩ | ⟨_, h2⟩
  · rw [List.length_append] at h1; omega
  · rw [h2, slice_after a rest p k n hp]

/-- A field that the rest of a buffer is too short for. -/
theorem readField_after_short (a rest : List Byte) (p k n : Nat) (f : FieldId) (i : Nat) (hp : p = a.length + k)
    (h : rest.length < k + n) : readField (a ++ rest) p n f i = .error ⟨.truncatedHeader, f, i⟩ :=
  readField_short _ _ _ _ _ (by rw [List.length_append]; omega)

theorem checkWidth_ok_iff (nb : Nat) : checkWidth nb = .ok () ↔ 1 ≤ nb ∧ nb ≤ 32 := by
  rw [checkWidth, check_ok_iff]
  change (decide (nb < 1) || decide (32 < nb)) = false ↔ _
  simp only [Bool.or_eq_false_iff, decide_eq_false_iff_not]
  omega

theorem checkWidth_bad (nb : Nat) (h : nb < 1 ∨ 32 < nb) : checkWidth nb = .error ⟨.unsupportedBitWidth, .nb, 0⟩ := by
  rw [checkWidth, check_error_iff]
  refine ⟨?_, rfl⟩
  change (decide (nb < 1) || decide (32 < nb)) = true
  simpa using h

theorem fitValue_cases (policy : OvfPolicy) (nb v : Nat) (f : FieldId) (i : Nat) :
    (v < 2 ^ nb ∧ fitValue policy nb v f i = .ok v) ∨
      (2 ^ nb ≤ v ∧ policy = .mask ∧ fitValue policy nb v f i = .ok (v % 2 ^ nb)) ∨
      (2 ^ nb ≤ v ∧ policy = .reject ∧ fitValue policy nb v f i = .error ⟨.valueOutOfRange, f, i⟩) := by
  by_cases h : 2 ^ nb ≤ v
  · cases policy with
    | mask => exact .inr (.inl ⟨h, rfl, by simp [fitValue, h, land_mask]⟩)
    | reject => exact .inr (.inr ⟨h, rfl, by simp [fitValue, h]⟩)
  · exact .inl ⟨by omega, by simp [fitValue, h]⟩

theorem fitValue_accepted (policy : OvfPolicy) (nb v : Nat) (f : FieldId) (i : Nat) (h : v < 2 ^ nb ∨ policy = .mask) :
    fitValue policy nb v f i = .ok (v % 2 ^ nb) := by
  rcases fitValue_cases policy nb v f i with ⟨h1, h2⟩ | ⟨_, _, h2⟩ | ⟨h1, h2, _⟩
  · rw [h2, Nat.mod_eq_of_lt h1]
  · exact h2
  · rcases h with h | h
    · omega
    · rw [h2] at h; cases h

end Sys2Proof.Machine
end

