-- ==== Sys2Proof/Laws/Containers.lean ====
section
/-! SUPPORT. The container codecs: which statuses they raise, and what they read where a legal record stands. -/

namespace Sys2Proof.Machine

/-! ### Which statuses the container codecs raise -/

/-- Whatever a computation raises satisfies `P`. -/
def RaisesOnly {α : Type} (P : Raise → Prop) (x : Except Raise α) : Prop := ∀ e, x = .error e → P e

theorem raisesOnly_ok {α : Type} (P : Raise → Prop) (a : α) : RaisesOnly P (.ok a : Except Raise α) := by
  intro e h; cases h

theorem raisesOnly_bind {α β : Type} {P : Raise → Prop} {x : Except Raise α} {f : α → Except Raise β}
    (hx : RaisesOnly P x) (hf : ∀ a, RaisesOnly P (f a)) : RaisesOnly P (x >>= f) := by
  intro e h
  rcases (except_bind_error_iff x f e).mp h with h | ⟨a, _, h⟩
  · exact hx e h
  · exact hf a e h

theorem raisesOnly_check {P : Raise → Prop} (b : Bool) (r : Raise) (h : P r) : RaisesOnly P (check b r) := by
  intro e he
  rw [((check_error_iff b r e).mp he).2]; exact h

theorem raisesOnly_readField {P : Raise → Prop} (buf : List Byte) (p n : Nat) (f : FieldId) (i : Nat)
    (h : P ⟨.truncatedHeader, f, i⟩) : RaisesOnly P (readField buf p n f i) :=
  raisesOnly_bind (raisesOnly_check _ _ h) fun _ => raisesOnly_ok P _

/-- The raised kinds in a list. -/
def KindIn (ks : List RaiseKind) (e : Raise) : Prop := e.kind ∈ ks

theorem encodeLevels_raises (levels : List (List Word)) (i : Nat) :
    RaisesOnly (KindIn [.fieldOutOfRange]) (encodeLevels levels i) := by
  induction levels generalizing i with
  | nil => exact raisesOnly_ok _ _
  | cons level levels ih =>
    exact raisesOnly_bind (raisesOnly_check _ _ (by simp [KindIn])) fun _ =>
      raisesOnly_bind (raisesOnly_check _ _ (by simp [KindIn])) fun _ =>
        raisesOnly_bind (ih _) fun _ => raisesOnly_ok _ _

theorem RaisesOnly.mono {α : Type} {P Q : Raise → Prop} {x : Except Raise α} (h : RaisesOnly P x)
    (hpq : ∀ e, P e → Q e) : RaisesOnly Q x := fun e he => hpq e (h e he)

/-- What CC_ENCODE can raise (60_exceptions.md R240). -/
theorem encodeContainer_raises (bufCap : Option Nat) (version : Byte) (sampleRate : Word) (modelName : List Byte)
    (levels : List (List Word)) :
    RaisesOnly (KindIn [.fieldOutOfRange, .invalidEncoding, .capacityExceeded])
      (encodeContainer bufCap version sampleRate modelName levels) :=
  raisesOnly_bind (raisesOnly_check _ _ (by simp [KindIn])) fun _ =>
    raisesOnly_bind (raisesOnly_check _ _ (by simp [KindIn])) fun _ =>
      raisesOnly_bind (raisesOnly_check _ _ (by simp [KindIn])) fun _ =>
        raisesOnly_bind ((encodeLevels_raises levels 0).mono fun e h => by simp_all [KindIn]) fun _ =>
          raisesOnly_bind (raisesOnly_check _ _ (by simp [KindIn])) fun _ => raisesOnly_ok _ _

/-- What CC_DECODE can raise: MagicMismatch only as MagicMismatch(MAGIC, 0) (60_exceptions.md R240, R252). -/
def DecodeRaise (e : Raise) : Prop :=
  e = ⟨.magicMismatch, .magic, 0⟩ ∨ e.kind ∈ [RaiseKind.truncatedHeader, .truncatedPayload, .unsupportedBitWidth,
    .invalidEncoding, .payloadSizeMismatch, .capacityExceeded]

theorem readMeta_raises (strict : Bool) (buf : List Byte) (i p : Nat) : RaisesOnly DecodeRaise (readMeta strict buf i p) :=
  raisesOnly_bind (raisesOnly_readField _ _ _ _ _ (by simp [DecodeRaise])) fun _ =>
    raisesOnly_bind (raisesOnly_readField _ _ _ _ _ (by simp [DecodeRaise])) fun _ =>
      raisesOnly_bind (raisesOnly_check _ _ (by simp [DecodeRaise])) fun _ =>
        raisesOnly_bind (raisesOnly_readField _ _ _ _ _ (by simp [DecodeRaise])) fun _ =>
          raisesOnly_bind (raisesOnly_check _ _ (by simp [DecodeRaise])) fun _ => raisesOnly_ok _ _

theorem readMetas_raises (strict : Bool) (buf : List Byte) (k i p : Nat) :
    RaisesOnly DecodeRaise (readMetas strict buf k i p) := by
  induction k generalizing i p with
  | zero => exact raisesOnly_ok _ _
  | succ k ih =>
    exact raisesOnly_bind (readMeta_raises strict buf i p) fun _ =>
      raisesOnly_bind (ih _ _) fun _ => raisesOnly_ok _ _

theorem readPayloads_raises (seqCap : Option Nat) (buf : List Byte) (metas : List LevelMeta) (i p : Nat) :
    RaisesOnly DecodeRaise (readPayloads seqCap buf metas i p) := by
  induction metas generalizing i p with
  | nil => exact raisesOnly_ok _ _
  | cons m metas ih =>
    exact raisesOnly_bind (raisesOnly_check _ _ (by simp [DecodeRaise])) fun _ =>
      raisesOnly_bind (raisesOnly_check _ _ (by simp [DecodeRaise])) fun _ =>
        raisesOnly_bind (ih _ _) fun _ => raisesOnly_ok _ _

theorem readName_raises (buf fallbackName : List Byte) (len : Nat) :
    RaisesOnly DecodeRaise (readName buf fallbackName len) := by
  unfold readName
  split
  · exact raisesOnly_ok _ _
  · exact raisesOnly_bind (raisesOnly_check _ _ (by simp [DecodeRaise])) fun _ =>
      raisesOnly_bind (raisesOnly_check _ _ (by simp [DecodeRaise])) fun _ => raisesOnly_ok _ _

theorem decodeContainer_raises (p : Params) (buf fallbackName : List Byte) :
    RaisesOnly DecodeRaise (decodeContainer p buf fallbackName) :=
  raisesOnly_bind (raisesOnly_check _ _ (by simp [DecodeRaise])) fun _ =>
    raisesOnly_bind (raisesOnly_check _ _ (.inl rfl)) fun _ =>
      raisesOnly_bind (raisesOnly_readField _ _ _ _ _ (by simp [DecodeRaise])) fun _ =>
        raisesOnly_bind (raisesOnly_readField _ _ _ _ _ (by simp [DecodeRaise])) fun _ =>
          raisesOnly_bind (raisesOnly_readField _ _ _ _ _ (by simp [DecodeRaise])) fun _ =>
            raisesOnly_bind (readName_raises _ _ _) fun _ =>
              raisesOnly_bind (raisesOnly_readField _ _ _ _ _ (by simp [DecodeRaise])) fun _ =>
                raisesOnly_bind (readMetas_raises _ _ _ _ _) fun _ =>
                  raisesOnly_bind (readPayloads_raises _ _ _ _ _) fun _ => raisesOnly_ok _ _

theorem fitValue_raises (policy : OvfPolicy) (nb v : Nat) (f : FieldId) (i : Nat) :
    RaisesOnly (KindIn [.valueOutOfRange]) (fitValue policy nb v f i) := by
  intro e h
  rcases fitValue_cases policy nb v f i with ⟨_, g⟩ | ⟨_, _, g⟩ | ⟨_, _, g⟩ <;> rw [g] at h <;> cases h
  simp [KindIn]

theorem fitCodes_raises (policy : OvfPolicy) (i : Nat) (values : List Word) :
    RaisesOnly (KindIn [.valueOutOfRange]) (fitCodes policy i values) := by
  induction values with
  | nil => exact raisesOnly_ok _ _
  | cons v values ih =>
    exact raisesOnly_bind (fitValue_raises _ _ _ _ _) fun _ => raisesOnly_bind ih fun _ => raisesOnly_ok _ _

theorem encodeFrame_raises (policy : OvfPolicy) (i : Nat) (f : Frame) :
    RaisesOnly (KindIn [.valueOutOfRange, .fieldOutOfRange, .shapeMismatch]) (encodeFrame policy i f) :=
  raisesOnly_bind (raisesOnly_check _ _ (by simp [KindIn])) fun _ =>
    raisesOnly_bind (raisesOnly_check _ _ (by simp [KindIn])) fun _ =>
      raisesOnly_bind (raisesOnly_check _ _ (by simp [KindIn])) fun _ =>
        raisesOnly_bind (raisesOnly_check _ _ (by simp [KindIn])) fun _ =>
          raisesOnly_bind ((fitCodes_raises policy i f.values).mono fun e h => by simp_all [KindIn]) fun _ =>
            raisesOnly_ok _ _

theorem encodeFrames_raises (policy : OvfPolicy) (frames : List Frame) (i : Nat) :
    RaisesOnly (KindIn [.valueOutOfRange, .fieldOutOfRange, .shapeMismatch]) (encodeFrames policy frames i) := by
  induction frames generalizing i with
  | nil => exact raisesOnly_ok _ _
  | cons f frames ih =>
    exact raisesOnly_bind (encodeFrame_raises policy i f) fun _ => raisesOnly_bind (ih _) fun _ => raisesOnly_ok _ _

/-- What FF_ENCODE can raise (60_exceptions.md R240). -/
theorem encodeFramed_raises (p : Params) (sampleRate channelCount : I32) (frames : List Frame) :
    RaisesOnly (KindIn [.valueOutOfRange, .fieldOutOfRange, .shapeMismatch, .capacityExceeded])
      (encodeFramed p sampleRate channelCount frames) :=
  raisesOnly_bind (raisesOnly_check _ _ (by simp [KindIn])) fun _ =>
    raisesOnly_bind ((encodeFrames_raises p.ovfPolicy frames 0).mono fun e h => by
      rcases e with ⟨k, _, _⟩; cases k <;> simp_all [KindIn]) fun _ =>
      raisesOnly_bind (raisesOnly_check _ _ (by simp [KindIn])) fun _ => raisesOnly_ok _ _

/-- The kinds FF_DECODE can raise (60_exceptions.md R240). -/
def framedKinds : List RaiseKind := [.truncatedHeader, .truncatedPayload, .fieldOutOfRange, .capacityExceeded]

theorem readI32_raises (buf : List Byte) (p : Nat) (f : FieldId) (i : Nat) :
    RaisesOnly (KindIn framedKinds) (readI32 buf p f i) :=
  raisesOnly_bind (raisesOnly_readField _ _ _ _ _ (by simp [KindIn, framedKinds])) fun _ => raisesOnly_ok _ _

theorem readDim_raises (buf : List Byte) (p : Nat) (f : FieldId) (i : Nat) :
    RaisesOnly (KindIn framedKinds) (readDim buf p f i) :=
  raisesOnly_bind (readI32_raises _ _ _ _) fun _ =>
    raisesOnly_bind (raisesOnly_check _ _ (by simp [KindIn, framedKinds])) fun _ => raisesOnly_ok _ _

theorem readFrame_raises (seqCap : Option Nat) (buf : List Byte) (i p : Nat) :
    RaisesOnly (KindIn framedKinds) (readFrame seqCap buf i p) :=
  raisesOnly_bind (readDim_raises _ _ _ _) fun _ =>
    raisesOnly_bind (readDim_raises _ _ _ _) fun _ =>
      raisesOnly_bind (readDim_raises _ _ _ _) fun _ =>
        raisesOnly_bind (raisesOnly_check _ _ (by simp [KindIn, framedKinds])) fun _ =>
          raisesOnly_bind (raisesOnly_check _ _ (by simp [KindIn, framedKinds])) fun _ => raisesOnly_ok _ _

theorem readFrames_raises (seqCap : Option Nat) (buf : List Byte) (k i p : Nat) :
    RaisesOnly (KindIn framedKinds) (readFrames seqCap buf k i p) := by
  induction k generalizing i p with
  | zero => exact raisesOnly_ok _ _
  | succ k ih =>
    exact raisesOnly_bind (readFrame_raises seqCap buf i p) fun _ => raisesOnly_bind (ih _ _) fun _ => raisesOnly_ok _ _

/-- What FF_DECODE can raise (60_exceptions.md R240). -/
theorem decodeFramed_raises (p : Params) (buf : List Byte) : RaisesOnly (KindIn framedKinds) (decodeFramed p buf) :=
  raisesOnly_bind (raisesOnly_check _ _ (by simp [KindIn, framedKinds])) fun _ =>
    raisesOnly_bind (readI32_raises _ _ _ _) fun _ =>
      raisesOnly_bind (readI32_raises _ _ _ _) fun _ =>
        raisesOnly_bind (readDim_raises _ _ _ _) fun _ =>
          raisesOnly_bind (readFrames_raises _ _ _ _ _) fun _ => raisesOnly_ok _ _

/-! ### Reading what stands in a buffer -/

/-- The ten bytes of a metadata record (43_container_sd.md R160). -/
def metaBytes (m : LevelMeta) : List Byte := le32 m.length ++ le16 m.bitWidth ++ le32 m.payloadSize

@[simp] theorem metaBytes_length (m : LevelMeta) : (metaBytes m).length = 10 := rfl

/-- Reading one legal metadata record where it stands (43_container_sd.md R174). -/
theorem readMeta_ok (strict : Bool) (a b : List Byte) (m : LevelMeta) (i p : Nat) (hp : p = a.length)
    (hn : m.length < 2 ^ 32) (hw1 : 1 ≤ m.bitWidth) (hw2 : m.bitWidth ≤ 32) (hs : m.payloadSize < 2 ^ 32)
    (hstrict : strict = true → m.payloadSize = ceildiv8 (m.length * m.bitWidth)) :
    readMeta strict (a ++ (metaBytes m ++ b)) i p = .ok m := by
  have h1 : readField (a ++ (metaBytes m ++ b)) p 4 .levelLength i = .ok m.length := by
    have := readField_ok a (le32 m.length) (le16 m.bitWidth ++ le32 m.payloadSize ++ b) p 4 .levelLength i hp rfl
    rw [rdle_le32 _ hn] at this
    simpa [metaBytes] using this
  have h2 : readField (a ++ (metaBytes m ++ b)) (p + 4) 2 .levelBitWidth i = .ok m.bitWidth := by
    have := readField_ok (a ++ le32 m.length) (le16 m.bitWidth) (le32 m.payloadSize ++ b) (p + 4) 2 .levelBitWidth i
      (by simp [hp]) rfl
    rw [rdle_le16 _ (by omega)] at this
    simpa [metaBytes] using this
  have h3 : readField (a ++ (metaBytes m ++ b)) (p + 6) 4 .levelPayloadSize i = .ok m.payloadSize := by
    have := readField_ok (a ++ le32 m.length ++ le16 m.bitWidth) (le32 m.payloadSize) b (p + 6) 4 .levelPayloadSize i
      (by simp [hp]) rfl
    rw [rdle_le32 _ hs] at this
    simpa [metaBytes] using this
  have hw : (decide (m.bitWidth < nbMin) || decide (nbMax < m.bitWidth)) = false := by
    change (decide (m.bitWidth < 1) || decide (32 < m.bitWidth)) = false
    simp only [Bool.or_eq_false_iff, decide_eq_false_iff_not]
    omega
  have hc : (strict && decide (m.payloadSize ≠ ceildiv8 (m.length * m.bitWidth))) = false := by
    cases strict <;> simp_all
  simp only [readMeta, h1, h2, h3, except_ok_bind, hw, check_false, hc, except_pure]

/-- Reading legal metadata records where they stand (43_container_sd.md R174). -/
theorem readMetas_ok (strict : Bool) (metas : List LevelMeta) (a b : List Byte) (i p : Nat) (hp : p = a.length)
    (h : ∀ m ∈ metas, m.length < 2 ^ 32 ∧ 1 ≤ m.bitWidth ∧ m.bitWidth ≤ 32 ∧ m.payloadSize < 2 ^ 32 ∧
      (strict = true → m.payloadSize = ceildiv8 (m.length * m.bitWidth))) :
    readMetas strict (a ++ (metas.flatMap metaBytes ++ b)) metas.length i p = .ok (metas, p + 10 * metas.length) := by
  induction metas generalizing a i p with
  | nil => rfl
  | cons m metas ih =>
    obtain ⟨h1, h2, h3, h4, h5⟩ := h m (by simp)
    have hm := readMeta_ok strict a (metas.flatMap metaBytes ++ b) m i p hp h1 h2 h3 h4 h5
    have ht := ih (a ++ metaBytes m) (i + 1) (p + 10) (by simp [hp]) fun x hx => h x (by simp [hx])
    simp only [List.flatMap_cons, List.append_assoc, List.length_cons, readMetas] at hm ht ⊢
    rw [hm, except_ok_bind, ht, except_ok_bind, except_pure]
    congr 2; omega

/-- Reading payload chunks where they stand (43_container_sd.md R176, R177). -/
theorem readPayloads_ok (seqCap : Option Nat) (records : List (LevelMeta × List Byte)) (a b : List Byte) (i p : Nat)
    (hp : p = a.length) (h : ∀ r ∈ records, r.1.payloadSize = r.2.length ∧ exceeds seqCap r.1.length = false) :
    readPayloads seqCap (a ++ (records.flatMap Prod.snd ++ b)) (records.map Prod.fst) i p =
      .ok (records.map fun r => ⟨BitVec.ofNat 32 r.1.length, r.1.bitWidth, toWords (unpack r.2 r.1.length r.1.bitWidth)⟩,
        p + (records.flatMap Prod.snd).length) := by
  induction records generalizing a i p with
  | nil => rfl
  | cons r records ih =>
    obtain ⟨h1, h2⟩ := h r (by simp)
    have ht := ih (a ++ r.2) (i + 1) (p + r.1.payloadSize) (by simp [hp, h1]) fun x hx => h x (by simp [hx])
    have hlen : decide ((a ++ (r.2 ++ (records.flatMap Prod.snd ++ b))).length < p + r.1.payloadSize) = false := by
      simp [hp, h1]
    have hs := slice_append a r.2 (records.flatMap Prod.snd ++ b) p r.1.payloadSize hp h1
    simp only [List.flatMap_cons, List.append_assoc, List.map_cons, readPayloads] at ht ⊢
    rw [hlen, h2, check_false, check_false, except_ok_bind, except_ok_bind, ht, except_ok_bind, hs, except_pure]
    congr 2
    simp [h1]; omega

/-- The levels that fit their fields are encoded one after the other (43_container_sd.md R165). -/
theorem encodeLevels_ok (levels : List (List Word)) (i : Nat)
    (h : ∀ l ∈ levels, l.length < 2 ^ 32 ∧ (levelChunk l).length < 2 ^ 32) :
    encodeLevels levels i =
      .ok (levels.flatMap fun l => metaBytes ⟨l.length, levelWidth l, (levelChunk l).length⟩,
        levels.flatMap levelChunk) := by
  induction levels generalizing i with
  | nil => rfl
  | cons l levels ih =>
    obtain ⟨h1, h2⟩ := h l (by simp)
    have ht := ih (i + 1) fun x hx => h x (by simp [hx])
    have g1 : decide (2 ^ 32 - 1 < l.length) = false := by simp; omega
    have g2 : decide (2 ^ 32 - 1 < (levelChunk l).length) = false := by simp; omega
    simp only [encodeLevels, g1, g2, check_false, except_ok_bind, ht, except_pure, List.flatMap_cons, metaBytes]

/-- Conversely, levels that are encoded fit their fields (43_container_sd.md R165). -/
theorem encodeLevels_fits (levels : List (List Word)) (i : Nat) (out : List Byte × List Byte)
    (h : encodeLevels levels i = .ok out) : ∀ l ∈ levels, l.length < 2 ^ 32 ∧ (levelChunk l).length < 2 ^ 32 := by
  induction levels generalizing i out with
  | nil => simp
  | cons l levels ih =>
    rw [encodeLevels] at h
    obtain ⟨_, h1, h⟩ := (except_bind_ok_iff _ _ _).mp h
    obtain ⟨_, h2, h⟩ := (except_bind_ok_iff _ _ _).mp h
    obtain ⟨r, h3, _⟩ := (except_bind_ok_iff _ _ _).mp h
    rw [check_ok_iff, decide_eq_false_iff_not] at h1 h2
    intro x hx
    rcases List.mem_cons.mp hx with rfl | hx
    · omega
    · exact ih _ _ h3 x hx

/-- The codes of a frame that the policy accepts (44_container_ff.md R206). -/
theorem fitCodes_ok (policy : OvfPolicy) (i : Nat) (values : List Word)
    (h : ∀ v ∈ values, v.toNat < 2 ^ ffWidth ∨ policy = .mask) :
    fitCodes policy i values = .ok (values.map fun v => v.toNat % 2 ^ ffWidth) := by
  induction values with
  | nil => rfl
  | cons v values ih =>
    have hv := fitValue_accepted policy ffWidth v.toNat .ffPayload i (h v (by simp))
    simp only [fitCodes, hv, except_ok_bind, ih fun x hx => h x (by simp [hx]), except_pure, List.map_cons]

/-- A non-negative i32 is the number of its bits (00_scope.md R11). -/
theorem toInt_eq_toNat (x : I32) (h : 0 ≤ x.toInt) : x.toInt = x.toNat := by
  have := x.isLt
  rw [BitVec.toInt_eq_toNat_cond] at h ⊢
  split at h <;> split <;> omega

/-- Reading an i32 field where it stands (20_memory.md R62). -/
theorem readI32_ok (a b : List Byte) (x : I32) (p : Nat) (f : FieldId) (i : Nat) (hp : p = a.length) :
    readI32 (a ++ (le32 x.toNat ++ b)) p f i = .ok x := by
  simp only [readI32, readField_ok a (le32 x.toNat) b p 4 f i hp rfl, except_ok_bind, rdle_le32 _ x.isLt, except_pure,
    BitVec.ofNat_toNat, BitVec.setWidth_eq]

/-- Reading a non-negative dimension where it stands (44_container_ff.md R211). -/
theorem readDim_ok (a b : List Byte) (x : I32) (p : Nat) (f : FieldId) (i : Nat) (hp : p = a.length) (hx : 0 ≤ x.toInt) :
    readDim (a ++ (le32 x.toNat ++ b)) p f i = .ok x := by
  have h : decide (x.toInt < 0) = false := by simpa using hx
  simp only [readDim, readI32_ok a b x p f i hp, except_ok_bind, h, check_false, except_pure]

/-- A negative dimension raises FieldOutOfRange where it stands (44_container_ff.md R211). -/
theorem readDim_negative (a b : List Byte) (x : I32) (p : Nat) (f : FieldId) (i : Nat) (hp : p = a.length)
    (hx : x.toInt < 0) : readDim (a ++ (le32 x.toNat ++ b)) p f i = .error ⟨.fieldOutOfRange, f, i⟩ := by
  have h : decide (x.toInt < 0) = true := by simpa using hx
  simp only [readDim, readI32_ok a b x p f i hp, except_ok_bind, h, check_true, except_error_bind]

theorem shapeProduct_toNat (b n t : I32) (hb : 0 ≤ b.toInt) (hn : 0 ≤ n.toInt) (ht : 0 ≤ t.toInt) :
    (shapeProduct b n t).toNat = b.toNat * n.toNat * t.toNat := by
  rw [shapeProduct, toInt_eq_toNat b hb, toInt_eq_toNat n hn, toInt_eq_toNat t ht]
  norm_cast

/-- Reading a frame where it stands (44_container_ff.md R210). -/
theorem readFrame_ok (seqCap : Option Nat) (a chunk rest : List Byte) (b n t : I32) (i p : Nat) (hp : p = a.length)
    (hb : 0 ≤ b.toInt) (hn : 0 ≤ n.toInt) (ht : 0 ≤ t.toInt)
    (hc : chunk.length = ceildiv8 (ffWidth * (shapeProduct b n t).toNat))
    (hs : exceeds seqCap (shapeProduct b n t).toNat = false) :
    readFrame seqCap (a ++ (le32 b.toNat ++ le32 n.toNat ++ le32 t.toNat ++ chunk ++ rest)) i p =
      .ok (⟨b, n, t, toWords (unpack chunk (shapeProduct b n t).toNat ffWidth)⟩, p + 12 + chunk.length) := by
  have h1 := readDim_ok a (le32 n.toNat ++ (le32 t.toNat ++ (chunk ++ rest))) b p .ffShapeB i hp hb
  have h2 := readDim_ok (a ++ le32 b.toNat) (le32 t.toNat ++ (chunk ++ rest)) n (p + 4) .ffShapeN i (by simp [hp]) hn
  have h3 := readDim_ok (a ++ (le32 b.toNat ++ le32 n.toNat)) (chunk ++ rest) t (p + 8) .ffShapeT i (by simp [hp]) ht
  have h4 := slice_append (a ++ (le32 b.toNat ++ (le32 n.toNat ++ le32 t.toNat))) chunk rest (p + 12) chunk.length
    (by simp [hp]) rfl
  have h5 : decide ((a ++ (le32 b.toNat ++ (le32 n.toNat ++ (le32 t.toNat ++ (chunk ++ rest))))).length <
      p + 12 + chunk.length) = false := by simp [hp]; omega
  simp only [List.append_assoc] at h1 h2 h3 h4 h5 ⊢
  simp only [readFrame, h1, h2, h3, except_ok_bind, ← hc, h5, hs, check_false, h4, except_pure]

/-! ### Where a record is not legal -/

/-- A width that is not legal, as `readMeta` checks it (43_container_sd.md R174). -/
theorem badWidth_iff (w : Nat) : (decide (w < nbMin) || decide (nbMax < w)) = true ↔ w < 1 ∨ 32 < w := by
  change (decide (w < 1) || decide (32 < w)) = true ↔ _
  simp

/-- What a metadata record behind a prefix can raise, in the order of its checks, and that it is read otherwise
(43_container_sd.md R172, R174, R175). -/
theorem readMeta_cases (strict : Bool) (a rest : List Byte) (i p : Nat) (hp : p = a.length) :
    (rest.length < 4 ∧ readMeta strict (a ++ rest) i p = .error ⟨.truncatedHeader, .levelLength, i⟩) ∨
      (4 ≤ rest.length ∧ rest.length < 6 ∧
        readMeta strict (a ++ rest) i p = .error ⟨.truncatedHeader, .levelBitWidth, i⟩) ∨
      (6 ≤ rest.length ∧ (rdle (slice rest 4 2) < 1 ∨ 32 < rdle (slice rest 4 2)) ∧
        readMeta strict (a ++ rest) i p = .error ⟨.unsupportedBitWidth, .levelBitWidth, i⟩) ∨
      (6 ≤ rest.length ∧ 1 ≤ rdle (slice rest 4 2) ∧ rdle (slice rest 4 2) ≤ 32 ∧ rest.length < 10 ∧
        readMeta strict (a ++ rest) i p = .error ⟨.truncatedHeader, .levelPayloadSize, i⟩) ∨
      (10 ≤ rest.length ∧ 1 ≤ rdle (slice rest 4 2) ∧ rdle (slice rest 4 2) ≤ 32 ∧ strict = true ∧
        rdle (slice rest 6 4) ≠ ceildiv8 (rdle (slice rest 0 4) * rdle (slice rest 4 2)) ∧
        readMeta strict (a ++ rest) i p = .error ⟨.payloadSizeMismatch, .levelPayloadSize, i⟩) ∨
      (10 ≤ rest.length ∧ 1 ≤ rdle (slice rest 4 2) ∧ rdle (slice rest 4 2) ≤ 32 ∧
        (strict = true → rdle (slice rest 6 4) = ceildiv8 (rdle (slice rest 0 4) * rdle (slice rest 4 2))) ∧
        readMeta strict (a ++ rest) i p =
          .ok ⟨rdle (slice rest 0 4), rdle (slice rest 4 2), rdle (slice rest 6 4)⟩) := by
  by_cases h4 : rest.length < 4
  · exact .inl ⟨h4, by simp [readMeta, readField_after_short a rest p 0 4 .levelLength i hp (by omega)]⟩
  have r1 := readField_after a rest p 0 4 .levelLength i hp (by omega)
  by_cases h6 : rest.length < 6
  · exact .inr (.inl ⟨by omega, h6, by
      simp [readMeta, r1, readField_after_short a rest (p + 4) 4 2 .levelBitWidth i (by omega) (by omega)]⟩)
  have r2 := readField_after a rest (p + 4) 4 2 .levelBitWidth i (by omega) (by omega)
  by_cases hw : rdle (slice rest 4 2) < 1 ∨ 32 < rdle (slice rest 4 2)
  · exact .inr (.inr (.inl ⟨by omega, hw, by
      simp only [readMeta, r1, r2, except_ok_bind, (badWidth_iff _).mpr hw, check_true, except_error_bind]⟩))
  have hg : (decide (rdle (slice rest 4 2) < nbMin) || decide (nbMax < rdle (slice rest 4 2))) = false := by
    rw [Bool.eq_false_iff, Ne, badWidth_iff]; exact hw
  by_cases h10 : rest.length < 10
  · exact .inr (.inr (.inr (.inl ⟨by omega, by omega, by omega, h10, by
      simp only [readMeta, r1, r2, except_ok_bind, hg, check_false,
        readField_after_short a rest (p + 6) 6 4 .levelPayloadSize i (by omega) (by omega), except_error_bind]⟩)))
  have r3 := readField_after a rest (p + 6) 6 4 .levelPayloadSize i (by omega) (by omega)
  by_cases hs : strict = true ∧
      rdle (slice rest 6 4) ≠ ceildiv8 (rdle (slice rest 0 4) * rdle (slice rest 4 2))
  · exact .inr (.inr (.inr (.inr (.inl ⟨by omega, by omega, by omega, hs.1, hs.2, by
      simp only [readMeta, r1, r2, r3, except_ok_bind, hg, check_false, hs.1, decide_eq_true hs.2, Bool.and_self,
        check_true, except_error_bind]⟩))))
  · have hc : (strict && decide (rdle (slice rest 6 4) ≠
        ceildiv8 (rdle (slice rest 0 4) * rdle (slice rest 4 2)))) = false := by
      cases strict <;> simp_all
    exact .inr (.inr (.inr (.inr (.inr ⟨by omega, by omega, by omega, fun h => by
      by_contra hne; exact hs ⟨h, hne⟩, by
      simp only [readMeta, r1, r2, r3, except_ok_bind, hg, hc, check_false, except_pure]⟩))))

/-- What the first metadata record after legal ones raises is what the metadata raise (43_container_sd.md R174). -/
theorem readMetas_error (strict : Bool) (good : List LevelMeta) (a rest : List Byte) (k i p : Nat) (e : Raise)
    (hp : p = a.length) (hk : good.length < k)
    (h : ∀ m ∈ good, m.length < 2 ^ 32 ∧ 1 ≤ m.bitWidth ∧ m.bitWidth ≤ 32 ∧ m.payloadSize < 2 ^ 32 ∧
      (strict = true → m.payloadSize = ceildiv8 (m.length * m.bitWidth)))
    (he : readMeta strict (a ++ good.flatMap metaBytes ++ rest) (i + good.length) (p + 10 * good.length) = .error e) :
    readMetas strict (a ++ good.flatMap metaBytes ++ rest) k i p = .error e := by
  induction good generalizing a k i p with
  | nil =>
    obtain _ | k := k
    · simp at hk
    · simp only [List.length_nil, Nat.mul_zero, Nat.add_zero] at he
      simp only [readMetas, he, except_error_bind]
  | cons m good ih =>
    obtain _ | k := k
    · simp at hk
    · obtain ⟨h1, h2, h3, h4, h5⟩ := h m (by simp)
      have hm := readMeta_ok strict a (good.flatMap metaBytes ++ rest) m i p hp h1 h2 h3 h4 h5
      have ht := ih (a ++ metaBytes m) k (i + 1) (p + 10) (by simp [hp]) (by simpa using hk)
        (fun x hx => h x (by simp [hx])) (by
          rw [← he]; simp only [List.flatMap_cons, List.append_assoc, List.length_cons]
          congr 1 <;> omega)
      simp only [List.flatMap_cons, List.append_assoc, readMetas] at hm ht ⊢
      rw [hm, except_ok_bind, ht, except_error_bind]

/-- The first payload after chunks that are there: cut short, or of a level longer than the capacity, in this order
(43_container_sd.md R176, R180). -/
theorem readPayloads_error (seqCap : Option Nat) (good : List (LevelMeta × List Byte)) (bad : LevelMeta)
    (more : List LevelMeta) (a rest : List Byte) (i p : Nat) (hp : p = a.length)
    (h : ∀ r ∈ good, r.1.payloadSize = r.2.length ∧ exceeds seqCap r.1.length = false) :
    (rest.length < bad.payloadSize →
      readPayloads seqCap (a ++ (good.flatMap Prod.snd ++ rest)) (good.map Prod.fst ++ bad :: more) i p =
        .error ⟨.truncatedPayload, .levelPayload, i + good.length⟩) ∧
    (bad.payloadSize ≤ rest.length → exceeds seqCap bad.length = true →
      readPayloads seqCap (a ++ (good.flatMap Prod.snd ++ rest)) (good.map Prod.fst ++ bad :: more) i p =
        .error ⟨.capacityExceeded, .count, i + good.length⟩) := by
  induction good generalizing a i p with
  | nil =>
    refine ⟨fun hs => ?_, fun hs hx => ?_⟩
    · have hd : decide ((a ++ rest).length < p + bad.payloadSize) = true := by
        rw [List.length_append, decide_eq_true_iff]; omega
      simp [readPayloads, hd, -List.length_append]
    · have hd : decide ((a ++ rest).length < p + bad.payloadSize) = false := by
        rw [List.length_append, decide_eq_false_iff_not]; omega
      simp [readPayloads, hd, hx, -List.length_append]
  | cons r good ih =>
    obtain ⟨h1, h2⟩ := h r (by simp)
    have ht := ih (a ++ r.2) (i + 1) (p + r.1.payloadSize) (by simp [hp, h1]) fun x hx => h x (by simp [hx])
    have hlen : decide ((a ++ (r.2 ++ (good.flatMap Prod.snd ++ rest))).length < p + r.1.payloadSize) = false := by
      simp [hp, h1]
    have hi : i + (r :: good).length = i + 1 + good.length := by simp; omega
    simp only [List.flatMap_cons, List.append_assoc, List.map_cons, List.cons_append, readPayloads, hlen, h2,
      check_false, except_ok_bind, hi] at ht ⊢
    exact ⟨fun hs => by rw [ht.1 hs, except_error_bind], fun hs hx => by rw [ht.2 hs hx, except_error_bind]⟩

/-- What a dimension behind a prefix can raise, and that it is read otherwise (44_container_ff.md R211). -/
theorem readDim_cases (a rest : List Byte) (p k : Nat) (f : FieldId) (i : Nat) (hp : p = a.length + k) :
    (rest.length < k + 4 ∧ readDim (a ++ rest) p f i = .error ⟨.truncatedHeader, f, i⟩) ∨
      (k + 4 ≤ rest.length ∧ (BitVec.ofNat 32 (rdle (slice rest k 4))).toInt < 0 ∧
        readDim (a ++ rest) p f i = .error ⟨.fieldOutOfRange, f, i⟩) ∨
      (k + 4 ≤ rest.length ∧ 0 ≤ (BitVec.ofNat 32 (rdle (slice rest k 4))).toInt ∧
        readDim (a ++ rest) p f i = .ok (BitVec.ofNat 32 (rdle (slice rest k 4)))) := by
  by_cases h : rest.length < k + 4
  · exact .inl ⟨h, by simp [readDim, readI32, readField_after_short a rest p k 4 f i hp h]⟩
  have r := readField_after a rest p k 4 f i hp (by omega)
  by_cases hn : (BitVec.ofNat 32 (rdle (slice rest k 4))).toInt < 0
  · exact .inr (.inl ⟨by omega, hn, by
      simp only [readDim, readI32, r, except_ok_bind, except_pure, decide_eq_true hn, check_true, except_error_bind]⟩)
  · exact .inr (.inr ⟨by omega, by omega, by
      simp only [readDim, readI32, r, except_ok_bind, except_pure, decide_eq_false hn, check_false]⟩)

/-- The bytes of a frame: its dimensions and its chunk (44_container_ff.md R200). -/
def frameBytes (r : (I32 × I32 × I32) × List Byte) : List Byte :=
  le32 r.1.1.toNat ++ le32 r.1.2.1.toNat ++ le32 r.1.2.2.toNat ++ r.2

/-- What the first frame after good ones raises is what the frames raise (44_container_ff.md R210). -/
theorem readFrames_error (seqCap : Option Nat) (good : List ((I32 × I32 × I32) × List Byte)) (a rest : List Byte)
    (k i p : Nat) (e : Raise) (hp : p = a.length) (hk : good.length < k)
    (h : ∀ r ∈ good, 0 ≤ r.1.1.toInt ∧ 0 ≤ r.1.2.1.toInt ∧ 0 ≤ r.1.2.2.toInt ∧
      r.2.length = ceildiv8 (ffWidth * (shapeProduct r.1.1 r.1.2.1 r.1.2.2).toNat) ∧
      exceeds seqCap (shapeProduct r.1.1 r.1.2.1 r.1.2.2).toNat = false)
    (he : readFrame seqCap (a ++ good.flatMap frameBytes ++ rest) (i + good.length)
      (p + (good.flatMap frameBytes).length) = .error e) :
    readFrames seqCap (a ++ good.flatMap frameBytes ++ rest) k i p = .error e := by
  induction good generalizing a k i p with
  | nil =>
    obtain _ | k := k
    · simp at hk
    · simp only [List.length_nil, List.flatMap_nil, Nat.add_zero] at he ⊢
      simp only [readFrames, he, except_error_bind]
  | cons r good ih =>
    obtain _ | k := k
    · simp at hk
    · obtain ⟨h1, h2, h3, h4, h5⟩ := h r (by simp)
      have hm := readFrame_ok seqCap a r.2 (good.flatMap frameBytes ++ rest) r.1.1 r.1.2.1 r.1.2.2 i p hp h1 h2 h3 h4 h5
      have ht := ih (a ++ frameBytes r) k (i + 1) (p + 12 + r.2.length) (by simp [hp, frameBytes]; omega)
        (by simpa using hk) (fun x hx => h x (by simp [hx])) (by
          rw [← he]; simp only [List.flatMap_cons, List.append_assoc, List.length_cons]
          congr 1
          · omega
          · simp [frameBytes]; omega)
      simp only [List.flatMap_cons, List.append_assoc, frameBytes, readFrames] at hm ht ⊢
      rw [hm, except_ok_bind, ht, except_error_bind]

theorem flatMap_metaBytes_length (metas : List LevelMeta) : (metas.flatMap metaBytes).length = 10 * metas.length := by
  induction metas with
  | nil => rfl
  | cons m metas ih => rw [List.flatMap_cons, List.length_append, ih, metaBytes_length, List.length_cons]; omega

/-! ### What stands after the header -/

/-- The fields of a self-describing container up to its name (43_container_sd.md R160). -/
def namedBytes (version : Byte) (sampleRate : Word) (name : List Byte) : List Byte :=
  magicTag ++ [version] ++ le32 sampleRate.toNat ++ le16 name.length ++ name

theorem namedBytes_length (version : Byte) (sampleRate : Word) (name : List Byte) :
    (namedBytes version sampleRate name).length = 11 + name.length := by
  simp [namedBytes, magicTag]; omega

/-- The fields before the name, read where they stand: what is left of CC_DECODE (43_container_sd.md R170, R171). -/
theorem decodeContainer_named (p : Params) (version : Byte) (sampleRate : Word) (name rest fb : List Byte)
    (hn : name.length < 2 ^ 16) (hcap : exceeds p.bufCap (namedBytes version sampleRate name ++ rest).length = false) :
    decodeContainer p (namedBytes version sampleRate name ++ rest) fb = (do
      let buf := namedBytes version sampleRate name ++ rest
      let stored ← readName buf fb name.length
      let levelCount ← readField buf (11 + name.length) 4 .levelCount 0
      let metas ← readMetas p.strictPayload buf levelCount 0 (15 + name.length)
      let levels ← readPayloads p.seqCap buf metas.1 0 metas.2
      return ⟨version, sampleRate, stored.1, stored.2, levels.1, levels.2⟩) := by
  have hlen := namedBytes_length version sampleRate name
  have hm : (decide ((namedBytes version sampleRate name ++ rest).length < 4) ||
      slice (namedBytes version sampleRate name ++ rest) 0 4 != magicTag) = false := by
    have h1 := slice_append [] magicTag ([version] ++ le32 sampleRate.toNat ++ le16 name.length ++ name ++ rest) 0 4 rfl rfl
    have h2 : namedBytes version sampleRate name ++ rest =
        [] ++ (magicTag ++ ([version] ++ le32 sampleRate.toNat ++ le16 name.length ++ name ++ rest)) := by
      simp [namedBytes]
    rw [h2, h1]
    simp [magicTag]
  have r1 : readField (namedBytes version sampleRate name ++ rest) 4 1 .version 0 = .ok version.toNat := by
    have := readField_ok magicTag [version] (le32 sampleRate.toNat ++ le16 name.length ++ name ++ rest) 4 1 .version 0 rfl rfl
    simpa [namedBytes, rdle] using this
  have r2 : readField (namedBytes version sampleRate name ++ rest) 5 4 .sampleRate 0 = .ok sampleRate.toNat := by
    have := readField_ok (magicTag ++ [version]) (le32 sampleRate.toNat) (le16 name.length ++ name ++ rest) 5 4
      .sampleRate 0 rfl rfl
    rw [rdle_le32 _ sampleRate.isLt] at this
    simpa [namedBytes] using this
  have r3 : readField (namedBytes version sampleRate name ++ rest) 9 2 .modelNameLen 0 = .ok name.length := by
    have := readField_ok (magicTag ++ [version] ++ le32 sampleRate.toNat) (le16 name.length) (name ++ rest) 9 2
      .modelNameLen 0 rfl rfl
    rw [rdle_le16 _ hn] at this
    simpa [namedBytes] using this
  simp only [decodeContainer, hcap, hm, r1, r2, r3, check_false, except_ok_bind, BitVec.ofNat_toNat, BitVec.setWidth_eq]

/-- The stored name is read where it stands, or is no text (43_container_sd.md R173). -/
theorem readName_stored (version : Byte) (sampleRate : Word) (name rest fb : List Byte) :
    readName (namedBytes version sampleRate name ++ rest) fb name.length =
      if name = [] then .ok (fb, true)
      else if utf8WellFormed name = true then .ok (name, false)
      else .error ⟨.invalidEncoding, .modelName, 0⟩ := by
  have hlen := namedBytes_length version sampleRate name
  by_cases h0 : name = []
  · subst h0; rfl
  have hne : name.length ≠ 0 := by simpa using h0
  have hs : slice (namedBytes version sampleRate name ++ rest) 11 name.length = name := by
    have := slice_append (magicTag ++ [version] ++ le32 sampleRate.toNat ++ le16 name.length) name rest 11 name.length
      rfl rfl
    simpa [namedBytes] using this
  have hneed : need (namedBytes version sampleRate name ++ rest) 11 name.length .modelName 0 = .ok () := by
    rw [need, check_ok_iff, decide_eq_false_iff_not, List.length_append, hlen]; omega
  rw [readName, if_neg hne, if_neg h0, hneed, except_ok_bind, hs]
  by_cases hu : utf8WellFormed name = true
  · simp [hu]
  · simp [hu]

/-- After a header whose name is text or empty: what is left of CC_DECODE (43_container_sd.md R170). -/
theorem decodeContainer_header (p : Params) (version : Byte) (sampleRate : Word) (name rest fb : List Byte)
    (levelCount : Nat) (hn : name.length < 2 ^ 16) (hu : utf8WellFormed name = true) (hl : levelCount < 2 ^ 32)
    (hcap : exceeds p.bufCap (namedBytes version sampleRate name ++ (le32 levelCount ++ rest)).length = false) :
    decodeContainer p (namedBytes version sampleRate name ++ (le32 levelCount ++ rest)) fb = (do
      let buf := namedBytes version sampleRate name ++ (le32 levelCount ++ rest)
      let metas ← readMetas p.strictPayload buf levelCount 0 (15 + name.length)
      let levels ← readPayloads p.seqCap buf metas.1 0 metas.2
      return ⟨version, sampleRate, if name = [] then fb else name, decide (name = []), levels.1, levels.2⟩) := by
  have hr := readField_ok (namedBytes version sampleRate name) (le32 levelCount) rest (11 + name.length) 4 .levelCount 0
    (namedBytes_length version sampleRate name).symm rfl
  rw [rdle_le32 _ hl] at hr
  rw [decodeContainer_named p version sampleRate name _ fb hn hcap]
  simp only [readName_stored, hr, hu, if_true, except_ok_bind]
  by_cases h0 : name = [] <;> simp [h0]

/-- The fields before the frames, read where they stand: what is left of FF_DECODE (44_container_ff.md R210). -/
theorem decodeFramed_header (p : Params) (sampleRate channelCount : I32) (frameCount : Nat) (rest : List Byte)
    (hf : frameCount < 2 ^ 31)
    (hcap : exceeds p.bufCap
      (le32 sampleRate.toNat ++ (le32 channelCount.toNat ++ (le32 frameCount ++ rest))).length = false) :
    decodeFramed p (le32 sampleRate.toNat ++ (le32 channelCount.toNat ++ (le32 frameCount ++ rest))) = (do
      let frames ← readFrames p.seqCap (le32 sampleRate.toNat ++ (le32 channelCount.toNat ++ (le32 frameCount ++ rest)))
        frameCount 0 12
      return ⟨sampleRate, channelCount, frames.1, frames.2⟩) := by
  have hi : (BitVec.ofNat 32 frameCount).toNat = frameCount := by
    rw [BitVec.toNat_ofNat, Nat.mod_eq_of_lt (by omega)]
  have hpos : 0 ≤ (BitVec.ofNat 32 frameCount).toInt := by
    rw [BitVec.toInt_eq_toNat_cond, hi]; split <;> omega
  have r1 := readI32_ok [] (le32 channelCount.toNat ++ (le32 frameCount ++ rest)) sampleRate 0 .ffSampleRate 0 rfl
  have r2 := readI32_ok (le32 sampleRate.toNat) (le32 frameCount ++ rest) channelCount 4 .ffChannelCount 0 rfl
  have r3 := readDim_ok (le32 sampleRate.toNat ++ le32 channelCount.toNat) rest (BitVec.ofNat 32 frameCount) 8
    .ffFrameCount 0 rfl hpos
  rw [hi, List.append_assoc] at r3
  rw [List.nil_append] at r1
  simp only [decodeFramed, hcap, r1, r2, r3, hi, check_false, except_ok_bind]

end Sys2Proof.Machine
end

