-- ==== Sys2Proof/Laws/Decode.lean ====
section
/-! SUPPORT. The fields of an encoded command word, and decoding one. -/

namespace Sys2Proof

theorem ofCode_code (o : Opcode) : Opcode.ofCode o.code = some o := by cases o <;> rfl

theorem ofCode_eq_some (b : Byte) (o : Opcode) (h : Opcode.ofCode b = some o) : o.code = b := by
  have := List.find?_some h
  simpa using this

theorem opcField_commandWord (o : Opcode) (nb : Nat) (h : nb < 64) : opcField (commandWord o nb) = o.code := by
  have : ∀ n : Fin 64, opcField (commandWord o n) = o.code := by cases o <;> decide
  exact this ⟨nb, h⟩

theorem rsvField_commandWord (o : Opcode) (nb : Nat) (h : nb < 64) : rsvField (commandWord o nb) = 0 := by
  have : ∀ n : Fin 64, rsvField (commandWord o n) = 0 := by cases o <;> decide
  exact this ⟨nb, h⟩

theorem nbField_commandWord (o : Opcode) (nb : Nat) (h : nb < 64) : nbField (commandWord o nb) = nb := by
  have : ∀ n : Fin 64, nbField (commandWord o n) = n := by cases o <;> decide
  exact this ⟨nb, h⟩

/-- Decoding a command word built by the opcode map (30_encoding.md R84, R85). -/
theorem decode_commandWord (o : Opcode) (nb : Nat) (op : Operand) (i : Instr) (h : nb < 64)
    (hw : o.takesWidth = true ∨ nb = 0) (hb : o.build nb op = some i) : decode (commandWord o nb) op = .ok i := by
  have hc : ¬(o.takesWidth = false ∧ nb ≠ 0) := by rintro ⟨h1, h2⟩; simp [h1, h2] at hw
  simp only [decode, opcField_commandWord o nb h, ofCode_code, rsvField_commandWord o nb h, nbField_commandWord o nb h,
    ne_eq, not_true_eq_false, if_false, hc, hb]

end Sys2Proof
end

