-- ==== Sys2Proof/Laws/State.lean ====
section
/-! SUPPORT. What each field of the state is after each update, and the ways a command ends in the spec's numbers. -/

namespace Sys2Proof.Machine

/-! #### respond -/

@[simp] theorem respond_bwAcc (s : State) (p : Payload) : (s.respond p).bwAcc = s.bwAcc := rfl
@[simp] theorem respond_bwCnt (s : State) (p : Payload) : (s.respond p).bwCnt = s.bwCnt := rfl
@[simp] theorem respond_bwOut (s : State) (p : Payload) : (s.respond p).bwOut = s.bwOut := rfl
@[simp] theorem respond_brBuf (s : State) (p : Payload) : (s.respond p).brBuf = s.brBuf := rfl
@[simp] theorem respond_brPos (s : State) (p : Payload) : (s.respond p).brPos = s.brPos := rfl
@[simp] theorem respond_brAcc (s : State) (p : Payload) : (s.respond p).brAcc = s.brAcc := rfl
@[simp] theorem respond_brCnt (s : State) (p : Payload) : (s.respond p).brCnt = s.brCnt := rfl
@[simp] theorem respond_wsMax (s : State) (p : Payload) : (s.respond p).wsMax = s.wsMax := rfl
@[simp] theorem respond_status (s : State) (p : Payload) : (s.respond p).status = s.status := rfl
@[simp] theorem respond_errField (s : State) (p : Payload) : (s.respond p).errField = s.errField := rfl
@[simp] theorem respond_errIndex (s : State) (p : Payload) : (s.respond p).errIndex = s.errIndex := rfl
@[simp] theorem respond_stickyErr (s : State) (p : Payload) : (s.respond p).stickyErr = s.stickyErr := rfl
@[simp] theorem respond_params (s : State) (p : Payload) : (s.respond p).params = s.params := rfl
@[simp] theorem respond_inputs (s : State) (p : Payload) : (s.respond p).inputs = s.inputs := rfl
@[simp] theorem respond_responses (s : State) (p : Payload) : (s.respond p).responses = s.responses ++ [⟨s.status, s.errField, s.errIndex, s.stickyErr, p⟩] := rfl

/-! #### endedOk -/

@[simp] theorem endedOk_bwAcc (s : State) (p : Payload) : (endedOk s p).bwAcc = s.bwAcc := rfl
@[simp] theorem endedOk_bwCnt (s : State) (p : Payload) : (endedOk s p).bwCnt = s.bwCnt := rfl
@[simp] theorem endedOk_bwOut (s : State) (p : Payload) : (endedOk s p).bwOut = s.bwOut := rfl
@[simp] theorem endedOk_brBuf (s : State) (p : Payload) : (endedOk s p).brBuf = s.brBuf := rfl
@[simp] theorem endedOk_brPos (s : State) (p : Payload) : (endedOk s p).brPos = s.brPos := rfl
@[simp] theorem endedOk_brAcc (s : State) (p : Payload) : (endedOk s p).brAcc = s.brAcc := rfl
@[simp] theorem endedOk_brCnt (s : State) (p : Payload) : (endedOk s p).brCnt = s.brCnt := rfl
@[simp] theorem endedOk_wsMax (s : State) (p : Payload) : (endedOk s p).wsMax = s.wsMax := rfl
@[simp] theorem endedOk_status (s : State) (p : Payload) : (endedOk s p).status = 0 := rfl
@[simp] theorem endedOk_errField (s : State) (p : Payload) : (endedOk s p).errField = 0 := rfl
@[simp] theorem endedOk_errIndex (s : State) (p : Payload) : (endedOk s p).errIndex = 0 := rfl
@[simp] theorem endedOk_stickyErr (s : State) (p : Payload) : (endedOk s p).stickyErr = s.stickyErr := rfl
@[simp] theorem endedOk_params (s : State) (p : Payload) : (endedOk s p).params = s.params := rfl
@[simp] theorem endedOk_inputs (s : State) (p : Payload) : (endedOk s p).inputs = s.inputs := rfl
@[simp] theorem endedOk_responses (s : State) (p : Payload) : (endedOk s p).responses = s.responses ++ [⟨0, 0, 0, s.stickyErr, p⟩] := rfl

/-! #### endedWith -/

@[simp] theorem endedWith_bwAcc (s : State) (c f : BitVec 8) (i : Nat) : (endedWith s c f i).bwAcc = s.bwAcc := rfl
@[simp] theorem endedWith_bwCnt (s : State) (c f : BitVec 8) (i : Nat) : (endedWith s c f i).bwCnt = s.bwCnt := rfl
@[simp] theorem endedWith_bwOut (s : State) (c f : BitVec 8) (i : Nat) : (endedWith s c f i).bwOut = s.bwOut := rfl
@[simp] theorem endedWith_brBuf (s : State) (c f : BitVec 8) (i : Nat) : (endedWith s c f i).brBuf = s.brBuf := rfl
@[simp] theorem endedWith_brPos (s : State) (c f : BitVec 8) (i : Nat) : (endedWith s c f i).brPos = s.brPos := rfl
@[simp] theorem endedWith_brAcc (s : State) (c f : BitVec 8) (i : Nat) : (endedWith s c f i).brAcc = s.brAcc := rfl
@[simp] theorem endedWith_brCnt (s : State) (c f : BitVec 8) (i : Nat) : (endedWith s c f i).brCnt = s.brCnt := rfl
@[simp] theorem endedWith_wsMax (s : State) (c f : BitVec 8) (i : Nat) : (endedWith s c f i).wsMax = s.wsMax := rfl
@[simp] theorem endedWith_status (s : State) (c f : BitVec 8) (i : Nat) : (endedWith s c f i).status = c := rfl
@[simp] theorem endedWith_errField (s : State) (c f : BitVec 8) (i : Nat) : (endedWith s c f i).errField = f := rfl
@[simp] theorem endedWith_errIndex (s : State) (c f : BitVec 8) (i : Nat) : (endedWith s c f i).errIndex = BitVec.ofNat 32 i := rfl
@[simp] theorem endedWith_stickyErr (s : State) (c f : BitVec 8) (i : Nat) : (endedWith s c f i).stickyErr = (s.stickyErr || c != 4) := rfl
@[simp] theorem endedWith_params (s : State) (c f : BitVec 8) (i : Nat) : (endedWith s c f i).params = s.params := rfl
@[simp] theorem endedWith_inputs (s : State) (c f : BitVec 8) (i : Nat) : (endedWith s c f i).inputs = s.inputs := rfl
@[simp] theorem endedWith_responses (s : State) (c f : BitVec 8) (i : Nat) : (endedWith s c f i).responses = s.responses ++ [⟨c, f, BitVec.ofNat 32 i, s.stickyErr || c != 4, .none⟩] := rfl

/-! #### withWriter -/

@[simp] theorem withWriter_bwAcc (s : State) (w : Writer) : (s.withWriter w).bwAcc = w.acc := rfl
@[simp] theorem withWriter_bwCnt (s : State) (w : Writer) : (s.withWriter w).bwCnt = w.cnt := rfl
@[simp] theorem withWriter_bwOut (s : State) (w : Writer) : (s.withWriter w).bwOut = w.out := rfl
@[simp] theorem withWriter_brBuf (s : State) (w : Writer) : (s.withWriter w).brBuf = s.brBuf := rfl
@[simp] theorem withWriter_brPos (s : State) (w : Writer) : (s.withWriter w).brPos = s.brPos := rfl
@[simp] theorem withWriter_brAcc (s : State) (w : Writer) : (s.withWriter w).brAcc = s.brAcc := rfl
@[simp] theorem withWriter_brCnt (s : State) (w : Writer) : (s.withWriter w).brCnt = s.brCnt := rfl
@[simp] theorem withWriter_wsMax (s : State) (w : Writer) : (s.withWriter w).wsMax = s.wsMax := rfl
@[simp] theorem withWriter_status (s : State) (w : Writer) : (s.withWriter w).status = s.status := rfl
@[simp] theorem withWriter_errField (s : State) (w : Writer) : (s.withWriter w).errField = s.errField := rfl
@[simp] theorem withWriter_errIndex (s : State) (w : Writer) : (s.withWriter w).errIndex = s.errIndex := rfl
@[simp] theorem withWriter_stickyErr (s : State) (w : Writer) : (s.withWriter w).stickyErr = s.stickyErr := rfl
@[simp] theorem withWriter_params (s : State) (w : Writer) : (s.withWriter w).params = s.params := rfl
@[simp] theorem withWriter_inputs (s : State) (w : Writer) : (s.withWriter w).inputs = s.inputs := rfl
@[simp] theorem withWriter_responses (s : State) (w : Writer) : (s.withWriter w).responses = s.responses := rfl

/-! #### withCursor -/

@[simp] theorem withCursor_bwAcc (s : State) (c : Cursor) : (s.withCursor c).bwAcc = s.bwAcc := rfl
@[simp] theorem withCursor_bwCnt (s : State) (c : Cursor) : (s.withCursor c).bwCnt = s.bwCnt := rfl
@[simp] theorem withCursor_bwOut (s : State) (c : Cursor) : (s.withCursor c).bwOut = s.bwOut := rfl
@[simp] theorem withCursor_brBuf (s : State) (c : Cursor) : (s.withCursor c).brBuf = s.brBuf := rfl
@[simp] theorem withCursor_brPos (s : State) (c : Cursor) : (s.withCursor c).brPos = c.pos := rfl
@[simp] theorem withCursor_brAcc (s : State) (c : Cursor) : (s.withCursor c).brAcc = BitVec.ofNat 7 c.acc := rfl
@[simp] theorem withCursor_brCnt (s : State) (c : Cursor) : (s.withCursor c).brCnt = BitVec.ofNat 3 c.cnt := rfl
@[simp] theorem withCursor_wsMax (s : State) (c : Cursor) : (s.withCursor c).wsMax = s.wsMax := rfl
@[simp] theorem withCursor_status (s : State) (c : Cursor) : (s.withCursor c).status = s.status := rfl
@[simp] theorem withCursor_errField (s : State) (c : Cursor) : (s.withCursor c).errField = s.errField := rfl
@[simp] theorem withCursor_errIndex (s : State) (c : Cursor) : (s.withCursor c).errIndex = s.errIndex := rfl
@[simp] theorem withCursor_stickyErr (s : State) (c : Cursor) : (s.withCursor c).stickyErr = s.stickyErr := rfl
@[simp] theorem withCursor_params (s : State) (c : Cursor) : (s.withCursor c).params = s.params := rfl
@[simp] theorem withCursor_inputs (s : State) (c : Cursor) : (s.withCursor c).inputs = s.inputs := rfl
@[simp] theorem withCursor_responses (s : State) (c : Cursor) : (s.withCursor c).responses = s.responses := rfl

/-! #### resetBlock -/

@[simp] theorem resetBlock_bwAcc (s : State) : (resetBlock s).bwAcc = 0 := rfl
@[simp] theorem resetBlock_bwCnt (s : State) : (resetBlock s).bwCnt = 0 := rfl
@[simp] theorem resetBlock_bwOut (s : State) : (resetBlock s).bwOut = [] := rfl
@[simp] theorem resetBlock_brBuf (s : State) : (resetBlock s).brBuf = [] := rfl
@[simp] theorem resetBlock_brPos (s : State) : (resetBlock s).brPos = 0 := rfl
@[simp] theorem resetBlock_brAcc (s : State) : (resetBlock s).brAcc = 0 := rfl
@[simp] theorem resetBlock_brCnt (s : State) : (resetBlock s).brCnt = 0 := rfl
@[simp] theorem resetBlock_wsMax (s : State) : (resetBlock s).wsMax = 0 := rfl
@[simp] theorem resetBlock_status (s : State) : (resetBlock s).status = 0 := rfl
@[simp] theorem resetBlock_errField (s : State) : (resetBlock s).errField = 0 := rfl
@[simp] theorem resetBlock_errIndex (s : State) : (resetBlock s).errIndex = 0 := rfl
@[simp] theorem resetBlock_stickyErr (s : State) : (resetBlock s).stickyErr = false := rfl
@[simp] theorem resetBlock_params (s : State) : (resetBlock s).params = s.params := rfl
@[simp] theorem resetBlock_inputs (s : State) : (resetBlock s).inputs = s.inputs := rfl
@[simp] theorem resetBlock_responses (s : State) : (resetBlock s).responses = s.responses := rfl

/-! #### withProgram -/

@[simp] theorem withProgram_bwAcc (s : State) (is : List Instr) : (s.withProgram is).bwAcc = s.bwAcc := rfl
@[simp] theorem withProgram_bwCnt (s : State) (is : List Instr) : (s.withProgram is).bwCnt = s.bwCnt := rfl
@[simp] theorem withProgram_bwOut (s : State) (is : List Instr) : (s.withProgram is).bwOut = s.bwOut := rfl
@[simp] theorem withProgram_brBuf (s : State) (is : List Instr) : (s.withProgram is).brBuf = s.brBuf := rfl
@[simp] theorem withProgram_brPos (s : State) (is : List Instr) : (s.withProgram is).brPos = s.brPos := rfl
@[simp] theorem withProgram_brAcc (s : State) (is : List Instr) : (s.withProgram is).brAcc = s.brAcc := rfl
@[simp] theorem withProgram_brCnt (s : State) (is : List Instr) : (s.withProgram is).brCnt = s.brCnt := rfl
@[simp] theorem withProgram_wsMax (s : State) (is : List Instr) : (s.withProgram is).wsMax = s.wsMax := rfl
@[simp] theorem withProgram_status (s : State) (is : List Instr) : (s.withProgram is).status = s.status := rfl
@[simp] theorem withProgram_errField (s : State) (is : List Instr) : (s.withProgram is).errField = s.errField := rfl
@[simp] theorem withProgram_errIndex (s : State) (is : List Instr) : (s.withProgram is).errIndex = s.errIndex := rfl
@[simp] theorem withProgram_stickyErr (s : State) (is : List Instr) : (s.withProgram is).stickyErr = s.stickyErr := rfl
@[simp] theorem withProgram_params (s : State) (is : List Instr) : (s.withProgram is).params = s.params := rfl
@[simp] theorem withProgram_inputs (s : State) (is : List Instr) : (s.withProgram is).inputs = issue is ++ s.inputs := rfl
@[simp] theorem withProgram_responses (s : State) (is : List Instr) : (s.withProgram is).responses = s.responses := rfl

/-! #### withFetchWord -/

@[simp] theorem withFetchWord_bwAcc (s : State) (n w : Nat) : (s.withFetchWord n w).bwAcc = s.bwAcc := rfl
@[simp] theorem withFetchWord_bwCnt (s : State) (n w : Nat) : (s.withFetchWord n w).bwCnt = s.bwCnt := rfl
@[simp] theorem withFetchWord_bwOut (s : State) (n w : Nat) : (s.withFetchWord n w).bwOut = s.bwOut := rfl
@[simp] theorem withFetchWord_brBuf (s : State) (n w : Nat) : (s.withFetchWord n w).brBuf = s.brBuf := rfl
@[simp] theorem withFetchWord_brPos (s : State) (n w : Nat) : (s.withFetchWord n w).brPos = s.brPos := rfl
@[simp] theorem withFetchWord_brAcc (s : State) (n w : Nat) : (s.withFetchWord n w).brAcc = s.brAcc := rfl
@[simp] theorem withFetchWord_brCnt (s : State) (n w : Nat) : (s.withFetchWord n w).brCnt = s.brCnt := rfl
@[simp] theorem withFetchWord_wsMax (s : State) (n w : Nat) : (s.withFetchWord n w).wsMax = s.wsMax := rfl
@[simp] theorem withFetchWord_status (s : State) (n w : Nat) : (s.withFetchWord n w).status = s.status := rfl
@[simp] theorem withFetchWord_errField (s : State) (n w : Nat) : (s.withFetchWord n w).errField = s.errField := rfl
@[simp] theorem withFetchWord_errIndex (s : State) (n w : Nat) : (s.withFetchWord n w).errIndex = s.errIndex := rfl
@[simp] theorem withFetchWord_stickyErr (s : State) (n w : Nat) : (s.withFetchWord n w).stickyErr = s.stickyErr := rfl
@[simp] theorem withFetchWord_params (s : State) (n w : Nat) : (s.withFetchWord n w).params = s.params := rfl
@[simp] theorem withFetchWord_inputs (s : State) (n w : Nat) : (s.withFetchWord n w).inputs = .command (tableCommand n w) :: s.inputs := rfl
@[simp] theorem withFetchWord_responses (s : State) (n w : Nat) : (s.withFetchWord n w).responses = s.responses := rfl

/-! #### How a command ends -/

/-- Ending OK, in the spec's numbers (60_exceptions.md R250). -/
theorem complete_eq (s : State) (p : Payload) : complete s p = endedOk s p := rfl

/-- The sticky bit, by the numeric code: set unless it is 4 (60_exceptions.md R252). -/
theorem stickyAfter_eq (old : Bool) (k : RaiseKind) : stickyAfter old k = (old || k.code != 4) := by
  cases k <;> cases old <;> rfl

/-- Ending with a status, in the spec's numbers (60_exceptions.md R250). -/
theorem raiseStatus_eq (s : State) (r : Raise) : raiseStatus s r = endedWith s r.kind.code r.field.id r.index := by
  simp [raiseStatus, endedWith, State.respond, stickyAfter_eq]

@[simp] theorem commit_ok (s t : State) (p : Payload) : commit s (.ok (t, p)) = endedOk t p := rfl

@[simp] theorem commit_error (s : State) (r : Raise) :
    commit s (.error r) = endedWith s r.kind.code r.field.id r.index := raiseStatus_eq s r

@[simp] theorem illegalCommand_eq (s : State) : illegalCommand s = endedWith s 11 0 0 := raiseStatus_eq s _

/-- The two ways a command ends (60_exceptions.md R250). -/
theorem commit_cases (s : State) (r : Result) :
    (∃ t p, r = .ok (t, p) ∧ commit s r = endedOk t p) ∨
      (∃ e, r = .error e ∧ commit s r = endedWith s e.kind.code e.field.id e.index) := by
  rcases r with e | ⟨t, p⟩
  · exact .inr ⟨e, rfl, commit_error s e⟩
  · exact .inl ⟨t, p, rfl, rfl⟩

/-- No raised status is OK, and none exceeds 11 (60_exceptions.md R240). -/
theorem code_range (k : RaiseKind) : 1 ≤ k.code.toNat ∧ k.code.toNat ≤ 11 := by cases k <;> decide

theorem code_ne_zero (k : RaiseKind) : k.code ≠ 0 := by cases k <;> decide

/-- No field identifier exceeds 21 (60_exceptions.md R242). -/
theorem id_range (f : FieldId) : f.id.toNat ≤ 21 := by cases f <;> decide

/-! #### Writer and cursor of an updated state -/

@[simp] theorem withWriter_writer (s : State) (w : Writer) : (s.withWriter w).writer = w := rfl

@[simp] theorem withCursor_writer (s : State) (c : Cursor) : (s.withCursor c).writer = s.writer := rfl

@[simp] theorem withWriter_cursor (s : State) (w : Writer) : (s.withWriter w).cursor = s.cursor := rfl

/-! #### The port -/

@[simp] theorem takeInput_nil (s : State) (h : s.inputs = []) : takeInput s = none := by simp [takeInput, h]

theorem takeInput_cons (s : State) (e : HostEvent) (rest : List HostEvent) (h : s.inputs = e :: rest) :
    takeInput s = some (e, { s with inputs := rest }) := by simp [takeInput, h]

/-- What one step can do (10_state.md R31, 60_exceptions.md R263). -/
theorem step_cases (s : State) :
    (s.inputs = [] ∧ step s = .next s) ∨
      (∃ rest, s.inputs = .reset :: rest ∧ step s = .next (resetBlock { s with inputs := rest })) ∨
      (∃ c rest i, s.inputs = .command c :: rest ∧ decode c.word c.operand = .ok i ∧
        step s = exec i { s with inputs := rest }) ∨
      (∃ c rest e, s.inputs = .command c :: rest ∧ decode c.word c.operand = .error e ∧
        step s = .next (endedWith { s with inputs := rest } 11 0 0)) := by
  rcases h : s.inputs with _ | ⟨(c | _), rest⟩
  · exact .inl ⟨rfl, by simp [step, takeInput_nil s h]⟩
  · rcases hd : decode c.word c.operand with e | i
    · exact .inr (.inr (.inr ⟨c, rest, e, rfl, hd, by simp [step, takeInput_cons s _ _ h, hd]⟩))
    · exact .inr (.inr (.inl ⟨c, rest, i, rfl, hd, by simp [step, takeInput_cons s _ _ h, hd]⟩))
  · exact .inr (.inl ⟨rest, rfl, by simp [step, takeInput_cons s _ _ h]⟩)

end Sys2Proof.Machine
end

