-- ==== Sys2Proof/Laws/Exec.lean ====
section
/-! SUPPORT. The meaning of each command as a commit of its rule, and what each rule can do, each said once. -/

namespace Sys2Proof.Machine

@[simp] theorem exec_bwReset (s : State) :
    exec .bwReset s = .next (endedOk (s.withWriter Writer.empty) .none) := rfl

@[simp] theorem exec_bwPush (s : State) (nb : Nat) (v : Word) :
    exec (.bwPush nb v) s = .next (commit s (bwPushRule nb v s)) := rfl

@[simp] theorem exec_bwFinish (s : State) : exec .bwFinish s = .next (commit s (bwFinishRule s)) := rfl

@[simp] theorem exec_brLoad (s : State) (buf : List Byte) :
    exec (.brLoad buf) s = .next (commit s (brLoadRule buf s)) := rfl

@[simp] theorem exec_brExtract (s : State) (nb : Nat) (count : Word) :
    exec (.brExtract nb count) s = .next (commit s (brExtractRule nb count s)) := rfl

@[simp] theorem exec_wsClear (s : State) : exec .wsClear s = .next (endedOk { s with wsMax := 0 } .none) := rfl

@[simp] theorem exec_wsScan (s : State) (v : Word) :
    exec (.wsScan v) s = .next (endedOk { s with wsMax := scanMax s.wsMax v } .none) := rfl

@[simp] theorem exec_wsWidth (s : State) :
    exec .wsWidth s = .next (endedOk s (.width (width s.wsMax.toNat))) := rfl

@[simp] theorem exec_wsSelect (s : State) (seq : List Word) :
    exec (.wsSelect seq) s = .next (endedOk s (.width (width (seqMax seq).toNat))) := rfl

@[simp] theorem exec_ccEncode (s : State) (version : Byte) (sampleRate : Word) (modelName : List Byte)
    (levels : List (List Word)) :
    exec (.ccEncode version sampleRate modelName levels) s =
      .next (commit s (ccEncodeRule version sampleRate modelName levels s)) := rfl

@[simp] theorem exec_ccDecode (s : State) (buf fallbackName : List Byte) :
    exec (.ccDecode buf fallbackName) s = .next (commit s (ccDecodeRule buf fallbackName s)) := rfl

@[simp] theorem exec_ffEncode (s : State) (sampleRate channelCount : I32) (frames : List Frame) :
    exec (.ffEncode sampleRate channelCount frames) s =
      .next (commit s (ffEncodeRule sampleRate channelCount frames s)) := rfl

@[simp] theorem exec_ffDecode (s : State) (buf : List Byte) :
    exec (.ffDecode buf) s = .next (commit s (ffDecodeRule buf s)) := rfl

@[simp] theorem exec_stRead (s : State) : exec .stRead s = .next (endedOk s (.snapshot s.snapshot)) := rfl

/-- What BW_PUSH's rule can do (40_bitwriter.md R101). -/
theorem bwPushRule_cases (nb : Nat) (v : Word) (s : State) :
    ((nb < 1 ∨ 32 < nb) ∧ bwPushRule nb v s = .error ⟨.unsupportedBitWidth, .nb, 0⟩) ∨
      (1 ≤ nb ∧ nb ≤ 32 ∧ 2 ^ nb ≤ v.toNat ∧ s.params.ovfPolicy = .reject ∧
        bwPushRule nb v s = .error ⟨.valueOutOfRange, .arg, 0⟩) ∨
      (1 ≤ nb ∧ nb ≤ 32 ∧ (v.toNat < 2 ^ nb ∨ s.params.ovfPolicy = .mask) ∧
        exceeds s.params.bufCap (s.writer.push nb (v.toNat % 2 ^ nb)).out.length = true ∧
        bwPushRule nb v s = .error ⟨.capacityExceeded, .buffer, 0⟩) ∨
      (1 ≤ nb ∧ nb ≤ 32 ∧ (v.toNat < 2 ^ nb ∨ s.params.ovfPolicy = .mask) ∧
        exceeds s.params.bufCap (s.writer.push nb (v.toNat % 2 ^ nb)).out.length = false ∧
        bwPushRule nb v s = .ok (s.withWriter (s.writer.push nb (v.toNat % 2 ^ nb)), .none)) := by
  by_cases hw : nb < 1 ∨ 32 < nb
  · exact .inl ⟨hw, by simp [bwPushRule, checkWidth_bad nb hw]⟩
  · have hok := (checkWidth_ok_iff nb).mpr ⟨by omega, by omega⟩
    by_cases ha : v.toNat < 2 ^ nb ∨ s.params.ovfPolicy = .mask
    · have hf := fitValue_accepted s.params.ovfPolicy nb v.toNat .arg 0 ha
      cases hx : exceeds s.params.bufCap (s.writer.push nb (v.toNat % 2 ^ nb)).out.length with
      | true =>
        exact .inr (.inr (.inl ⟨by omega, by omega, ha, rfl, by
          simp only [bwPushRule, hok, hf, except_ok_bind, hx, check_true, except_error_bind]⟩))
      | false =>
        exact .inr (.inr (.inr ⟨by omega, by omega, ha, rfl, by
          simp only [bwPushRule, hok, hf, except_ok_bind, hx, check_false, except_pure]⟩))
    · rcases fitValue_cases s.params.ovfPolicy nb v.toNat .arg 0 with ⟨h1, _⟩ | ⟨_, h2, _⟩ | ⟨h1, h2, h3⟩
      · exact absurd (.inl h1) ha
      · exact absurd (.inr h2) ha
      · exact .inr (.inl ⟨by omega, by omega, h1, h2, by
          simp only [bwPushRule, hok, h3, except_ok_bind, except_error_bind]⟩)

/-- What BW_FINISH's rule can do (40_bitwriter.md R103). -/
theorem bwFinishRule_cases (s : State) :
    (exceeds s.params.bufCap s.writer.flush.length = true ∧
      bwFinishRule s = .error ⟨.capacityExceeded, .buffer, 0⟩) ∨
      (exceeds s.params.bufCap s.writer.flush.length = false ∧
        bwFinishRule s = .ok (s.withWriter Writer.empty, .bytes s.writer.flush)) := by
  cases hx : exceeds s.params.bufCap s.writer.flush.length with
  | true => exact .inl ⟨rfl, by simp only [bwFinishRule, hx, check_true, except_error_bind]⟩
  | false => exact .inr ⟨rfl, by simp only [bwFinishRule, hx, check_false, except_ok_bind, except_pure]⟩

/-- What BR_LOAD's rule can do (41_bitreader.md R120). -/
theorem brLoadRule_cases (buf : List Byte) (s : State) :
    (exceeds s.params.bufCap buf.length = true ∧
      brLoadRule buf s = .error ⟨.capacityExceeded, .buffer, 0⟩) ∨
      (exceeds s.params.bufCap buf.length = false ∧
        brLoadRule buf s = .ok ({ s with brBuf := buf }.withCursor Cursor.start, .none)) := by
  cases hx : exceeds s.params.bufCap buf.length with
  | true => exact .inl ⟨rfl, by simp only [brLoadRule, hx, check_true, except_error_bind]⟩
  | false => exact .inr ⟨rfl, by simp only [brLoadRule, hx, check_false, except_ok_bind, except_pure]⟩

/-- What BR_EXTRACT's rule can do (41_bitreader.md R122). -/
theorem brExtractRule_cases (nb : Nat) (count : Word) (s : State) :
    ((nb < 1 ∨ 32 < nb) ∧ brExtractRule nb count s = .error ⟨.unsupportedBitWidth, .nb, 0⟩) ∨
      (1 ≤ nb ∧ nb ≤ 32 ∧ exceeds s.params.seqCap count.toNat = true ∧
        brExtractRule nb count s = .error ⟨.capacityExceeded, .count, 0⟩) ∨
      (1 ≤ nb ∧ nb ≤ 32 ∧ exceeds s.params.seqCap count.toNat = false ∧
        brExtractRule nb count s =
          .ok (s.withCursor (extractValues s.brBuf nb count.toNat s.cursor).2,
            .values (toWords (extractValues s.brBuf nb count.toNat s.cursor).1))) := by
  by_cases hw : nb < 1 ∨ 32 < nb
  · exact .inl ⟨hw, by simp [brExtractRule, checkWidth_bad nb hw]⟩
  · have hok := (checkWidth_ok_iff nb).mpr ⟨by omega, by omega⟩
    cases hx : exceeds s.params.seqCap count.toNat with
    | true =>
      exact .inr (.inl ⟨by omega, by omega, rfl, by
        simp only [brExtractRule, hok, except_ok_bind, hx, check_true, except_error_bind]⟩)
    | false =>
      exact .inr (.inr ⟨by omega, by omega, rfl, by
        simp only [brExtractRule, hok, except_ok_bind, hx, check_false, except_pure]⟩)

/-- A container command keeps the state and responds, or raises (10_state.md R41). -/
theorem ccEncodeRule_cases (version : Byte) (sampleRate : Word) (modelName : List Byte) (levels : List (List Word))
    (s : State) :
    (∃ e, encodeContainer s.params.bufCap version sampleRate modelName levels = .error e ∧
      ccEncodeRule version sampleRate modelName levels s = .error e) ∨
      (∃ out, encodeContainer s.params.bufCap version sampleRate modelName levels = .ok out ∧
        ccEncodeRule version sampleRate modelName levels s = .ok (s, .bytes out)) := by
  rcases h : encodeContainer s.params.bufCap version sampleRate modelName levels with e | out
  · exact .inl ⟨e, rfl, by simp only [ccEncodeRule, h, except_error_bind]⟩
  · exact .inr ⟨out, rfl, by simp only [ccEncodeRule, h, except_ok_bind, except_pure]⟩

theorem ccDecodeRule_cases (buf fallbackName : List Byte) (s : State) :
    (∃ e, decodeContainer s.params buf fallbackName = .error e ∧ ccDecodeRule buf fallbackName s = .error e) ∨
      (∃ c, decodeContainer s.params buf fallbackName = .ok c ∧
        ccDecodeRule buf fallbackName s = .ok (s, .container c)) := by
  rcases h : decodeContainer s.params buf fallbackName with e | c
  · exact .inl ⟨e, rfl, by simp only [ccDecodeRule, h, except_error_bind]⟩
  · exact .inr ⟨c, rfl, by simp only [ccDecodeRule, h, except_ok_bind, except_pure]⟩

theorem ffEncodeRule_cases (sampleRate channelCount : I32) (frames : List Frame) (s : State) :
    (∃ e, encodeFramed s.params sampleRate channelCount frames = .error e ∧
      ffEncodeRule sampleRate channelCount frames s = .error e) ∨
      (∃ out, encodeFramed s.params sampleRate channelCount frames = .ok out ∧
        ffEncodeRule sampleRate channelCount frames s = .ok (s, .bytes out)) := by
  rcases h : encodeFramed s.params sampleRate channelCount frames with e | out
  · exact .inl ⟨e, rfl, by simp only [ffEncodeRule, h, except_error_bind]⟩
  · exact .inr ⟨out, rfl, by simp only [ffEncodeRule, h, except_ok_bind, except_pure]⟩

theorem ffDecodeRule_cases (buf : List Byte) (s : State) :
    (∃ e, decodeFramed s.params buf = .error e ∧ ffDecodeRule buf s = .error e) ∨
      (∃ c, decodeFramed s.params buf = .ok c ∧ ffDecodeRule buf s = .ok (s, .framed c)) := by
  rcases h : decodeFramed s.params buf with e | c
  · exact .inl ⟨e, rfl, by simp only [ffDecodeRule, h, except_error_bind]⟩
  · exact .inr ⟨c, rfl, by simp only [ffDecodeRule, h, except_ok_bind, except_pure]⟩

/-- A decoding that raises ends CC_DECODE with its status (60_exceptions.md R250). -/
theorem exec_ccDecode_error (s : State) (buf fallbackName : List Byte) (e : Raise)
    (h : decodeContainer s.params buf fallbackName = .error e) :
    exec (.ccDecode buf fallbackName) s = .next (endedWith s e.kind.code e.field.id e.index) := by
  simp only [exec_ccDecode, ccDecodeRule, h, except_error_bind, commit_error]

/-- A decoding that raises ends FF_DECODE with its status (60_exceptions.md R250). -/
theorem exec_ffDecode_error (s : State) (buf : List Byte) (e : Raise) (h : decodeFramed s.params buf = .error e) :
    exec (.ffDecode buf) s = .next (endedWith s e.kind.code e.field.id e.index) := by
  simp only [exec_ffDecode, ffDecodeRule, h, except_error_bind, commit_error]

end Sys2Proof.Machine
end

