-- ==== Sys2Proof/Laws/PerInstr.lean ====
section
/-! SUPPORT. Statements about every command, one lemma for each constructor of `Instr`. -/

/-- A well-formed command survives its encoding (30_encoding.md R84, R85). -/
def Sys2Proof.Laws.EncodeRoundTrip.Statement (i : Sys2Proof.Instr) : Prop :=
  i.wellFormed = true → Sys2Proof.decode (Sys2Proof.encode i).word (Sys2Proof.encode i).operand = .ok i

namespace Sys2Proof.Laws.EncodeRoundTrip

theorem bwReset : Statement .bwReset := fun _ =>
  decode_commandWord _ _ _ _ (by decide) (.inr rfl) rfl

theorem bwPush (nb : Nat) (v : Word) : Statement (.bwPush nb v) := fun h =>
  decode_commandWord _ _ _ _ (by simpa [Instr.wellFormed] using h) (.inl rfl) rfl

theorem bwFinish : Statement .bwFinish := fun _ =>
  decode_commandWord _ _ _ _ (by decide) (.inr rfl) rfl

theorem brLoad (buf : List Byte) : Statement (.brLoad buf) := fun _ =>
  decode_commandWord _ _ _ _ (by decide) (.inr rfl) rfl

theorem brExtract (nb : Nat) (count : Word) : Statement (.brExtract nb count) := fun h =>
  decode_commandWord _ _ _ _ (by simpa [Instr.wellFormed] using h) (.inl rfl) rfl

theorem wsClear : Statement .wsClear := fun _ =>
  decode_commandWord _ _ _ _ (by decide) (.inr rfl) rfl

theorem wsScan (v : Word) : Statement (.wsScan v) := fun _ =>
  decode_commandWord _ _ _ _ (by decide) (.inr rfl) rfl

theorem wsWidth : Statement .wsWidth := fun _ =>
  decode_commandWord _ _ _ _ (by decide) (.inr rfl) rfl

theorem wsSelect (seq : List Word) : Statement (.wsSelect seq) := fun _ =>
  decode_commandWord _ _ _ _ (by decide) (.inr rfl) rfl

theorem ccEncode (version : Byte) (sampleRate : Word) (modelName : List Byte) (levels : List (List Word)) : Statement (.ccEncode version sampleRate modelName levels) := fun _ =>
  decode_commandWord _ _ _ _ (by decide) (.inr rfl) rfl

theorem ccDecode (buf : List Byte) (fallbackName : List Byte) : Statement (.ccDecode buf fallbackName) := fun _ =>
  decode_commandWord _ _ _ _ (by decide) (.inr rfl) rfl

theorem ffEncode (sampleRate : I32) (channelCount : I32) (frames : List Frame) : Statement (.ffEncode sampleRate channelCount frames) := fun _ =>
  decode_commandWord _ _ _ _ (by decide) (.inr rfl) rfl

theorem ffDecode (buf : List Byte) : Statement (.ffDecode buf) := fun _ =>
  decode_commandWord _ _ _ _ (by decide) (.inr rfl) rfl

theorem stRead : Statement .stRead := fun _ =>
  decode_commandWord _ _ _ _ (by decide) (.inr rfl) rfl

end Sys2Proof.Laws.EncodeRoundTrip
end

