-- ==== Sys2Proof/Laws/Writer.lean ====
section
/-! SUPPORT. What the writer's shared operations do: the drain loop, one push, and the flush, each said once. -/

namespace Sys2Proof.Machine

structure DrainSpec (k n t : Nat) : Prop where
  stream : bitsOfBytes (drain k n t).1 ++ bits (drain k n t).2 (n - 8 * k) = bits t n
  rest_lt : (drain k n t).2 < 2 ^ (n - 8 * k)
  length : (drain k n t).1.length = k

theorem drain_spec (k n t : Nat) (hk : 8 * k ≤ n) (ht : t < 2 ^ n) : DrainSpec k n t := by
  induction k generalizing n t with
  | zero => exact ⟨by simp [drain], by simpa [drain] using ht, rfl⟩
  | succ k ih =>
    have hm : t &&& mask (n - 8) = t % 2 ^ (n - 8) := land_mask _ _
    obtain ⟨h1, h2, h3⟩ := ih (n - 8) (t &&& mask (n - 8)) (by omega) (by rw [hm]; exact Nat.mod_lt _ (by positivity))
    have hn : n - 8 - 8 * k = n - 8 * (k + 1) := by omega
    rw [hn] at h1 h2
    refine ⟨?_, ?_, ?_⟩
    · simp only [drain, bitsOfBytes_cons, List.append_assoc, h1, BitVec.toNat_ofNat]
      rw [bits_mod, hm, bits_mod, show n = 8 + (n - 8) by omega, bits_add t 8]
      simp
    · exact h2
    · simp [drain, h3]

def Writer.bits (w : Writer) : List Bool := bitsOfBytes w.out ++ Machine.bits w.acc.toNat w.cnt.toNat

def Writer.Holds (w : Writer) : Prop := w.acc.toNat < 2 ^ w.cnt.toNat

theorem or_shift_lt (a b m n : Nat) (ha : a < 2 ^ m) (hb : b < 2 ^ n) : (a <<< n) ||| b < 2 ^ (m + n) := by
  refine Nat.or_lt_two_pow ?_ (lt_of_lt_of_le hb (Nat.pow_le_pow_right (by omega) (by omega)))
  rw [Nat.shiftLeft_eq, pow_add]
  exact Nat.mul_lt_mul_of_pos_right ha (by positivity)

structure PushSpec (w : Writer) (nb v : Nat) : Prop where
  bits : (w.push nb v).bits = w.bits ++ Machine.bits v nb
  cnt : (w.push nb v).cnt.toNat = (w.cnt.toNat + nb) % 8
  holds : (w.push nb v).Holds
  appends : w.out <+: (w.push nb v).out
  length : (w.push nb v).out.length = w.out.length + (w.cnt.toNat + nb) / 8

theorem push_spec (w : Writer) (nb v : Nat) (hw : w.Holds) (hv : v < 2 ^ nb) : PushSpec w nb v := by
  obtain ⟨h1, h2, h3⟩ := drain_spec ((w.cnt.toNat + nb) / 8) (w.cnt.toNat + nb) ((w.acc.toNat <<< nb) ||| v)
    (by omega) (or_shift_lt _ _ _ _ hw hv)
  have hn : w.cnt.toNat + nb - 8 * ((w.cnt.toNat + nb) / 8) = (w.cnt.toNat + nb) % 8 := by omega
  rw [hn] at h1 h2
  have hc : (w.push nb v).cnt.toNat = (w.cnt.toNat + nb) % 8 := by
    simp [Writer.push]
  have ha : (w.push nb v).acc.toNat =
      (drain ((w.cnt.toNat + nb) / 8) (w.cnt.toNat + nb) ((w.acc.toNat <<< nb) ||| v)).2 := by
    have hlt : (2 : Nat) ^ ((w.cnt.toNat + nb) % 8) ≤ 2 ^ 7 := Nat.pow_le_pow_right (by omega) (by omega)
    simp only [Writer.push, BitVec.toNat_ofNat]
    exact Nat.mod_eq_of_lt (by omega)
  refine ⟨?_, hc, ?_, ?_, ?_⟩
  · rw [Writer.bits, hc, ha]
    rw [show (w.push nb v).out = w.out ++
      (drain ((w.cnt.toNat + nb) / 8) (w.cnt.toNat + nb) ((w.acc.toNat <<< nb) ||| v)).1 from rfl,
      bitsOfBytes_append, List.append_assoc, h1, bits_join _ _ _ _ hv, Writer.bits, List.append_assoc]
  · rw [Writer.Holds, hc, ha]; exact h2
  · exact List.prefix_append _ _
  · simp [Writer.push, h3]

theorem bytesOf_bits_short (a c : Nat) (hc0 : 0 < c) (hc : c ≤ 8) :
    bytesOf (bits a c) = [BitVec.ofNat 8 (a <<< (8 - c))] := by
  have hk : ceildiv8 c = 1 := by rw [ceildiv8_eq]; omega
  have hz : List.replicate (8 - c) false = bits 0 (8 - c) := by
    generalize 8 - c = n
    induction n with
    | zero => rfl
    | succ n ih => simp [bits, List.replicate_succ, ih]
  have hp : padBits (bits a c) = bits (a <<< (8 - c)) 8 := by
    have := bits_join a 0 c (8 - c) (by positivity)
    rw [Nat.or_zero, show c + (8 - c) = 8 by omega] at this
    rw [padBits, bits_length, hk, this, ← hz]
  rw [bytesOf, bits_length, hk, hp]
  simp only [groupBytes]
  rw [List.take_of_length_le (by simp), natOfBits_bits_mod]
  congr 1
  apply BitVec.eq_of_toNat_eq
  simp

theorem flush_eq (w : Writer) : w.flush = bytesOf w.bits := by
  rw [Writer.bits, bytesOf_bitsOfBytes_append, Writer.flush]
  by_cases h : 0 < w.cnt.toNat
  · rw [if_pos h, bytesOf_bits_short _ _ h (by omega)]
  · have h0 : w.cnt.toNat = 0 := by omega
    rw [if_neg h, h0]
    simp [bits, bytesOf, groupBytes, ceildiv8]

end Sys2Proof.Machine
end

