-- ==== Sys2Proof/Laws/Reader.lean ====
section
/-! SUPPORT. What the reader's shared operations do: the refill loop, one value step and a run of them, each said once, and how a cursor relates to the state's reader registers. -/

namespace Sys2Proof.Machine

theorem bits_eq_take (v m n : Nat) (h : n ≤ m) : bits (v >>> (m - n)) n = (bits v m).take n := by
  conv_rhs => rw [show m = n + (m - n) by omega, bits_add]
  rw [List.take_left' (by simp)]

theorem bits_eq_drop (v m n : Nat) (h : n ≤ m) : bits v (m - n) = (bits v m).drop n := by
  conv_rhs => rw [show m = n + (m - n) by omega, bits_add]
  rw [List.drop_left' (by simp)]

theorem bits_zero (n : Nat) : bits 0 n = List.replicate n false := by
  induction n with
  | zero => rfl
  | succ n ih => simp [bits, List.replicate_succ, ih]

/-- The stream's bits from `p` on, as a list. -/
theorem streamBits_eq (buf : List Byte) (p n : Nat) :
    (List.range n).map (fun k => streamBit buf (p + k)) =
      ((bitsOfBytes buf).drop p ++ List.replicate n false).take n := by
  apply List.ext_getElem?
  intro k
  by_cases hk : k < n
  · rw [List.getElem?_map, List.getElem?_range hk, Option.map_some, List.getElem?_take_of_lt hk, streamBit_eq]
    by_cases hl : k < ((bitsOfBytes buf).drop p).length
    · rw [List.getElem?_append_left hl, List.getElem?_drop]
      rw [List.length_drop] at hl
      rw [List.getD_eq_getElem?_getD, List.getElem?_eq_getElem (by omega)]; rfl
    · rw [List.getElem?_append_right (by omega), List.getElem?_replicate, if_pos (by omega)]
      rw [List.length_drop] at hl
      rw [List.getD_eq_getElem?_getD, List.getElem?_eq_none (by omega)]; rfl
  · simp [hk]

/-- The cursor `c` stands at bit position `p` of the buffer's stream and holds the bits after it. -/
structure CursorAt (buf : List Byte) (c : Cursor) (p : Nat) : Prop where
  pos_le : c.pos ≤ buf.length
  position : p + c.cnt = 8 * c.pos
  acc_lt : c.acc < 2 ^ c.cnt
  stream : bits c.acc c.cnt = ((bitsOfBytes buf).drop p).take c.cnt

theorem cursorAt_start (buf : List Byte) : CursorAt buf Cursor.start 0 :=
  ⟨Nat.zero_le _, rfl, by simp [Cursor.start], by simp [Cursor.start, bits]⟩

theorem bitsOfBytes_drop (buf : List Byte) (k : Nat) : (bitsOfBytes buf).drop (8 * k) = bitsOfBytes (buf.drop k) := by
  induction k generalizing buf with
  | zero => simp
  | succ k ih =>
    cases buf with
    | nil => simp
    | cons b buf =>
      rw [bitsOfBytes_cons, List.drop_succ_cons, ← ih, show 8 * (k + 1) = (bits b.toNat 8).length + 8 * k by simp; omega,
        List.drop_append, List.drop_of_length_le (by omega)]
      simp

/-- One byte refilled. -/
theorem cursorAt_refillByte (buf rest : List Byte) (b : Byte) (c : Cursor) (p : Nat) (hc : CursorAt buf c p)
    (hrest : buf.drop c.pos = b :: rest) :
    CursorAt buf ⟨c.pos + 1, (c.acc <<< 8) ||| b.toNat, c.cnt + 8⟩ p := by
  obtain ⟨h1, h2, h3, h4⟩ := hc
  have hlen : c.pos < buf.length := by
    by_contra h
    rw [List.drop_of_length_le (by omega)] at hrest
    cases hrest
  refine ⟨hlen, by simp; omega, or_shift_lt _ _ _ _ h3 b.isLt, ?_⟩
  have hd : ((bitsOfBytes buf).drop p).drop c.cnt = bits b.toNat 8 ++ bitsOfBytes rest := by
    rw [List.drop_drop, h2, bitsOfBytes_drop, hrest, bitsOfBytes_cons]
  simp only
  rw [bits_join _ _ _ _ b.isLt, h4, List.take_add, hd, List.take_left' (by simp)]

/-- The refill loop keeps the bit position, and ends with `nb` bits buffered or the input used up (41_bitreader.md R123). -/
theorem refill_spec (buf : List Byte) (nb p : Nat) (rest : List Byte) (c : Cursor) (hc : CursorAt buf c p)
    (hrest : buf.drop c.pos = rest) (hcnt : c.cnt ≤ nb + 7) :
    CursorAt buf (refill nb rest c) p ∧ (refill nb rest c).cnt ≤ nb + 7 ∧
      (nb ≤ (refill nb rest c).cnt ∨ (refill nb rest c).pos = buf.length) := by
  induction rest generalizing c with
  | nil =>
    have : buf.length ≤ c.pos := List.drop_eq_nil_iff.mp hrest
    exact ⟨hc, hcnt, .inr (le_antisymm hc.pos_le this)⟩
  | cons b rest ih =>
    rw [refill]
    split
    · refine ih _ (cursorAt_refillByte buf rest b c p hc hrest) ?_ (by simp; omega)
      rw [← List.drop_drop, hrest]; rfl
    · exact ⟨hc, hcnt, .inl (by omega)⟩

/-- One value step at bit position `p`: the value that stands there in the zero-extended stream, and the cursor behind it, but
not behind the end (41_bitreader.md R123, R124). -/
theorem valueStep_spec (buf : List Byte) (nb p : Nat) (c : Cursor) (hc : CursorAt buf c p) (hcnt : c.cnt ≤ nb + 7) :
    (valueStep buf nb c).1 = streamValue buf p nb ∧
      CursorAt buf (valueStep buf nb c).2 (min (p + nb) (8 * buf.length)) ∧ (valueStep buf nb c).2.cnt ≤ 7 := by
  obtain ⟨⟨h1, h2, h3, h4⟩, h5, h6⟩ := refill_spec buf nb p _ c hc rfl hcnt
  rw [streamValue, streamBits_eq, valueStep]
  generalize refill nb (buf.drop c.pos) c = f at *
  have hlen : ((bitsOfBytes buf).drop p).length = 8 * buf.length - p := by simp
  by_cases hn : nb ≤ f.cnt
  · simp only [if_pos hn]
    have hr : f.acc >>> (f.cnt - nb) < 2 ^ nb := by
      rw [Nat.shiftRight_eq_div_pow]
      apply Nat.div_lt_of_lt_mul
      rwa [← pow_add, Nat.sub_add_cancel hn]
    have hb : bits (f.acc >>> (f.cnt - nb)) nb = ((bitsOfBytes buf).drop p).take nb := by
      rw [bits_eq_take _ _ _ hn, h4, List.take_take, Nat.min_eq_left hn]
    refine ⟨?_, ⟨h1, by simp; omega, ?_, ?_⟩, by simp; omega⟩
    · rw [List.take_append_of_le_length (by omega), ← hb, natOfBits_bits_mod, Nat.mod_eq_of_lt hr]
    · simp only [land_mask]; exact Nat.mod_lt _ (by positivity)
    · simp only [land_mask]
      rw [bits_mod, bits_eq_drop _ _ _ hn, h4, List.drop_take, List.drop_drop,
        show min (p + nb) (8 * buf.length) = p + nb by omega]
  · have hpos : f.pos = buf.length := h6.resolve_left hn
    simp only [if_neg hn]
    refine ⟨?_, ⟨h1, by simp; omega, by simp, by simp [bits]⟩, by simp⟩
    have hd : (bitsOfBytes buf).drop p = bits f.acc f.cnt := by
      rw [h4, List.take_of_length_le (by omega)]
    have hs : f.acc <<< (nb - f.cnt) < 2 ^ nb := by
      have := or_shift_lt f.acc 0 f.cnt (nb - f.cnt) h3 (by positivity)
      rwa [Nat.or_zero, show f.cnt + (nb - f.cnt) = nb by omega] at this
    have hj := bits_join f.acc 0 f.cnt (nb - f.cnt) (by positivity)
    rw [Nat.or_zero, show f.cnt + (nb - f.cnt) = nb by omega, bits_zero] at hj
    rw [hd, List.take_append, bits_length, List.take_of_length_le (by simp; omega), List.take_replicate,
      show min (nb - f.cnt) nb = nb - f.cnt by omega, ← hj, natOfBits_bits_mod, Nat.mod_eq_of_lt hs]

/-- The values at width `nb` from bit position `p` on, past the end zeros (41_bitreader.md R121, R124). -/
theorem streamValue_past_end (buf : List Byte) (p nb : Nat) (h : 8 * buf.length ≤ p) : streamValue buf p nb = 0 := by
  rw [streamValue, streamBits_eq, List.drop_of_length_le (by simpa using h), List.nil_append, List.take_replicate,
    Nat.min_self, ← bits_zero, natOfBits_bits_mod, Nat.zero_mod]

/-- `count` value steps from bit position `p` (41_bitreader.md R124). -/
theorem extractValues_spec (buf : List Byte) (nb count p : Nat) (c : Cursor) (hc : CursorAt buf c p) (hcnt : c.cnt ≤ 7) :
    (extractValues buf nb count c).1 = (List.range count).map (fun k => streamValue buf (p + k * nb) nb) ∧
      CursorAt buf (extractValues buf nb count c).2 (min (p + count * nb) (8 * buf.length)) ∧
      (extractValues buf nb count c).2.cnt ≤ 7 := by
  induction count generalizing p c with
  | zero =>
    have : p ≤ 8 * buf.length := by have := hc.position; have := hc.pos_le; omega
    simp only [extractValues, List.range_zero, List.map_nil, Nat.zero_mul, Nat.add_zero, Nat.min_eq_left this]
    exact ⟨trivial, hc, hcnt⟩
  | succ k ih =>
    obtain ⟨h1, h2, h3⟩ := valueStep_spec buf nb p c hc (by omega)
    obtain ⟨g1, g2, g3⟩ := ih _ _ h2 h3
    simp only [extractValues]
    refine ⟨?_, ?_, g3⟩
    · rw [h1, g1, List.range_succ_eq_map, List.map_cons, List.map_map, Nat.zero_mul, Nat.add_zero]
      congr 1
      refine List.map_congr_left fun j _ => ?_
      rw [Function.comp_apply, Nat.succ_mul j nb]
      by_cases hp : p + nb ≤ 8 * buf.length
      · rw [Nat.min_eq_left hp]; congr 1; omega
      · rw [streamValue_past_end _ _ _ (by rw [Nat.min_eq_right (by omega)]; omega), streamValue_past_end _ _ _ (by omega)]
    · convert g2 using 1
      rw [Nat.succ_mul]; omega

theorem unpack_eq (buf : List Byte) (count nb : Nat) :
    unpack buf count nb = (List.range count).map fun k => streamValue buf (k * nb) nb := by
  rw [unpack]
  simpa using (extractValues_spec buf nb count 0 _ (cursorAt_start buf) (by simp [Cursor.start])).1

theorem bits_byte_low (buf : List Byte) (k c : Nat) (hk : k < buf.length) (hc : c ≤ 8) :
    bits ((buf.getD k 0).toNat % 2 ^ c) c = ((bitsOfBytes buf).drop (8 * (k + 1) - c)).take c := by
  have hget : buf.getD k 0 = buf[k] := by
    rw [List.getD_eq_getElem?_getD, List.getElem?_eq_getElem hk]; rfl
  have hdrop : buf.drop k = buf[k] :: buf.drop (k + 1) := List.drop_eq_getElem_cons hk
  rw [bits_mod, hget, show 8 * (k + 1) - c = 8 * k + (8 - c) by omega, ← List.drop_drop, bitsOfBytes_drop, hdrop,
    bitsOfBytes_cons, List.drop_append, bits_length, show 8 - c - 8 = 0 by omega, List.drop_zero,
    ← bits_eq_drop _ _ _ (by omega : 8 - c ≤ 8), show 8 - (8 - c) = c by omega, List.take_left' (by simp)]

/-- R35 says what `CursorAt` says, at the bit position of R36. -/
theorem cursorAt_of_readerHolds (s : State) (h : ReaderHolds s) : CursorAt s.brBuf s.cursor s.brBitPos := by
  obtain ⟨h1, h2, h3⟩ := h
  have hc : s.brCnt.toNat ≤ 7 := by have := s.brCnt.isLt; omega
  by_cases h0 : 0 < s.brCnt.toNat
  · obtain ⟨g1, g2⟩ := h3 h0
    refine ⟨h1, ?_, h2, ?_⟩
    · simp only [State.brBitPos, State.cursor]; omega
    · have := bits_byte_low s.brBuf (s.brPos - 1) s.brCnt.toNat (by omega) (by omega)
      rw [show s.brPos - 1 + 1 = s.brPos by omega, ← land_mask, ← g2] at this
      exact this
  · have hz : s.brCnt.toNat = 0 := by omega
    refine ⟨h1, ?_, h2, ?_⟩
    · simp only [State.brBitPos, State.cursor]; omega
    · simp [State.cursor, hz, bits]

theorem bits_inj (a b n : Nat) (ha : a < 2 ^ n) (hb : b < 2 ^ n) (h : bits a n = bits b n) : a = b := by
  have := congrArg natOfBits h
  rwa [natOfBits_bits_mod, natOfBits_bits_mod, Nat.mod_eq_of_lt ha, Nat.mod_eq_of_lt hb] at this

/-- A cursor that stands in the buffer and holds at most 7 bits is one that R35 allows. -/
theorem readerHolds_withCursor (s : State) (c : Cursor) (p : Nat) (h : CursorAt s.brBuf c p) (hc : c.cnt ≤ 7) :
    ReaderHolds (s.withCursor c) ∧ (s.withCursor c).brBitPos = p := by
  have hcnt : (s.withCursor c).brCnt.toNat = c.cnt := by simp [State.withCursor]; omega
  have hlt : (2 : Nat) ^ c.cnt ≤ 2 ^ 7 := Nat.pow_le_pow_right (by omega) hc
  have hacc : (s.withCursor c).brAcc.toNat = c.acc := by
    simp only [State.withCursor, BitVec.toNat_ofNat]
    exact Nat.mod_eq_of_lt (lt_of_lt_of_le h.acc_lt hlt)
  have hpos := h.position
  have hbuf : (s.withCursor c).brBuf = s.brBuf := rfl
  have hbp : (s.withCursor c).brPos = c.pos := rfl
  refine ⟨⟨h.pos_le, by rw [hacc, hcnt]; exact h.acc_lt, fun h0 => ?_⟩, by rw [State.brBitPos, hcnt, hbp]; omega⟩
  rw [hcnt] at h0
  have hp1 : 1 ≤ c.pos := by omega
  refine ⟨hp1, ?_⟩
  rw [hacc, hcnt, hbuf, hbp, land_mask]
  refine bits_inj _ _ c.cnt h.acc_lt (Nat.mod_lt _ (by positivity)) ?_
  rw [bits_byte_low _ _ _ (by have := h.pos_le; omega) (by omega), show c.pos - 1 + 1 = c.pos by omega, h.stream]
  congr 2; omega

end Sys2Proof.Machine
end

