-- ==== Sys2Proof/Laws/Width.lean ====
section
/-! SUPPORT. What the width function and the running maximum do. -/

namespace Sys2Proof.Machine

theorem width_le_iff (m w : Nat) (hw : 1 ≤ w) : width m ≤ w ↔ m < 2 ^ w := by
  rw [width, Nat.max_le, bitlen_le_iff]; simp [hw]

theorem one_le_width (m : Nat) : 1 ≤ width m := Nat.le_max_left _ _

theorem lt_two_pow_width (m : Nat) : m < 2 ^ width m := (width_le_iff m _ (one_le_width m)).mp le_rfl

theorem width_eq_one_or (m : Nat) : width m = 1 ∨ 2 ^ (width m - 1) ≤ m := by
  by_cases h : width m = 1
  · exact .inl h
  · have h1 := one_le_width m
    refine .inr (Nat.le_of_not_lt fun hlt => ?_)
    have := (width_le_iff m (width m - 1) (by omega)).mpr hlt
    omega

theorem width_word_le (v : Word) : width v.toNat ≤ 32 := (width_le_iff _ _ (by omega)).mpr v.isLt

theorem scanMax_toNat (m v : Word) : (scanMax m v).toNat = max m.toNat v.toNat := by
  unfold scanMax
  split
  · rename_i h; have := BitVec.lt_def.mp h; omega
  · rename_i h; have : ¬m.toNat < v.toNat := fun g => h (BitVec.lt_def.mpr g)
    omega

theorem foldl_scanMax_toNat (seq : List Word) (m : Word) :
    (∀ v ∈ seq, v.toNat ≤ (seq.foldl scanMax m).toNat) ∧ m.toNat ≤ (seq.foldl scanMax m).toNat ∧
      ((seq.foldl scanMax m).toNat = m.toNat ∨ ∃ v ∈ seq, (seq.foldl scanMax m).toNat = v.toNat) := by
  induction seq generalizing m with
  | nil => simp
  | cons v seq ih =>
    obtain ⟨h1, h2, h3⟩ := ih (scanMax m v)
    rw [scanMax_toNat] at h2 h3
    simp only [List.foldl_cons, List.mem_cons]
    refine ⟨?_, by omega, ?_⟩
    · rintro u (rfl | hu)
      · omega
      · exact h1 u hu
    · rcases h3 with h3 | ⟨u, hu, h3⟩
      · rcases Nat.le_total v.toNat m.toNat with hle | hle
        · exact .inl (by omega)
        · exact .inr ⟨v, .inl rfl, by omega⟩
      · exact .inr ⟨u, .inr hu, h3⟩

/-- Every value is at most the maximum, and the maximum is 0 or one of the values (42_widthselector.md R144). -/
theorem seqMax_spec (seq : List Word) :
    (∀ v ∈ seq, v.toNat ≤ (seqMax seq).toNat) ∧ ((seqMax seq).toNat = 0 ∨ ∃ v ∈ seq, (seqMax seq).toNat = v.toNat) := by
  obtain ⟨h1, _, h3⟩ := foldl_scanMax_toNat seq 0
  exact ⟨h1, h3⟩

@[simp] theorem toWords_fromWords (seq : List Word) : toWords (fromWords seq) = seq := by
  simp [toWords, fromWords, Function.comp_def]

@[simp] theorem fromWords_length (seq : List Word) : (fromWords seq).length = seq.length := by simp [fromWords]
@[simp] theorem toWords_length (seq : List Nat) : (toWords seq).length = seq.length := by simp [toWords]

end Sys2Proof.Machine
end

