-- ==== Sys2Proof/Machine/Assembler.lean ====
section
/-! DEFINITION. The assembler text of a command, one line for each (30_encoding.md R89), as a list of characters. Where R89
allows two writings of a number or a buffer, log entry 6 says which one stands here. -/

namespace Sys2Proof.Machine

/-- The quotation mark around a text or a hexadecimal buffer. -/
def quoteChar : Char := Char.ofNat 34

/-- A text between separators: `a, b, c`. -/
def commaList (parts : List (List Char)) : List Char :=
  List.intercalate ", ".toList parts

/-- A number in decimal (30_encoding.md R89). -/
def decimal (n : Nat) : List Char := Nat.toDigits 10 n

/-- A signed number in decimal. -/
def signedDecimal (x : I32) : List Char :=
  if x.toInt < 0 then '-' :: decimal x.toInt.natAbs else decimal x.toInt.natAbs

/-- A hexadecimal digit, capital. -/
def hexDigit (n : Nat) : Char :=
  if n < 10 then Char.ofNat (48 + n) else Char.ofNat (55 + n)

/-- A byte as its two hexadecimal digits. -/
def hexByte (b : Byte) : List Char := [hexDigit (b.toNat / 16), hexDigit (b.toNat % 16)]

/-- A byte buffer `h"1B A0"` (30_encoding.md R89). -/
def bufferText (buf : List Byte) : List Char :=
  'h' :: quoteChar :: List.intercalate [' '] (buf.map hexByte) ++ [quoteChar]

/-- Whether a byte is a printable ASCII character other than the quotation mark. -/
def plainChar (b : Byte) : Bool :=
  decide (0x20 ≤ b.toNat) && decide (b.toNat ≤ 0x7E) && decide (b.toNat ≠ 0x22)

/-- A name: the text `"..."` where its bytes are plain ASCII characters, a byte buffer otherwise (30_encoding.md R89). -/
def nameText (name : List Byte) : List Char :=
  if name.all plainChar then quoteChar :: name.map (fun b => Char.ofNat b.toNat) ++ [quoteChar] else bufferText name

/-- A sequence `[a, b, ...]` (30_encoding.md R89). -/
def seqText (values : List Word) : List Char :=
  '[' :: commaList (values.map fun v => decimal v.toNat) ++ [']']

/-- A frame `(B, N, T, [...])` (30_encoding.md R89). -/
def frameText (f : Frame) : List Char :=
  '(' :: commaList [signedDecimal f.shapeB, signedDecimal f.shapeN, signedDecimal f.shapeT, seqText f.values] ++ [')']

/-- The assembler line of a command (30_encoding.md R89). -/
def asmLine : Instr → List Char
  | .bwReset => "bw.reset".toList
  | .bwPush nb v => "bw.push ".toList ++ commaList [decimal v.toNat, decimal nb]
  | .bwFinish => "bw.finish".toList
  | .brLoad buf => "br.load ".toList ++ bufferText buf
  | .brExtract nb count => "br.extract ".toList ++ commaList [decimal count.toNat, decimal nb]
  | .wsClear => "ws.clear".toList
  | .wsScan v => "ws.scan ".toList ++ decimal v.toNat
  | .wsWidth => "ws.width".toList
  | .wsSelect seq => "ws.select ".toList ++ seqText seq
  | .ccEncode version sampleRate modelName levels =>
    "cc.encode ".toList ++ commaList [decimal version.toNat, decimal sampleRate.toNat, nameText modelName,
      '[' :: commaList (levels.map seqText) ++ [']']]
  | .ccDecode buf fallbackName => "cc.decode ".toList ++ commaList [bufferText buf, nameText fallbackName]
  | .ffEncode sampleRate channelCount frames =>
    "ff.encode ".toList ++ commaList [signedDecimal sampleRate, signedDecimal channelCount,
      '[' :: commaList (frames.map frameText) ++ [']']]
  | .ffDecode buf => "ff.decode ".toList ++ bufferText buf
  | .stRead => "st.read".toList

/-- The assembler line of a pseudo-instruction (30_encoding.md R90). -/
def pseudoLine : Pseudo → List Char
  | .pack values nb => "pack ".toList ++ commaList [seqText values, decimal nb]
  | .unpack buf count nb => "unpack ".toList ++ commaList [bufferText buf, decimal count.toNat, decimal nb]

end Sys2Proof.Machine
end

