-- ==== Sys2Proof/Tests/Slice0.lean ====
section
/-! SUPPORT. Small tests: the decoding of written-out words, one step or meaning on the vectors of 95_test_vectors.md, and for
each statement that has hypotheses a concrete state and operands that meet them. -/

namespace Sys2Proof.Tests

open Sys2Proof.Machine

/-! ### Well-formedness and decoding -/

theorem test_push_width_64_is_ill_formed : (Instr.bwPush 64 0).wellFormed = false := by decide
theorem test_extract_width_64_is_ill_formed : (Instr.brExtract 64 0).wellFormed = false := by decide
theorem test_push_width_63_is_well_formed : (Instr.bwPush 63 0).wellFormed = true := by decide

theorem test_decode_bwReset : decode 0x01000000 .none = .ok .bwReset := by rfl
theorem test_decode_bwPush : decode 0x02000003 (.arg 5) = .ok (.bwPush 3 5) := by rfl
theorem test_decode_bwFinish : decode 0x03000000 .none = .ok .bwFinish := by rfl
theorem test_decode_brLoad : decode 0x10000000 (.bytes [0x1B]) = .ok (.brLoad [0x1B]) := by rfl
theorem test_decode_brExtract : decode 0x1100003F (.arg 1) = .ok (.brExtract 63 1) := by rfl
theorem test_decode_wsClear : decode 0x20000000 .none = .ok .wsClear := by rfl
theorem test_decode_wsScan : decode 0x21000000 (.arg 9) = .ok (.wsScan 9) := by rfl
theorem test_decode_wsWidth : decode 0x22000000 .none = .ok .wsWidth := by rfl
theorem test_decode_wsSelect : decode 0x23000000 (.seq [5]) = .ok (.wsSelect [5]) := by rfl
theorem test_decode_ccEncode :
    decode 0x30000000 (.ccEnc 1 24000 [0x73] [[5]]) = .ok (.ccEncode 1 24000 [0x73] [[5]]) := by rfl
theorem test_decode_ccDecode : decode 0x31000000 (.ccDec [0x53] [0x66]) = .ok (.ccDecode [0x53] [0x66]) := by rfl
theorem test_decode_ffEncode :
    decode 0x40000000 (.ffEnc 24000 1 [⟨1, 1, 1, [7]⟩]) = .ok (.ffEncode 24000 1 [⟨1, 1, 1, [7]⟩]) := by rfl
theorem test_decode_ffDecode : decode 0x41000000 (.bytes [0xC0]) = .ok (.ffDecode [0xC0]) := by rfl
theorem test_decode_stRead : decode 0xF0000000 .none = .ok .stRead := by rfl

/-- DEC-3, DEC-4. -/
theorem test_decode_unassigned_opcodes :
    decode 0x00000000 .none = .error (.unassignedOpcode 0) ∧ decode 0xFF000000 .none = .error (.unassignedOpcode 0xFF) :=
  ⟨rfl, rfl⟩
/-- DEC-5. -/
theorem test_decode_width_on_reset : decode 0x01000001 .none = .error .unusedWidth := by rfl
/-- DEC-6, and P5 line 3. -/
theorem test_decode_reserved_bits :
    decode 0x02000043 (.arg 5) = .error .reservedBits ∧ decode 0x02400001 (.arg 1) = .error .reservedBits := ⟨rfl, rfl⟩
/-- DEC-7, DEC-10. -/
theorem test_decode_operand_kind :
    decode 0x02000003 (.bytes [5]) = .error .operandKind ∧ decode 0x21000000 .none = .error .operandKind := ⟨rfl, rfl⟩

theorem test_encode_bwPush : encode (.bwPush 16 0xABCD) = ⟨0x02000010, .arg 0xABCD⟩ := by decide
theorem test_decodeTableWord_stRead : decodeTableWord 32 0xF0000000 = some .stRead := by decide
theorem test_decodeTableWord_illegal : decodeTableWord 32 0x01000001 = none := by decide

/-! ### One command on a small state -/

/-- The state after a command, if it has one. -/
def after (i : Instr) (s : State) : Option State :=
  match exec i s with
  | .next t => some t
  | _ => none

/-- Status, field, index and payload of the last response after a command. -/
def answer (i : Instr) (s : State) : Option (BitVec 8 × BitVec 8 × BitVec 32 × Payload) :=
  match (after i s).bind fun t => t.responses.getLast? with
  | some r => some (r.status, r.errField, r.errIndex, r.payload)
  | none => none

/-- The reset state with other parameters. -/
def under (policy : OvfPolicy) (strict : Bool) (bufCap seqCap : Option Nat) : State :=
  State.resetWith ⟨policy, strict, bufCap, seqCap⟩

/-- The reset state with a writer. -/
def writing (acc : BitVec 7) (cnt : BitVec 3) (out : List Byte) : State :=
  { State.reset with bwAcc := acc, bwCnt := cnt, bwOut := out }

/-- The reset state with a loaded reader. -/
def reading (buf : List Byte) (pos : Nat) (acc : BitVec 7) (cnt : BitVec 3) : State :=
  { State.reset with brBuf := buf, brPos := pos, brAcc := acc, brCnt := cnt }

/-- BW-16. -/
theorem test_bwReset : (after .bwReset (writing 5 3 [0x1B])).map State.writer = some ⟨0, 0, []⟩ := by decide
/-- BW-6. -/
theorem test_bwPush_39_bits :
    (after (.bwPush 32 0xFFFFFFFF) (writing 0x7F 7 [])).map State.writer = some ⟨0x7F, 7, [0xFF, 0xFF, 0xFF, 0xFF]⟩ := by
  decide
/-- BW-13: the low bits of a masked value leave the buffered bits alone. -/
theorem test_bwPush_mask :
    (after (.bwPush 2 7) { writing 2 2 [] with params := ⟨.mask, true, none, none⟩ }).map State.writer =
      some ⟨11, 4, []⟩ := by decide
/-- P1 line 7. -/
theorem test_bwFinish : answer .bwFinish (writing 13 5 [0xBF, 0xFD, 0x5E]) =
    some (0, 0, 0, .bytes [0xBF, 0xFD, 0x5E, 0x68]) := by decide
/-- BW-18. -/
theorem test_bwFinish_capacity :
    answer .bwFinish { writing 1 1 [0xFF] with params := ⟨.reject, true, some 1, none⟩ } = some (10, 20, 0, .none) := by
  decide
/-- P2 line 1. -/
theorem test_brLoad : (after (.brLoad [0xBF, 0xFD]) (reading [1] 1 3 2)).map State.cursor = some ⟨0, 0, 0⟩ := by decide
/-- BR-16. -/
theorem test_brLoad_capacity : answer (.brLoad [1, 2, 3]) (under .reject true (some 2) none) = some (10, 20, 0, .none) := by
  decide
/-- BR-3, second extract: the exhausted branch. -/
theorem test_brExtract_exhausted : answer (.brExtract 8 1) (reading [0xB5] 1 21 5) = some (0, 0, 0, .values [168]) := by
  decide
/-- P2 line 5: 16 bits over two bytes. -/
theorem test_brExtract_cursor :
    (after (.brExtract 16 1) (reading [0xBF, 0xFD, 0x5E, 0x68] 2 5 3)).map State.cursor = some ⟨4, 0, 3⟩ := by decide
theorem test_wsClear : (after .wsClear { State.reset with wsMax := 7 }).map State.wsMax = some 0 := by decide
/-- WS-13. -/
theorem test_wsScan_smaller : (after (.wsScan 3) { State.reset with wsMax := 7 }).map State.wsMax = some 7 := by decide
theorem test_wsScan_larger : (after (.wsScan 0x80000000) { State.reset with wsMax := 7 }).map State.wsMax =
    some 0x80000000 := by decide
/-- WS-6. -/
theorem test_wsWidth_1024 : answer .wsWidth { State.reset with wsMax := 1024 } = some (0, 0, 0, .width 11) := by decide
/-- WS-9. -/
theorem test_wsWidth_max : answer .wsWidth { State.reset with wsMax := 0xFFFFFFFF } = some (0, 0, 0, .width 32) := by
  decide
/-- WS-10, WS-12. -/
theorem test_wsSelect :
    answer (.wsSelect []) State.reset = some (0, 0, 0, .width 1) ∧
      answer (.wsSelect [0, 1, 2, 3]) State.reset = some (0, 0, 0, .width 2) := by decide

/-- The 41 bytes of CC-1. -/
def cc1 : List Byte :=
  [0x53, 0x4E, 0x41, 0x43, 0x01, 0xC0, 0x5D, 0x00, 0x00, 0x04, 0x00, 0x73, 0x6E, 0x61, 0x63, 0x02, 0x00, 0x00, 0x00,
    0x04, 0x00, 0x00, 0x00, 0x02, 0x00, 0x01, 0x00, 0x00, 0x00, 0x01, 0x00, 0x00, 0x00, 0x03, 0x00, 0x01, 0x00, 0x00,
    0x00, 0x1B, 0xA0]

/-- The name "snac". -/
def snacName : List Byte := [0x73, 0x6E, 0x61, 0x63]

/-- CC-1. -/
theorem test_ccEncode : answer (.ccEncode 1 24000 snacName [[0, 1, 2, 3], [5]]) State.reset =
    some (0, 0, 0, .bytes cc1) := by decide
/-- CC-6. -/
theorem test_ccEncode_overlong_name : answer (.ccEncode 1 24000 [0xC0, 0xAF] []) State.reset = some (5, 5, 0, .none) := by
  decide
/-- CD-1. -/
theorem test_ccDecode : answer (.ccDecode cc1 []) State.reset =
    some (0, 0, 0, .container ⟨1, 24000, snacName, false, [⟨4, 2, [0, 1, 2, 3]⟩, ⟨1, 3, [5]⟩], 41⟩) := by decide
/-- CD-5. -/
theorem test_ccDecode_truncated : answer (.ccDecode (cc1.take 40) []) State.reset = some (2, 10, 1, .none) := by decide

/-- The 28 bytes of FF-1. -/
def ff1 : List Byte :=
  [0xC0, 0x5D, 0x00, 0x00, 0x01, 0x00, 0x00, 0x00, 0x01, 0x00, 0x00, 0x00, 0x01, 0x00, 0x00, 0x00, 0x01, 0x00, 0x00,
    0x00, 0x03, 0x00, 0x00, 0x00, 0x00, 0x40, 0x2F, 0xFC]

/-- FF-1. -/
theorem test_ffEncode : answer (.ffEncode 24000 1 [⟨1, 1, 3, [1, 2, 1023]⟩]) State.reset =
    some (0, 0, 0, .bytes ff1) := by decide
/-- FE-5. -/
theorem test_ffEncode_negative_shape :
    answer (.ffEncode 24000 1 [⟨1, 1, 1, [0]⟩, ⟨1, -2, 1, []⟩]) State.reset = some (7, 15, 1, .none) := by decide
/-- FD-1. -/
theorem test_ffDecode : answer (.ffDecode ff1) State.reset =
    some (0, 0, 0, .framed ⟨24000, 1, [⟨1, 1, 3, [1, 2, 1023]⟩], 28⟩) := by decide
/-- FD-14: a huge shape is caught before anything is allocated. -/
theorem test_ffDecode_huge_shape :
    answer (.ffDecode ([0, 0, 0, 0, 0, 0, 0, 0, 1, 0, 0, 0, 0xE8, 3, 0, 0, 0xE8, 3, 0, 0, 0xE8, 3, 0, 0])) State.reset =
      some (2, 17, 0, .none) := by decide
/-- ST-3: the snapshot shows the status of the command before. -/
theorem test_stRead : answer .stRead { State.reset with status := 6, errField := 19, stickyErr := true } =
    some (0, 0, 0, .snapshot ⟨6, 19, 0, true, 0, 0, 0, 0, 0, 0, 0, 0⟩) := by decide
/-- ST-4. -/
theorem test_stRead_keeps_sticky :
    (after .stRead { State.reset with status := 6, errField := 19, stickyErr := true }).map State.stickyErr = some true := by
  decide

/-- CD-24: an empty name decodes to the fallback. -/
theorem test_readName_fallback : readName [] [0x66, 0x62] 0 = .ok ([0x66, 0x62], true) := by rfl
/-- The assembler line of P1 line 1. -/
theorem test_line_bwPush : asmLine (.bwPush 3 5) = "bw.push 5, 3".toList := by decide
/-- The UTF-8 table of 00_scope.md R17 at its edges: a surrogate is refused, the largest scalar value is not. -/
theorem test_utf8_edges :
    utf8WellFormed [0xED, 0xA0, 0x80] = false ∧ utf8WellFormed [0xF4, 0x8F, 0xBF, 0xBF] = true := by decide

end Sys2Proof.Tests

/-! ### Witnesses: each statement's hypotheses are met -/

namespace Sys2Proof.Tests

open Sys2Proof.Machine

/-- The reset state with one event on the port. -/
def facing (e : HostEvent) : State := { State.reset with inputs := [e] }

/-- A command on the port of the reset state. -/
def commanded (w : Word) (op : Operand) : State := facing (.command ⟨w, op⟩)

theorem witness_EncodedCommandDecodesToItself :
    (Instr.bwPush 63 5).wellFormed = true ∧ (Instr.brExtract 0 5).wellFormed = true := by decide

theorem witness_DecodedCommandEncodesBack : decode 0x0200003F (.arg 5) = .ok (.bwPush 63 5) := by rfl

/-- One word for each illegal kind, at the edge of its range, and the legal words beside them. -/
theorem witness_IllegalCommandRaisesIllegalCommand :
    (commanded 0x01000001 .none).inputs = .command ⟨0x01000001, .none⟩ :: [] ∧
      Illegal ⟨0x04000000, .none⟩ ∧ Illegal ⟨0xF1000000, .none⟩ ∧ Illegal ⟨0x02000040, .arg 0⟩ ∧
      Illegal ⟨0x02800000, .arg 0⟩ ∧ Illegal ⟨0x01000001, .none⟩ ∧ Illegal ⟨0x02000000, .none⟩ ∧
      ¬Illegal ⟨0x0200003F, .arg 0⟩ ∧ ¬Illegal ⟨0x11000000, .arg 0⟩ ∧ ¬Illegal ⟨0xF0000000, .none⟩ := by
  refine ⟨rfl, ?_, ?_, ?_, ?_, ?_, ?_, ?_, ?_, ?_⟩ <;> decide

theorem witness_StepRunsDecodedCommand :
    (commanded 0x02000003 (.arg 5)).inputs = .command ⟨0x02000003, .arg 5⟩ :: [] ∧
      decode 0x02000003 (.arg 5) = .ok (.bwPush 3 5) := ⟨rfl, rfl⟩

theorem witness_IdleStepKeepsState : State.reset.inputs = [] := rfl

theorem witness_ResetSetsEveryElement :
    ({ writing 5 3 [0x1B] with inputs := [.reset, .command ⟨0xF0000000, .none⟩] } : State).inputs =
      .reset :: [.command ⟨0xF0000000, .none⟩] := rfl

theorem witness_EveryStepKeepsInvariant :
    (commanded 0x02000003 (.arg 5)).Inv ∧ ∃ t, step (commanded 0x02000003 (.arg 5)) = .next t :=
  ⟨by decide, _, rfl⟩

/-- A legal command, and an illegal one. -/
theorem witness_EveryCommandEndsWithStatus :
    (commanded 0x02000003 (.arg 5)).inputs.head? = some (.command ⟨0x02000003, .arg 5⟩) ∧
      (commanded 0xFF000000 .none).inputs.head? = some (.command ⟨0xFF000000, .none⟩) := ⟨rfl, rfl⟩

/-- A command that ends OK, and one that does not. -/
theorem witness_EveryCommandGivesOneResponse :
    (∃ t, step (commanded 0xF0000000 .none) = .next t ∧ t.status = 0) ∧
      (∃ t, step (commanded 0x02000000 (.arg 5)) = .next t ∧ t.status ≠ 0) :=
  ⟨⟨_, rfl, by decide⟩, _, rfl, by decide⟩

/-- OK, an error, and MagicMismatch. -/
theorem witness_FailingCommandChangesOnlyStatus :
    (∃ t, exec .stRead State.reset = .next t ∧ t.status = 0) ∧
      (∃ t, exec (.bwPush 33 0) State.reset = .next t ∧ t.status = 3) ∧
      (∃ t, exec (.ccDecode [] []) State.reset = .next t ∧ t.status = 4) :=
  ⟨⟨_, rfl, by decide⟩, ⟨_, rfl, by decide⟩, _, rfl, by decide⟩

theorem witness_StatusArisesOnlyFromItsCommands : ∃ t, exec (.bwPush 0 0) State.reset = .next t := ⟨_, rfl⟩

theorem witness_ContainerCommandsLeaveStreams :
    isContainerCommand (.ffDecode ff1) = true ∧ ∃ t, exec (.ffDecode ff1) State.reset = .next t := ⟨rfl, _, rfl⟩

theorem witness_EachCommandWritesOnlyItsUnit :
    (∃ t, exec .stRead (writing 5 3 [0x1B]) = .next t) ∧ ∃ t, exec (.bwPush 8 1) (writing 5 3 [0x1B]) = .next t :=
  ⟨⟨_, rfl⟩, _, rfl⟩

theorem witness_ParametersAndStickyErrorStay :
    ∃ s : State, s.inputs.head? ≠ some .reset ∧ s.stickyErr = true ∧ ∃ t, step s = .next t :=
  ⟨{ commanded 0xF0000000 .none with stickyErr := true }, by decide, rfl, _, rfl⟩

/-- The widest push on a full accumulator with no room to spare, a 1-bit push, and a masked value. -/
theorem witness_BwPushAppendsValueBits :
    (∃ s : State, WriterHolds s ∧ s.bwCnt = 7 ∧ Accepted s.params.ovfPolicy 32 0xFFFFFFFF ∧
      s.params.bufCap = some 4 ∧ exceeds s.params.bufCap (pushedLength s 32) = false) ∧
      (WriterHolds State.reset ∧ Accepted State.reset.params.ovfPolicy 1 1 ∧
        exceeds State.reset.params.bufCap (pushedLength State.reset 1) = false) ∧
      (WriterHolds (under .mask true none none) ∧ Accepted (under .mask true none none).params.ovfPolicy 2 4) :=
  ⟨⟨{ writing 0x7F 7 [] with params := ⟨.reject, true, some 4, none⟩ }, by decide, rfl, by decide, rfl, by decide⟩,
    by decide, by decide⟩

/-- Widths 0 and 33, the least value that does not fit, and one byte too many. -/
theorem witness_BwPushErrorsInOrder :
    (0 < 1 ∨ 32 < 0) ∧ (33 < 1 ∨ 32 < 33) ∧ ¬Accepted State.reset.params.ovfPolicy 2 4 ∧
      (Accepted (under .reject true (some 1) none).params.ovfPolicy 16 0xFFFF ∧
        exceeds (under .reject true (some 1) none).params.bufCap (pushedLength (under .reject true (some 1) none) 16) =
          true) := by decide

theorem witness_BwFinishHandsOffPaddedStream :
    (WriterHolds (writing 5 3 [0x1B]) ∧
      exceeds (writing 5 3 [0x1B]).params.bufCap (finishedStream (writing 5 3 [0x1B])).length = false) ∧
      ∃ s : State, WriterHolds s ∧ exceeds s.params.bufCap (finishedStream s).length = true :=
  ⟨by decide, { writing 1 1 [0xFF] with params := ⟨.reject, true, some 1, none⟩ }, by decide, by decide⟩

theorem witness_PackIsPaddedValueBits : 1 ≤ 2 ∧ 2 ≤ 32 ∧ ∀ v ∈ [0, 1, 2, 3], v < 2 ^ 2 := by decide

theorem witness_PackedLengthIsCeilingOfBits : 1 ≤ 32 ∧ 32 ≤ 32 ∧ ∀ v ∈ [1, 0xFFFFFFFF], v < 2 ^ 32 := by decide

theorem witness_MixedWidthPushesGrowOneStream :
    WriterHolds (writing 5 3 [0x1B]) ∧ (writing 5 3 [0x1B]).params.bufCap = none ∧
      ∀ p ∈ [(9, (0x1FF : Word)), (0, 7), (2, 4), (63, 1)], p.1 < 64 := by decide

theorem witness_BrLoadAttachesBuffer :
    exceeds (under .reject true (some 2) none).params.bufCap [1, 2].length = false ∧
      exceeds (under .reject true (some 2) none).params.bufCap [1, 2, 3].length = true := by decide

/-- A cursor within a byte, and the largest count the capacity allows. -/
theorem witness_BrExtractReadsStreamValues :
    ∃ s : State, ReaderHolds s ∧ s.brCnt = 5 ∧ s.params.seqCap = some 3 ∧
      exceeds s.params.seqCap (BitVec.toNat (3 : Word)) = false :=
  ⟨{ reading [0xB5, 0x12] 1 21 5 with params := ⟨.reject, true, none, some 3⟩ }, by decide, rfl, rfl, by decide⟩

theorem witness_BrExtractErrorsInOrder :
    (0 < 1 ∨ 32 < 0) ∧ (33 < 1 ∨ 32 < 33) ∧
      exceeds (under .reject true none (some 2)).params.seqCap (BitVec.toNat (3 : Word)) = true := by decide

theorem witness_ExhaustedReaderReturnsZeros :
    ReaderHolds (reading [0xB5] 1 0 0) ∧ (reading [0xB5] 1 0 0).brPos = (reading [0xB5] 1 0 0).brBuf.length ∧
      (reading [0xB5] 1 0 0).brCnt = 0 ∧
      exceeds (reading [0xB5] 1 0 0).params.seqCap (BitVec.toNat (2 : Word)) = false := by decide

theorem witness_UnpackInvertsPack : 1 ≤ 3 ∧ 3 ≤ 32 ∧ ∀ v ∈ [5, 0, 7], v < 2 ^ 3 := by decide

/-- BR-12: four values of 10 bits cut to 4 bytes. Value 0 is whole and value 3 straddles; cut to 2 bytes, value 2 is past the
cut, and value 1 straddles it. -/
theorem witness_CutStreamDecodesWithZeroFill :
    (∀ v ∈ [1023, 0, 512, 1], v < 2 ^ 10) ∧ 4 ≤ (pack [1023, 0, 512, 1] 10).length ∧
      ([1023, 0, 512, 1][0]? = some 1023 ∧ (0 + 1) * 10 ≤ 8 * 4) ∧
      ([1023, 0, 512, 1][3]? = some 1 ∧ 3 * 10 < 8 * 4 ∧ 8 * 4 < (3 + 1) * 10) ∧
      ([1023, 0, 512, 1][2]? = some 512 ∧ 8 * 2 ≤ 2 * 10) := by decide

theorem witness_CcEncodeWritesLayout :
    LegalName snacName ∧ [[0, 1, 2, 3], [5]].length < 2 ^ 32 ∧
      (∀ l ∈ [[(0 : Word), 1, 2, 3], [5]], l.length < 2 ^ 32 ∧ (encodedRecord l).chunk.length < 2 ^ 32) ∧
      exceeds (some 41) (snacBytes 1 24000 snacName ([[(0 : Word), 1, 2, 3], [5]].map encodedRecord)).length = false := by
  decide

theorem replicate_ones_max (n : Nat) (hn : 0 < n) : width (seqMax (List.replicate n (0xFFFFFFFF : Word))).toNat = 32 := by
  obtain ⟨h, _⟩ := seqMax_spec (List.replicate n (0xFFFFFFFF : Word))
  have h1 := h 0xFFFFFFFF (List.mem_replicate.mpr ⟨by omega, rfl⟩)
  have h2 := (seqMax (List.replicate n (0xFFFFFFFF : Word))).isLt
  have h3 : (0xFFFFFFFF : Word).toNat = 4294967295 := rfl
  rw [show (seqMax (List.replicate n (0xFFFFFFFF : Word))).toNat = 4294967295 by omega]
  decide

theorem valueBits_length (values : List Nat) (nb : Nat) : (valueBits values nb).length = values.length * nb := by
  simp [valueBits, List.length_flatMap]

theorem replicate_ones_chunk (n : Nat) (hn : 0 < n) :
    (encodedRecord (List.replicate n (0xFFFFFFFF : Word))).chunk.length = n * 4 := by
  rw [encodedRecord, bytesOf_length, valueBits_length, fromWords_length, List.length_replicate, levelWidth,
    replicate_ones_max n hn]
  omega

/-- The first length past each field's range, a name that is no text, and one byte too many. -/
theorem witness_CcEncodeErrorsInOrder :
    2 ^ 16 ≤ (List.replicate (2 ^ 16) (0x61 : Byte)).length ∧
      ([0xC0, 0xAF].length < 2 ^ 16 ∧ utf8WellFormed [0xC0, 0xAF] = false) ∧
      (LegalName snacName ∧ 2 ^ 32 ≤ (List.replicate (2 ^ 32) ([] : List Word)).length) ∧
      ((∀ l ∈ [[(5 : Word)]], l.length < 2 ^ 32 ∧ (encodedRecord l).chunk.length < 2 ^ 32) ∧
        2 ^ 32 ≤ (List.replicate (2 ^ 32) (0 : Word)).length) ∧
      ((List.replicate (2 ^ 30) (0xFFFFFFFF : Word)).length < 2 ^ 32 ∧
        2 ^ 32 ≤ (encodedRecord (List.replicate (2 ^ 30) (0xFFFFFFFF : Word))).chunk.length) ∧
      exceeds (some 40) (snacBytes 1 24000 snacName ([[(0 : Word), 1, 2, 3], [5]].map encodedRecord)).length = true := by
  refine ⟨by rw [List.length_replicate], by decide, ⟨by decide, by rw [List.length_replicate]⟩,
    ⟨by decide, by rw [List.length_replicate]⟩, ⟨by rw [List.length_replicate]; decide, ?_⟩, by decide⟩
  rw [replicate_ones_chunk _ (by decide)]; decide

/-- A level of width 32 and an empty one, the sizes strict mode asks for, and a count at the capacity. -/
theorem witness_CcDecodeReadsLayout :
    LegalName snacName ∧ LegalName [] ∧
      (∀ r ∈ [(⟨1, 32, [1, 2, 3, 4]⟩ : LevelRecord), ⟨0, 1, []⟩],
        LegalRecord (under .reject true (some 45) (some 1)).params r ∧
          exceeds (under .reject true (some 45) (some 1)).params.seqCap r.length = false) ∧
      exceeds (some 45) (snacBytes 1 24000 snacName [⟨1, 32, [1, 2, 3, 4]⟩, ⟨0, 1, []⟩] ++ [0xFF, 0xFF]).length = false := by
  decide

/-- A 3-byte buffer, one whose fourth byte differs, and one byte too many. -/
theorem witness_CcDecodeRejectsOtherTags :
    exceeds (some 40) cc1.length = true ∧ (exceeds (some 41) cc1.length = false ∧ (cc1.take 3).length < 4) ∧
      [0x53, 0x4E, 0x41, (0x42 : Byte)].take 4 ≠ [0x53, 0x4E, 0x41, 0x43] := by decide

/-- The longest buffers that are too short for each field, the level count after a name (CD-10) and after none. -/
theorem witness_CcDecodeNamesShortHeaderField :
    exceeds State.reset.params.bufCap cc1.length = false ∧ (cc1.take 4).take 4 = [0x53, 0x4E, 0x41, 0x43] ∧
      (cc1.take 4).length < 5 ∧ (5 ≤ (cc1.take 8).length ∧ (cc1.take 8).length < 9) ∧
      (9 ≤ (cc1.take 10).length ∧ (cc1.take 10).length < 11) ∧
      (11 ≤ (cc1.take 14).length ∧ rdle (slice (cc1.take 14) 9 2) ≠ 0 ∧
        (cc1.take 14).length < 11 + rdle (slice (cc1.take 14) 9 2)) ∧
      (∀ buf ∈ [cc1.take 15, cc1.take 18, (snacHeader 1 24000 [] 0).take 11, (snacHeader 1 24000 [] 0).dropLast],
        11 + rdle (slice buf 9 2) ≤ buf.length ∧ utf8WellFormed (slice buf 11 (rdle (slice buf 9 2))) = true ∧
          buf.length < 15 + rdle (slice buf 9 2)) := by decide

/-- CC-1 cut inside its second record, at the edges of each field (CD-12, CD-13), its width 3 or the widths 1 and 32. -/
theorem witness_CcDecodeNamesShortMetadataField :
    LegalName snacName ∧ [(⟨4, 2, [0x1B]⟩ : LevelRecord)].length < 2 ∧
      (∀ r ∈ [(⟨4, 2, [0x1B]⟩ : LevelRecord)], LegalRecord State.reset.params r) ∧
      cc1.take 34 = snacHeader 1 24000 snacName 2 ++ [(⟨4, 2, [0x1B]⟩ : LevelRecord)].flatMap snacRecord ++
        [1, 0, 0, 0, 3] ∧
      exceeds State.reset.params.bufCap (cc1.take 34).length = false ∧
      [(1 : Byte), 0, 0].length < 4 ∧ (4 ≤ [(1 : Byte), 0, 0, 0].length ∧ [(1 : Byte), 0, 0, 0, 3].length < 6) ∧
      ∀ rest ∈ [[(1 : Byte), 0, 0, 0, 1, 0], [1, 0, 0, 0, 3, 0, 1, 0], [1, 0, 0, 0, 32, 0, 1, 0, 0]],
        6 ≤ rest.length ∧ rest.length < 10 ∧ 1 ≤ rdle (slice rest 4 2) ∧ rdle (slice rest 4 2) ≤ 32 := by decide

/-- A buffer that ends right after a width of 33, the widths 0 and 65535, a size one too large, and a name that is no text at
the end of its buffer. -/
theorem witness_CcDecodeRejectsBadMetadata :
    (utf8WellFormed [0xFF] = false ∧
      exceeds State.reset.params.bufCap (snacNamed 1 24000 [0xFF] ++ []).length = false) ∧
      utf8WellFormed snacName = true ∧ [(⟨4, 2, [0x1B]⟩ : LevelRecord)].length < 2 ∧
      (∀ r ∈ [(⟨4, 2, [0x1B]⟩ : LevelRecord)], LegalRecord State.reset.params r) ∧
      exceeds State.reset.params.bufCap (snacHeader 1 24000 snacName 2 ++ [(⟨4, 2, [0x1B]⟩ : LevelRecord)].flatMap snacRecord ++
        (le32 1 ++ le16 33 ++ [])).length = false ∧
      (0 < 1 ∨ 32 < 0) ∧ (33 < 1 ∨ 32 < 33) ∧ (65535 < 1 ∨ 32 < 65535) ∧ State.reset.params.strictPayload = true ∧
      4 ≤ (le32 2).length ∧ rdle (slice (le32 2) 0 4) ≠ (1 * 3 + 7) / 8 := by decide

/-- CC-1 with the byte of its second payload missing (CD-5), and under `P_SEQ_CAP = 3` (CD-29), where
the first level's payload is there and its length is too large. -/
theorem witness_CcDecodePayloadErrorsInOrder :
    (cc1.dropLast = snacHeader 1 24000 snacName 2 ++ [(⟨4, 2, [0x1B]⟩ : LevelRecord), ⟨1, 3, [0xA0]⟩].flatMap snacRecord ++
        [(⟨4, 2, [0x1B]⟩ : LevelRecord)].flatMap LevelRecord.chunk ++ [] ∧
      (∀ r ∈ [(⟨4, 2, [0x1B]⟩ : LevelRecord), ⟨1, 3, [0xA0]⟩], LegalRecord (under .reject true none (some 4)).params r) ∧
      exceeds (some 4) 4 = false ∧ ([] : List Byte).length < [(0xA0 : Byte)].length) ∧
      (cc1 = snacHeader 1 24000 snacName 2 ++ [(⟨4, 2, [0x1B]⟩ : LevelRecord), ⟨1, 3, [0xA0]⟩].flatMap snacRecord ++
        ([] : List LevelRecord).flatMap LevelRecord.chunk ++ [0x1B, 0xA0] ∧
      (∀ r ∈ [(⟨4, 2, [0x1B]⟩ : LevelRecord), ⟨1, 3, [0xA0]⟩], LegalRecord (under .reject true none (some 3)).params r) ∧
      [(0x1B : Byte)].length ≤ [(0x1B : Byte), 0xA0].length ∧ exceeds (some 3) 4 = true) := by decide

theorem witness_ContainerRoundTrip :
    exec (.ccEncode 1 24000 snacName [[0, 1, 2, 3], [5]]) State.reset = .next (endedOk State.reset (.bytes cc1)) ∧
      exceeds (under .mask false (some 41) (some 4)).params.bufCap cc1.length = false ∧
      ∀ l ∈ [[(0 : Word), 1, 2, 3], [5]], exceeds (under .mask false (some 41) (some 4)).params.seqCap l.length = false :=
  ⟨by rfl, by decide, by decide⟩

theorem witness_ReencodingGivesSameBytes :
    exec (.ccEncode 1 24000 snacName [[0, 1, 2, 3], [5]]) State.reset = .next (endedOk State.reset (.bytes cc1)) ∧
      exec (.ccDecode cc1 []) State.reset = .next (endedOk State.reset
        (.container ⟨1, 24000, snacName, false, [⟨4, 2, [0, 1, 2, 3]⟩, ⟨1, 3, [5]⟩], 41⟩)) ∧ snacName ≠ [] :=
  ⟨by rfl, by rfl, by decide⟩

theorem witness_CutContainerIsTruncated :
    exec (.ccEncode 1 24000 snacName [[0, 1, 2, 3], [5]]) State.reset = .next (endedOk State.reset (.bytes cc1)) ∧
      (∀ l ∈ [[(0 : Word), 1, 2, 3], [5]], exceeds State.reset.params.seqCap l.length = false) ∧
      4 < cc1.length ∧ [[(0 : Word), 1, 2, 3], [5]].getLast? = some [5] ∧ [(5 : Word)] ≠ [] :=
  ⟨by rfl, by decide, by decide, by decide, by decide⟩

/-- A frame with a zero dimension, a code of 1023, and under MASK one of 1024. -/
theorem witness_FfEncodeWritesLayout :
    (∀ f ∈ [(⟨0, 4, 2, []⟩ : Frame), ⟨1, 1, 1, [1023]⟩], LegalFrame .reject f) ∧ LegalFrame .mask ⟨1, 1, 1, [1024]⟩ ∧
      exceeds (some 38) (framedBytes 24000 1 ([(⟨0, 4, 2, []⟩ : Frame), ⟨1, 1, 1, [1023]⟩].map encodedFrame)).length =
        false := by decide

/-- A good frame before a bad one of each kind, the first count past the field, and one byte too many. -/
theorem witness_FfEncodeErrorsInOrder :
    2 ^ 31 ≤ (List.replicate (2 ^ 31) (⟨0, 0, 0, []⟩ : Frame)).length ∧
      LegalFrame .reject ⟨1, 1, 1, [1023]⟩ ∧
      (¬LegalFrame .reject ⟨-1, 1, 0, []⟩ ∧ ¬LegalFrame .reject ⟨1, -2, 1, []⟩ ∧ ¬LegalFrame .reject ⟨1, 1, -1, []⟩ ∧
        ¬LegalFrame .reject ⟨1, 1, 3, [1, 2]⟩ ∧ ¬LegalFrame .reject ⟨1, 1, 1, [1024]⟩) ∧
      exceeds (some 25) (framedBytes 24000 1 ([(⟨1, 1, 1, [1023]⟩ : Frame)].map encodedFrame)).length = true := by
  refine ⟨by rw [List.length_replicate], by decide, by decide, by decide⟩

theorem witness_FfDecodeReadsLayout :
    (∀ r ∈ [(⟨1, 1, 3, [0x00, 0x40, 0x2F, 0xFC]⟩ : FrameRecord), ⟨0, 4, 2, []⟩],
      LegalFrameRecord r ∧ exceeds (some 3) (codeCount r.shapeB r.shapeN r.shapeT) = false) ∧
      exceeds State.reset.params.bufCap
        (framedBytes 24000 1 [⟨1, 1, 3, [0x00, 0x40, 0x2F, 0xFC]⟩, ⟨0, 4, 2, []⟩] ++ [0xAA]).length = false := by decide

/-- The longest buffers that are too short for each field, and the frame counts -2147483648 and -1. -/
theorem witness_FfDecodeHeaderErrorsInOrder :
    exceeds (some 27) ff1.length = true ∧ exceeds (some 28) ff1.length = false ∧ (ff1.take 3).length < 4 ∧
      (4 ≤ (ff1.take 7).length ∧ (ff1.take 7).length < 8) ∧ (8 ≤ (ff1.take 11).length ∧ (ff1.take 11).length < 12) ∧
      2 ^ 31 ≤ rdle (slice [0, 0, 0, 0, 0, 0, 0, 0, 0, 0, 0, 0x80] 8 4) ∧
      2 ^ 31 ≤ rdle (slice [0, 0, 0, 0, 0, 0, 0, 0, 0xFF, 0xFF, 0xFF, 0xFF] 8 4) := by decide

/-- FF-1 with a second frame announced, after which the buffer ends at the edges of each field, a dimension is the least or the
greatest negative number, or the codes are one byte short or one more than the capacity. -/
theorem witness_FfDecodeFrameErrorsInOrder :
    ([(⟨1, 1, 3, [0x00, 0x40, 0x2F, 0xFC]⟩ : FrameRecord)].length < 2 ∧
      (∀ r ∈ [(⟨1, 1, 3, [0x00, 0x40, 0x2F, 0xFC]⟩ : FrameRecord)], LegalFrameRecord r ∧
        exceeds (some 3) (codeCount r.shapeB r.shapeN r.shapeT) = false)) ∧
      (le32 1).dropLast.length < 4 ∧
      (∀ low ∈ [[0, 0, 0, (0x80 : Byte)], [0xFF, 0xFF, 0xFF, 0xFF]], 4 ≤ low.length ∧ 2 ^ 31 ≤ rdle (slice low 0 4) ∧
        2 ^ 31 ≤ rdle (slice (le32 1 ++ low) 4 4) ∧ 2 ^ 31 ≤ rdle (slice (le32 1 ++ le32 1 ++ low) 8 4)) ∧
      (4 ≤ (le32 (2 ^ 31 - 1)).length ∧ rdle (slice (le32 (2 ^ 31 - 1)) 0 4) < 2 ^ 31 ∧ (le32 1 ++ [0, 0, 0]).length < 8) ∧
      (8 ≤ (le32 1 ++ le32 1).length ∧ (le32 1 ++ le32 1 ++ [0, 0, 0]).length < 12) ∧
      ((le32 1 ++ le32 1 ++ le32 4 ++ [0, 0, 0, 0]).length < 12 + (10 * (1 * 1 * 4) + 7) / 8) ∧
      (12 + (10 * (1 * 1 * 4) + 7) / 8 ≤ (le32 1 ++ le32 1 ++ le32 4 ++ [0, 0, 0, 0, 0]).length ∧
        exceeds (some 3) (1 * 1 * 4) = true) := by decide

theorem witness_FfDecodeAcceptsAnyZeroFrameCount :
    exceeds State.reset.params.bufCap (framedBytes (-1) 2 []).length = false ∧ 12 ≤ (framedBytes (-1) 2 []).length ∧
      slice (framedBytes (-1) 2 []) 8 4 = [0, 0, 0, 0] := by decide

theorem witness_FramedRoundTripAndTruncation :
    exec (.ffEncode 24000 1 [⟨1, 1, 3, [1, 2, 1023]⟩]) State.reset = .next (endedOk State.reset (.bytes ff1)) ∧
      (∀ f ∈ [(⟨1, 1, 3, [1, 2, 1023]⟩ : Frame)],
        exceeds State.reset.params.seqCap (codeCount f.shapeB f.shapeN f.shapeT) = false) ∧
      State.reset.params.ovfPolicy = .reject ∧ 27 < ff1.length :=
  ⟨by rfl, by decide, rfl, by decide⟩

theorem witness_LittleEndianFieldsReadBack :
    2 ^ 16 - 1 < 2 ^ 16 ∧ 2 ^ 32 - 1 < 2 ^ 32 ∧ (-2 ^ 31 : Int) ≤ -2 ^ 31 ∧ (-2 ^ 31 : Int) < 2 ^ 31 := by decide

theorem witness_PackProgramReturnsPackedBytes :
    (∀ v ∈ fromWords [5, 7], v < 2 ^ 3) ∧ exceeds (some 1) (([5, 7].length * 3 + 7) / 8) = false := by decide

theorem witness_UnpackProgramReturnsStreamValues :
    exceeds (some 1) [(0x1B : Byte)].length = false ∧ exceeds (some 4) (BitVec.toNat (4 : Word)) = false := by decide

end Sys2Proof.Tests
end

