-- ==== Sys2Proof/Proofs/Scope.lean ====
section
/-! PROOFS. The conventions of 00_scope.md: well-formed UTF-8 (R17) and the little-endian fields (R11, R13). -/

namespace Sys2Proof.Machine

/-! ### The table's rows -/

@[simp] theorem byteIn_iff (r : Nat × Nat) (b : Byte) : byteIn r b = true ↔ InRange b r.1 r.2 := by
  simp [byteIn, InRange]

@[simp] theorem matchesRanges_nil_iff (c : List Byte) : matchesRanges [] c = true ↔ c = [] := by
  cases c <;> simp [matchesRanges]

@[simp] theorem matchesRanges_cons_iff (r : Nat × Nat) (rs : List (Nat × Nat)) (c : List Byte) :
    matchesRanges (r :: rs) c = true ↔ ∃ b bs, c = b :: bs ∧ byteIn r b = true ∧ matchesRanges rs bs = true := by
  cases c <;> simp [matchesRanges]

theorem length_of_matchesRanges {rs : List (Nat × Nat)} {c : List Byte} (h : matchesRanges rs c = true) :
    c.length = rs.length := by
  induction rs generalizing c with
  | nil => simp_all
  | cons r rs ih =>
    obtain ⟨b, bs, rfl, -, hbs⟩ := (matchesRanges_cons_iff r rs c).1 h
    simp [ih hbs]

/-- The first-byte ranges of two rows of the table have no byte in common. -/
theorem utf8Table_lead_disjoint :
    ∀ row ∈ utf8Table, ∀ row' ∈ utf8Table,
      row = row' ∨ row.lead.2 < row'.lead.1 ∨ row'.lead.2 < row.lead.1 := by decide

theorem utf8Row_eq_of_byteIn_lead {row row' : Utf8Row} {b : Byte} (hrow : row ∈ utf8Table) (hrow' : row' ∈ utf8Table)
    (hb : byteIn row.lead b = true) (hb' : byteIn row'.lead b = true) : row = row' := by
  obtain ⟨hlo, hhi⟩ := (byteIn_iff _ b).1 hb
  obtain ⟨hlo', hhi'⟩ := (byteIn_iff _ b).1 hb'
  obtain heq | hlt | hlt := utf8Table_lead_disjoint row hrow row' hrow'
  · exact heq
  · omega
  · omega

/-- The row that the check looks up by a lead byte is the one row of the table whose range holds it. -/
theorem find?_lead_eq_some_iff (b : Byte) (row : Utf8Row) :
    utf8Table.find? (fun r => byteIn r.lead b) = some row ↔ row ∈ utf8Table ∧ byteIn row.lead b = true := by
  constructor
  · intro h
    exact ⟨List.mem_of_find?_eq_some h, by simpa using List.find?_some h⟩
  · rintro ⟨hrow, hb⟩
    obtain ⟨found, hfound⟩ : ∃ found, utf8Table.find? (fun r => byteIn r.lead b) = some found :=
      Option.isSome_iff_exists.1 (List.find?_isSome.2 ⟨row, hrow, hb⟩)
    have hlead : byteIn found.lead b = true := by simpa using List.find?_some hfound
    rw [hfound, utf8Row_eq_of_byteIn_lead (List.mem_of_find?_eq_some hfound) hrow hlead hb]

/-! ### One character -/

theorem utf8Char_iff_exists_row (c : List Byte) :
    utf8Char c = true ↔
      ∃ row ∈ utf8Table, ∃ b bs, c = b :: bs ∧ byteIn row.lead b = true ∧ matchesRanges row.trail bs = true := by
  simp [utf8Char]

/-- The model's table and the one written out by length of the character have the same rows (00_scope.md R17). The latter states the
ranges that a length's rows share once, in front of them, so the longer characters end in a regrouping. -/
theorem utf8Char_iff_utf8Character (c : List Byte) : utf8Char c = true ↔ Utf8Character c := by
  rw [utf8Char_iff_exists_row]
  match c with
  | [] => simp [Utf8Character]
  | [a] => simp [Utf8Character, utf8Table]
  | [a, b] => simp [Utf8Character, utf8Table]
  | [a, b, c] => simp [Utf8Character, utf8Table]; grind only
  | [a, b, c, d] => simp [Utf8Character, utf8Table]; grind only
  | a :: b :: c :: d :: e :: rest => simp [Utf8Character, utf8Table]

/-! ### Splitting a sequence -/

/-- Taking the first character off a sequence leaves `rest` exactly when the sequence is a character followed by `rest`. -/
theorem utf8Rest_eq_some_iff (s rest : List Byte) :
    utf8Rest s = some rest ↔ ∃ c, utf8Char c = true ∧ s = c ++ rest := by
  simp only [utf8Char_iff_exists_row]
  constructor
  · intro h
    unfold utf8Rest at h
    split at h
    · cases h
    next b tail =>
      split at h
      · cases h
      next row hfind =>
        obtain ⟨hrow, hb⟩ := (find?_lead_eq_some_iff b row).1 hfind
        split at h
        next htrail =>
          cases h
          exact ⟨b :: tail.take row.trail.length, ⟨row, hrow, b, _, rfl, hb, htrail⟩, by simp⟩
        · cases h
  · rintro ⟨_, ⟨row, hrow, b, bs, rfl, hb, htrail⟩, rfl⟩
    have hfind := (find?_lead_eq_some_iff b row).2 ⟨hrow, hb⟩
    simp [utf8Rest, hfind, ← length_of_matchesRanges htrail, htrail]

theorem utf8Char_ne_nil {c : List Byte} (h : utf8Char c = true) : c ≠ [] := by
  obtain ⟨row, -, b, bs, rfl, -, -⟩ := (utf8Char_iff_exists_row c).1 h
  simp

theorem utf8Split_succ_iff (fuel : Nat) {s : List Byte} (hs : s ≠ []) :
    utf8Split (fuel + 1) s = true ↔ ∃ rest, utf8Rest s = some rest ∧ utf8Split fuel rest = true := by
  obtain ⟨b, tail, rfl⟩ := List.exists_cons_of_ne_nil hs
  cases h : utf8Rest (b :: tail) <;> simp [utf8Split, h]

/-- With fuel for every byte, the split succeeds exactly on the concatenations of characters. -/
theorem utf8Split_iff_exists_chars (fuel : Nat) (s : List Byte) (hfuel : s.length ≤ fuel) :
    utf8Split fuel s = true ↔ ∃ chars : List (List Byte), s = chars.flatten ∧ ∀ c ∈ chars, utf8Char c = true := by
  induction fuel generalizing s with
  | zero =>
    obtain rfl : s = [] := List.length_eq_zero_iff.1 (by omega)
    exact ⟨fun _ => ⟨[], by simp⟩, fun _ => rfl⟩
  | succ fuel ih =>
    obtain rfl | hs := eq_or_ne s []
    · exact ⟨fun _ => ⟨[], by simp⟩, fun _ => rfl⟩
    have shorter : ∀ c rest, utf8Char c = true → s = c ++ rest → rest.length ≤ fuel := by
      rintro c rest hc rfl
      have := List.length_pos_iff.2 (utf8Char_ne_nil hc)
      rw [List.length_append] at hfuel
      omega
    rw [utf8Split_succ_iff fuel hs]
    constructor
    · rintro ⟨rest, hrest, hsplit⟩
      obtain ⟨c, hc, hsc⟩ := (utf8Rest_eq_some_iff s rest).1 hrest
      obtain ⟨chars, rfl, hchars⟩ := (ih rest (shorter c rest hc hsc)).1 hsplit
      exact ⟨c :: chars, by simpa using hsc, List.forall_mem_cons.2 ⟨hc, hchars⟩⟩
    · rintro ⟨_ | ⟨c, chars⟩, hflat, hchars⟩
      · exact absurd hflat hs
      · obtain ⟨hc, hchars⟩ := List.forall_mem_cons.1 hchars
        rw [List.flatten_cons] at hflat
        exact ⟨chars.flatten, (utf8Rest_eq_some_iff _ _).2 ⟨c, hc, hflat⟩,
          (ih _ (shorter c _ hc hflat)).2 ⟨chars, rfl, hchars⟩⟩

/-- Settles O55: the check splits greedily, which loses nothing because a lead byte fixes its row. -/
theorem utf8CheckMatchesTable : Obligations.Utf8CheckMatchesTable := by
  intro s
  simp only [utf8WellFormed, utf8Split_iff_exists_chars s.length s le_rfl, utf8Char_iff_utf8Character]

/-! ### Little-endian fields -/

/-- An i32 is the sign-extended number of its residue modulo 2^32 (00_scope.md R11, 20_memory.md R62). -/
theorem toInt_ofNat_emod_two_pow (y : Int) (hlo : -2 ^ 31 ≤ y) (hhi : y < 2 ^ 31) :
    (BitVec.ofNat 32 (y % 2 ^ 32).toNat).toInt = y := by
  have hres : BitVec.ofNat 32 (y % 2 ^ 32).toNat = BitVec.ofInt 32 y := by
    apply BitVec.eq_of_toNat_eq
    rw [BitVec.toNat_ofNat, BitVec.toNat_ofInt]
    omega
  rw [hres, BitVec.toInt_ofInt_eq_self (by decide) hlo hhi]

/-- Settles O56, by the read-back of the u16 and u32 fields; an i32 goes through its residue. -/
theorem littleEndianFieldsReadBack : Obligations.LittleEndianFieldsReadBack := by
  refine ⟨rdle_le16, rdle_le32, fun y hlo hhi => ?_⟩
  have hres : (y % 2 ^ 32).toNat < 2 ^ 32 := by omega
  rw [rdle_le32 _ hres, toInt_ofNat_emod_two_pow y hlo hhi]

end Sys2Proof.Machine
end

