-- ==== Sys2Proof/Proofs/State.lean ====
section
/-! PROOFS. The state of 10_state.md: what one command and one step can change, and the invariant they keep. -/

namespace Sys2Proof.Machine

/-! ### What a command can change -/

/-- `Writes s i u`: `u` is `s`, or `s` with the unit of command `i` written as `i` does when it ends OK. -/
inductive Writes (s : State) : Instr → State → Prop
  | nothing (i : Instr) : Writes s i s
  | bwReset : Writes s .bwReset (s.withWriter Writer.empty)
  | bwPush (nb : Nat) (v : Word)
      (hfit : exceeds s.params.bufCap (s.writer.push nb (v.toNat % 2 ^ nb)).out.length = false) :
      Writes s (.bwPush nb v) (s.withWriter (s.writer.push nb (v.toNat % 2 ^ nb)))
  | bwFinish : Writes s .bwFinish (s.withWriter Writer.empty)
  | brLoad (buf : List Byte) (hfit : exceeds s.params.bufCap buf.length = false) :
      Writes s (.brLoad buf) ({ s with brBuf := buf }.withCursor Cursor.start)
  | brExtract (nb : Nat) (count : Word) :
      Writes s (.brExtract nb count) (s.withCursor (extractValues s.brBuf nb count.toNat s.cursor).2)
  | wsClear : Writes s .wsClear { s with wsMax := 0 }
  | wsScan (v : Word) : Writes s (.wsScan v) { s with wsMax := scanMax s.wsMax v }

/-- A raise of MagicMismatch or IllegalCommand carries its fixed field and index (43_container_sd.md R171; 30_encoding.md R85). -/
structure Raise.Allowed (e : Raise) : Prop where
  magic : e.kind = .magicMismatch → e.field = .magic ∧ e.index = 0
  illegal : e.kind = .illegalCommand → e.field = .none ∧ e.index = 0

/-- The state after command `i`: its unit written and the status OK, or nothing written and an allowed status. -/
inductive Ended (s : State) (i : Instr) : State → Prop
  | ok {u : State} (hw : Writes s i u) (p : Payload) : Ended s i (endedOk u p)
  | raised {e : Raise} (he : e.Allowed) : Ended s i (endedWith s e.kind.code e.field.id e.index)

theorem Raise.allowed_of_kind_ne {e : Raise} (hm : e.kind ≠ .magicMismatch) (hi : e.kind ≠ .illegalCommand) :
    e.Allowed :=
  ⟨fun h => absurd h hm, fun h => absurd h hi⟩

theorem Raise.allowed_of_kindIn {ks : List RaiseKind} {e : Raise} (h : KindIn ks e)
    (hm : .magicMismatch ∉ ks) (hi : .illegalCommand ∉ ks) : e.Allowed :=
  allowed_of_kind_ne (fun hk => hm (hk ▸ h)) (fun hk => hi (hk ▸ h))

theorem Raise.allowed_of_decodeRaise {e : Raise} (h : DecodeRaise e) : e.Allowed := by
  obtain rfl | h := h
  · exact ⟨fun _ => ⟨rfl, rfl⟩, nofun⟩
  · exact allowed_of_kindIn h (by decide) (by decide)

theorem Raise.allowed_illegalCommand : Raise.Allowed ⟨.illegalCommand, .none, 0⟩ :=
  ⟨nofun, fun _ => ⟨rfl, rfl⟩⟩

/-! ### How each command ends -/

theorem ended_commit_error {s : State} {i : Instr} {r : Result} {e : Raise} (hr : r = .error e) (he : e.Allowed) :
    Ended s i (commit s r) := by
  rw [hr, commit_error]
  exact .raised he

theorem ended_commit_ok {s u : State} {i : Instr} {r : Result} {p : Payload} (hr : r = .ok (u, p))
    (hw : Writes s i u) : Ended s i (commit s r) := by
  rw [hr, commit_ok]
  exact .ok hw p

/-- A rule that runs a codec and keeps the state ends as the codec does (10_state.md R41). -/
theorem ended_commit_codec {α : Type} {s : State} {i : Instr} {x : Except Raise α} {r : Result} {payload : α → Payload}
    (hr : (∃ e, x = .error e ∧ r = .error e) ∨ (∃ a, x = .ok a ∧ r = .ok (s, payload a)))
    (hx : RaisesOnly Raise.Allowed x) : Ended s i (commit s r) := by
  obtain ⟨e, he, hr⟩ | ⟨_, -, hr⟩ := hr
  · exact ended_commit_error hr (hx e he)
  · exact ended_commit_ok hr (.nothing i)

theorem bwPush_ended (s : State) (nb : Nat) (v : Word) : Ended s (.bwPush nb v) (commit s (bwPushRule nb v s)) := by
  obtain ⟨-, hr⟩ | ⟨-, -, -, -, hr⟩ | ⟨-, -, -, -, hr⟩ | ⟨-, -, -, hfit, hr⟩ := bwPushRule_cases nb v s
  · exact ended_commit_error hr (Raise.allowed_of_kind_ne nofun nofun)
  · exact ended_commit_error hr (Raise.allowed_of_kind_ne nofun nofun)
  · exact ended_commit_error hr (Raise.allowed_of_kind_ne nofun nofun)
  · exact ended_commit_ok hr (.bwPush nb v hfit)

theorem bwFinish_ended (s : State) : Ended s .bwFinish (commit s (bwFinishRule s)) := by
  obtain ⟨-, hr⟩ | ⟨-, hr⟩ := bwFinishRule_cases s
  · exact ended_commit_error hr (Raise.allowed_of_kind_ne nofun nofun)
  · exact ended_commit_ok hr .bwFinish

theorem brLoad_ended (s : State) (buf : List Byte) : Ended s (.brLoad buf) (commit s (brLoadRule buf s)) := by
  obtain ⟨-, hr⟩ | ⟨hfit, hr⟩ := brLoadRule_cases buf s
  · exact ended_commit_error hr (Raise.allowed_of_kind_ne nofun nofun)
  · exact ended_commit_ok hr (.brLoad buf hfit)

theorem brExtract_ended (s : State) (nb : Nat) (count : Word) :
    Ended s (.brExtract nb count) (commit s (brExtractRule nb count s)) := by
  obtain ⟨-, hr⟩ | ⟨-, -, -, hr⟩ | ⟨-, -, -, hr⟩ := brExtractRule_cases nb count s
  · exact ended_commit_error hr (Raise.allowed_of_kind_ne nofun nofun)
  · exact ended_commit_error hr (Raise.allowed_of_kind_ne nofun nofun)
  · exact ended_commit_ok hr (.brExtract nb count)

/-- What a command can do (60_exceptions.md R250): each rule's outcomes, command by command. -/
theorem exec_ended {i : Instr} {s t : State} (h : exec i s = .next t) : Ended s i t := by
  cases i with
  | bwReset => cases h; exact .ok .bwReset _
  | bwPush nb v => cases h; exact bwPush_ended s nb v
  | bwFinish => cases h; exact bwFinish_ended s
  | brLoad buf => cases h; exact brLoad_ended s buf
  | brExtract nb count => cases h; exact brExtract_ended s nb count
  | wsClear => cases h; exact .ok .wsClear _
  | wsScan v => cases h; exact .ok (.wsScan v) _
  | wsWidth => cases h; exact .ok (.nothing _) _
  | wsSelect seq => cases h; exact .ok (.nothing _) _
  | ccEncode version sampleRate modelName levels =>
    cases h
    exact ended_commit_codec (ccEncodeRule_cases version sampleRate modelName levels s)
      ((encodeContainer_raises _ _ _ _ _).mono fun _ he => Raise.allowed_of_kindIn he (by decide) (by decide))
  | ccDecode buf fallbackName =>
    cases h
    exact ended_commit_codec (ccDecodeRule_cases buf fallbackName s)
      ((decodeContainer_raises _ _ _).mono fun _ he => Raise.allowed_of_decodeRaise he)
  | ffEncode sampleRate channelCount frames =>
    cases h
    exact ended_commit_codec (ffEncodeRule_cases sampleRate channelCount frames s)
      ((encodeFramed_raises _ _ _ _).mono fun _ he => Raise.allowed_of_kindIn he (by decide) (by decide))
  | ffDecode buf =>
    cases h
    exact ended_commit_codec (ffDecodeRule_cases buf s)
      ((decodeFramed_raises _ _).mono fun _ he => Raise.allowed_of_kindIn he (by decide) (by decide))
  | stRead => cases h; exact .ok (.nothing _) _

/-- Ending a command touches no stream: what it leaves there is what it has written. -/
theorem Ended.streams {s t : State} {i : Instr} (h : Ended s i t) : ∃ u, Writes s i u ∧ SameStreams u t := by
  cases h with
  | @ok u hw p => exact ⟨u, hw, by simp [SameStreams]⟩
  | raised _ => exact ⟨s, .nothing i, by simp [SameStreams]⟩

/-! ### Which command writes what -/

theorem Writes.eq_of_isContainerCommand {s u : State} {i : Instr} (h : Writes s i u)
    (hi : isContainerCommand i = true) : u = s := by
  cases h with
  | nothing => rfl
  | _ => exact nomatch hi

theorem Writes.writer_eq {s u : State} {i : Instr} (h : Writes s i u) (hreset : i ≠ .bwReset)
    (hfinish : i ≠ .bwFinish) (hpush : ∀ nb v, i ≠ .bwPush nb v) :
    u.bwAcc = s.bwAcc ∧ u.bwCnt = s.bwCnt ∧ u.bwOut = s.bwOut := by
  cases h with
  | bwReset => exact absurd rfl hreset
  | bwPush nb v => exact absurd rfl (hpush nb v)
  | bwFinish => exact absurd rfl hfinish
  | _ => exact ⟨rfl, rfl, rfl⟩

theorem Writes.bwOut_prefix {s u : State} {nb : Nat} {v : Word} (h : Writes s (.bwPush nb v) u) :
    s.bwOut <+: u.bwOut := by
  cases h with
  | nothing => exact List.prefix_refl _
  | bwPush => exact List.prefix_append _ _

theorem Writes.brBuf_eq {s u : State} {i : Instr} (h : Writes s i u) (hload : ∀ buf, i ≠ .brLoad buf) :
    u.brBuf = s.brBuf := by
  cases h with
  | brLoad buf => exact absurd rfl (hload buf)
  | _ => rfl

theorem Writes.cursor_eq {s u : State} {i : Instr} (h : Writes s i u) (hload : ∀ buf, i ≠ .brLoad buf)
    (hextract : ∀ nb count, i ≠ .brExtract nb count) :
    u.brPos = s.brPos ∧ u.brAcc = s.brAcc ∧ u.brCnt = s.brCnt := by
  cases h with
  | brLoad buf => exact absurd rfl (hload buf)
  | brExtract nb count => exact absurd rfl (hextract nb count)
  | _ => exact ⟨rfl, rfl, rfl⟩

theorem Writes.wsMax_eq {s u : State} {i : Instr} (h : Writes s i u) (hclear : i ≠ .wsClear)
    (hscan : ∀ v, i ≠ .wsScan v) : u.wsMax = s.wsMax := by
  cases h with
  | wsClear => exact absurd rfl hclear
  | wsScan v => exact absurd rfl (hscan v)
  | _ => rfl

theorem Writes.params_eq {s u : State} {i : Instr} (h : Writes s i u) : u.params = s.params := by
  cases h <;> rfl

theorem Writes.stickyErr_eq {s u : State} {i : Instr} (h : Writes s i u) : u.stickyErr = s.stickyErr := by
  cases h <;> rfl

/-- Settles O14: a container command's rule keeps the state, and ending it touches no stream. -/
theorem containerCommandsLeaveStreams : Obligations.ContainerCommandsLeaveStreams := by
  intro i s t hi h
  obtain ⟨u, hw, hsame⟩ := (exec_ended h).streams
  rwa [hw.eq_of_isContainerCommand hi] at hsame

/-- Settles O15, unit by unit. -/
theorem eachCommandWritesOnlyItsUnit : Obligations.EachCommandWritesOnlyItsUnit := by
  intro i s t h
  obtain ⟨u, hw, hbwAcc, hbwCnt, hbwOut, hbrBuf, hbrPos, hbrAcc, hbrCnt, hwsMax⟩ := (exec_ended h).streams
  rw [hbwAcc, hbwCnt, hbwOut, hbrBuf, hbrPos, hbrAcc, hbrCnt, hwsMax]
  refine ⟨hw.writer_eq, ?_, hw.brBuf_eq, hw.cursor_eq, hw.wsMax_eq⟩
  rintro nb v rfl
  exact hw.bwOut_prefix

/-! ### Parameters and STICKY_ERR -/

theorem Ended.params_eq {s t : State} {i : Instr} (h : Ended s i t) : t.params = s.params := by
  cases h with
  | ok hw _ => exact hw.params_eq
  | raised _ => rfl

theorem Ended.stickyErr_stays {s t : State} {i : Instr} (h : Ended s i t) (hs : s.stickyErr = true) :
    t.stickyErr = true := by
  cases h with
  | ok hw _ => rw [endedOk_stickyErr, hw.stickyErr_eq, hs]
  | raised _ => rw [endedWith_stickyErr, hs, Bool.true_or]

/-- Settles O16, by the ways a step can go. -/
theorem parametersAndStickyErrorStay : Obligations.ParametersAndStickyErrorStay := by
  intro s t h
  obtain ⟨-, hstep⟩ | ⟨rest, hin, hstep⟩ | ⟨c, rest, i, -, -, hstep⟩ | ⟨c, rest, e, -, -, hstep⟩ := step_cases s
  · cases hstep.symm.trans h
    exact ⟨rfl, fun _ hs => hs⟩
  · cases hstep.symm.trans h
    exact ⟨rfl, fun hne => absurd (by rw [hin]; rfl) hne⟩
  · have hend := exec_ended (hstep.symm.trans h)
    exact ⟨hend.params_eq, fun _ => hend.stickyErr_stays⟩
  · cases hstep.symm.trans h
    exact ⟨rfl, fun _ hs => by simp [hs]⟩

/-! ### The invariant of the streams -/

/-- The part of the invariant that speaks of writer, reader and buffers. -/
abbrev StreamsHold (s : State) : Prop := WriterHolds s ∧ ReaderHolds s ∧ BuffersFit s

@[simp] theorem exceeds_zero (cap : Option Nat) : exceeds cap 0 = false := by cases cap <;> simp [exceeds]

theorem writerHolds_withWriter_empty (s : State) : WriterHolds (s.withWriter Writer.empty) := Nat.one_pos

theorem StreamsHold.withWriter_empty {s : State} (h : StreamsHold s) : StreamsHold (s.withWriter Writer.empty) := by
  obtain ⟨-, hr, -, hbuf⟩ := h
  exact ⟨writerHolds_withWriter_empty s, hr, exceeds_zero _, hbuf⟩

/-- A value cut to its width leaves the writer's accumulator below its count (10_state.md R32). -/
theorem StreamsHold.push {s : State} {nb v : Nat} (h : StreamsHold s)
    (hfit : exceeds s.params.bufCap (s.writer.push nb (v % 2 ^ nb)).out.length = false) :
    StreamsHold (s.withWriter (s.writer.push nb (v % 2 ^ nb))) := by
  obtain ⟨hw, hr, -, hbuf⟩ := h
  exact ⟨(push_spec s.writer nb _ hw (Nat.mod_lt v (by positivity))).holds, hr, hfit, hbuf⟩

theorem StreamsHold.load {s : State} {buf : List Byte} (h : StreamsHold s)
    (hfit : exceeds s.params.bufCap buf.length = false) :
    StreamsHold ({ s with brBuf := buf }.withCursor Cursor.start) := by
  obtain ⟨hw, -, hout, -⟩ := h
  have hr := (readerHolds_withCursor { s with brBuf := buf } Cursor.start 0 (cursorAt_start buf) (Nat.zero_le 7)).1
  exact ⟨hw, hr, hout, hfit⟩

/-- A run of value steps takes a cursor of R35 to one of R35. -/
theorem StreamsHold.extract {s : State} (h : StreamsHold s) (nb count : Nat) :
    StreamsHold (s.withCursor (extractValues s.brBuf nb count s.cursor).2) := by
  obtain ⟨hw, hr, hfit⟩ := h
  have hcnt : s.cursor.cnt ≤ 7 := Nat.le_of_lt_succ s.brCnt.isLt
  obtain ⟨-, hcur, hcnt'⟩ := extractValues_spec s.brBuf nb count s.brBitPos s.cursor (cursorAt_of_readerHolds s hr) hcnt
  exact ⟨hw, (readerHolds_withCursor s _ _ hcur hcnt').1, hfit⟩

theorem Writes.streamsHold {s u : State} {i : Instr} (hw : Writes s i u) (h : StreamsHold s) : StreamsHold u := by
  cases hw with
  | nothing => exact h
  | bwReset => exact h.withWriter_empty
  | bwPush nb v hfit => exact h.push hfit
  | bwFinish => exact h.withWriter_empty
  | brLoad buf hfit => exact h.load hfit
  | brExtract nb count => exact h.extract nb count.toNat
  | wsClear => exact h
  | wsScan v => exact h

/-! ### The invariant of the status registers -/

theorem code_eq_four_iff (k : RaiseKind) : k.code = 4 ↔ k = .magicMismatch := by cases k <;> decide

theorem code_eq_eleven_iff (k : RaiseKind) : k.code = 11 ↔ k = .illegalCommand := by cases k <;> decide

theorem statusHolds_of_status_eq_zero {s : State} (hst : s.status = 0) (hf : s.errField = 0) (hi : s.errIndex = 0) :
    StatusHolds s := by
  simp [StatusHolds, hst, hf, hi]

theorem statusHolds_endedOk (s : State) (p : Payload) : StatusHolds (endedOk s p) :=
  statusHolds_of_status_eq_zero rfl rfl rfl

theorem statusHolds_endedWith (s : State) {e : Raise} (he : e.Allowed) :
    StatusHolds (endedWith s e.kind.code e.field.id e.index) := by
  refine ⟨(code_range e.kind).2, id_range e.field, ?ok, ?magic, ?illegal, ?sticky⟩
  case ok => exact fun h => absurd h (code_ne_zero e.kind)
  case magic =>
    intro h
    obtain ⟨hfield, hindex⟩ := he.magic ((code_eq_four_iff e.kind).1 h)
    simp [hfield, hindex, FieldId.id]
  case illegal =>
    intro h
    obtain ⟨hfield, hindex⟩ := he.illegal ((code_eq_eleven_iff e.kind).1 h)
    simp [hfield, hindex, FieldId.id]
  case sticky =>
    intro _ (h : e.kind.code ≠ 4)
    rw [endedWith_stickyErr, bne_iff_ne.2 h, Bool.or_true]

/-! ### The invariant at reset and over a step -/

theorem inv_iff (s : State) : s.Inv ↔ StreamsHold s ∧ StatusHolds s := by
  simp only [State.Inv, StreamsHold, and_assoc]

theorem inv_resetWith (p : Params) : (State.resetWith p).Inv := by
  have hw : WriterHolds (State.resetWith p) := Nat.one_pos
  have hr : ReaderHolds (State.resetWith p) := ⟨le_rfl, Nat.one_pos, fun h => absurd h (Nat.lt_irrefl 0)⟩
  have hfit : BuffersFit (State.resetWith p) := ⟨exceeds_zero _, exceeds_zero _⟩
  exact ⟨hw, hr, hfit, statusHolds_of_status_eq_zero rfl rfl rfl⟩

/-- No part of the invariant reads what stands on the ports. -/
theorem inv_resetBlock (s : State) : (resetBlock s).Inv := inv_resetWith s.params

theorem inv_endedWith {s : State} {e : Raise} (h : StreamsHold s) (he : e.Allowed) :
    (endedWith s e.kind.code e.field.id e.index).Inv :=
  (inv_iff _).2 ⟨h, statusHolds_endedWith s he⟩

theorem Ended.inv {s t : State} {i : Instr} (h : Ended s i t) (hs : StreamsHold s) : t.Inv := by
  cases h with
  | @ok u hw p => exact (inv_iff _).2 ⟨hw.streamsHold hs, statusHolds_endedOk u p⟩
  | raised he => exact inv_endedWith hs he

/-- Settles O9: reset gives the invariant, a command keeps that of the streams and writes the status registers as R242, R252
and R85 say, and an illegal command raises IllegalCommand(NONE, 0). -/
theorem everyStepKeepsInvariant : Obligations.EveryStepKeepsInvariant := by
  intro s t hinv h
  obtain ⟨hs, -⟩ := (inv_iff s).1 hinv
  obtain ⟨-, hstep⟩ | ⟨rest, -, hstep⟩ | ⟨c, rest, i, -, -, hstep⟩ | ⟨c, rest, e, -, -, hstep⟩ := step_cases s
  · cases hstep.symm.trans h
    exact hinv
  · cases hstep.symm.trans h
    exact inv_resetBlock _
  · exact (exec_ended (hstep.symm.trans h)).inv hs
  · cases hstep.symm.trans h
    exact inv_endedWith hs Raise.allowed_illegalCommand

/-- Settles O8; `State.reset` is the reset state under the default parameters. -/
theorem resetStateMeetsInvariant : Obligations.ResetStateMeetsInvariant :=
  fun p => ⟨inv_resetWith p, inv_resetWith Params.default⟩

/-! ### The step as the meaning of the decoded command -/

/-- Settles O5, by taking the command from the port. -/
theorem stepRunsDecodedCommand : Obligations.StepRunsDecodedCommand := by
  intro s c rest i hin hdec
  simp only [step, takeInput_cons s _ _ hin, hdec]

end Sys2Proof.Machine
end

section
/-! PROOFS. The encoding of 30_encoding.md: command words and their decoding (R80 to R86), the errors of the width operand
(R81, R101, R122), and the pseudo-instructions run on the machine (R90). -/

namespace Sys2Proof

/-! ### The fields of a command word -/

theorem opcField_toNat (w : Word) : (opcField w).toNat = w.toNat / 2 ^ 24 := by
  have := w.isLt
  simp only [opcField, BitVec.extractLsb'_toNat, Nat.shiftRight_eq_div_pow]
  omega

theorem rsvField_toNat (w : Word) : (rsvField w).toNat = w.toNat / 2 ^ 6 % 2 ^ 18 := by
  simp only [rsvField, BitVec.extractLsb'_toNat, Nat.shiftRight_eq_div_pow]

theorem rsvField_eq_zero_iff (w : Word) : rsvField w = 0 ↔ w.toNat / 2 ^ 6 % 2 ^ 18 = 0 := by
  rw [← rsvField_toNat, ← BitVec.toNat_inj]
  rfl

theorem nbField_eq (w : Word) : nbField w = w.toNat % 2 ^ 6 := by
  simp only [nbField, BitVec.extractLsb'_toNat, Nat.shiftRight_zero]

theorem nbField_lt (w : Word) : nbField w < 64 := (w.extractLsb' 0 6).isLt

theorem commandWord_toNat (o : Opcode) (nb : Nat) (h : nb < 64) :
    (commandWord o nb).toNat = o.code.toNat * 2 ^ 24 + nb := by
  have hcode := o.code.isLt
  have hnb : (BitVec.ofNat 32 nb).toNat = nb := by simp only [BitVec.toNat_ofNat]; omega
  have hopc : (o.code.setWidth 32 <<< 24).toNat = o.code.toNat <<< 24 := by
    simp only [BitVec.toNat_shiftLeft, BitVec.toNat_setWidth, Nat.shiftLeft_eq]
    omega
  rw [commandWord, BitVec.toNat_or, hopc, hnb, ← Nat.shiftLeft_add_eq_or_of_lt (by omega), Nat.shiftLeft_eq]

/-- A word with no reserved bit set is the opcode map's word of its other two fields (30_encoding.md R80, R84). -/
theorem commandWord_nbField {w : Word} {o : Opcode} (hopc : o.code = opcField w) (hrsv : rsvField w = 0) :
    commandWord o (nbField w) = w := by
  apply BitVec.eq_of_toNat_eq
  rw [rsvField_eq_zero_iff] at hrsv
  rw [commandWord_toNat o _ (nbField_lt w), hopc, opcField_toNat, nbField_eq]
  omega

/-! ### What decodes -/

/-- Decoding succeeds exactly when all checks of 30_encoding.md R85 pass. -/
theorem decode_ok_iff (w : Word) (op : Operand) (i : Instr) :
    decode w op = .ok i ↔
      ∃ o : Opcode, o.code = opcField w ∧ rsvField w = 0 ∧ (o.takesWidth = true ∨ nbField w = 0) ∧
        o.build (nbField w) op = some i := by
  constructor
  · intro h
    rw [decode] at h
    split at h
    case h_1 => cases h
    case h_2 o hopc =>
      split_ifs at h with hrsv hnb
      split at h
      case h_1 => cases h
      case h_2 hbuild =>
        cases h
        refine ⟨o, ofCode_eq_some _ _ hopc, not_not.mp hrsv, ?_, hbuild⟩
        rw [← Bool.not_eq_false, or_iff_not_imp_left, not_not]
        exact fun hw => not_not.mp fun hne => hnb ⟨hw, hne⟩
  · rintro ⟨o, hopc, hrsv, hnb, hbuild⟩
    rw [← commandWord_nbField hopc hrsv]
    exact decode_commandWord o _ op i (nbField_lt w) hnb hbuild

/-- A row of the opcode map builds the well-formed command that the row's word and the operand encode
(30_encoding.md R84). -/
theorem encode_of_build {o : Opcode} {nb : Nat} {op : Operand} {i : Instr} (h : o.build nb op = some i) (hlt : nb < 64)
    (hnb : o.takesWidth = true ∨ nb = 0) : i.wellFormed = true ∧ encode i = ⟨commandWord o nb, op⟩ := by
  obtain hwidth | rfl := hnb
  · cases o <;> cases hwidth <;> cases op <;> cases h <;> exact ⟨decide_eq_true hlt, rfl⟩
  · cases o <;> cases op <;> cases h <;> exact ⟨rfl, rfl⟩

end Sys2Proof

namespace Sys2Proof.Machine

/-- Settles O2, row by row of the opcode map. -/
theorem encodedCommandDecodesToItself : Obligations.EncodedCommandDecodesToItself := by
  intro i
  cases i with
  | bwReset => exact Laws.EncodeRoundTrip.bwReset
  | bwPush nb v => exact Laws.EncodeRoundTrip.bwPush nb v
  | bwFinish => exact Laws.EncodeRoundTrip.bwFinish
  | brLoad buf => exact Laws.EncodeRoundTrip.brLoad buf
  | brExtract nb count => exact Laws.EncodeRoundTrip.brExtract nb count
  | wsClear => exact Laws.EncodeRoundTrip.wsClear
  | wsScan v => exact Laws.EncodeRoundTrip.wsScan v
  | wsWidth => exact Laws.EncodeRoundTrip.wsWidth
  | wsSelect seq => exact Laws.EncodeRoundTrip.wsSelect seq
  | ccEncode version sampleRate modelName levels =>
    exact Laws.EncodeRoundTrip.ccEncode version sampleRate modelName levels
  | ccDecode buf fallbackName => exact Laws.EncodeRoundTrip.ccDecode buf fallbackName
  | ffEncode sampleRate channelCount frames => exact Laws.EncodeRoundTrip.ffEncode sampleRate channelCount frames
  | ffDecode buf => exact Laws.EncodeRoundTrip.ffDecode buf
  | stRead => exact Laws.EncodeRoundTrip.stRead

/-- Settles O3: what decodes passes every check, and the three fields of a word determine it. -/
theorem decodedCommandEncodesBack : Obligations.DecodedCommandEncodesBack := by
  intro w op i h
  obtain ⟨o, hopc, hrsv, hnb, hbuild⟩ := (decode_ok_iff w op i).mp h
  have henc := encode_of_build hbuild (nbField_lt w) hnb
  rwa [commandWord_nbField hopc hrsv] at henc

/-- Settles O1: each word is the encoding of its command, so O2 gives it. -/
theorem sampleCommandWordsDecode : Obligations.SampleCommandWordsDecode :=
  ⟨encodedCommandDecodesToItself (.bwPush 3 5) rfl, encodedCommandDecodesToItself (.brExtract 16 1) rfl,
    encodedCommandDecodesToItself (.wsScan 9) rfl, encodedCommandDecodesToItself (.ccDecode [0x53] []) rfl,
    encodedCommandDecodesToItself (.ffDecode [0xC0]) rfl, encodedCommandDecodesToItself .stRead rfl⟩

/-! ### Illegal commands -/

/-- The operand kind of a row of the opcode map (30_encoding.md R83, R84): that of its empty payload. -/
def opcodeKind (o : Opcode) : Nat := operandKind o.zeroOperand

theorem build_isSome (o : Opcode) (nb : Nat) (op : Operand) :
    (o.build nb op).isSome = (operandKind op == opcodeKind o) := by
  cases o <;> cases op <;> rfl

theorem opcodeRows_eq : opcodeRows = Opcode.all.map fun o => (o.code.toNat, opcodeKind o) := rfl

theorem mem_opcodeRows_iff (c k : Nat) : (c, k) ∈ opcodeRows ↔ ∃ o : Opcode, o.code.toNat = c ∧ opcodeKind o = k := by
  have hall : ∀ o : Opcode, o ∈ Opcode.all := by intro o; cases o <;> decide
  simp [opcodeRows_eq, hall]

theorem takesWidth_iff (o : Opcode) : o.takesWidth = true ↔ o.code.toNat = 0x02 ∨ o.code.toNat = 0x11 := by
  cases o <;> decide

/-- The four faults of 30_encoding.md R86 are the failures of the checks of R85. -/
theorem not_illegal_iff (c : Command) : ¬Illegal c ↔ ∃ i, decode c.word c.operand = .ok i := by
  simp only [decode_ok_iff]
  constructor
  · intro h
    simp only [Illegal, not_or, not_not] at h
    obtain ⟨-, hrsv, hnb, hrow⟩ := h
    obtain ⟨o, hopc, hkind⟩ := (mem_opcodeRows_iff _ _).mp hrow
    obtain ⟨i, hbuild⟩ : ∃ i, o.build (nbField c.word) c.operand = some i := by
      rw [← Option.isSome_iff_exists, build_isSome, hkind, beq_self_eq_true]
    refine ⟨i, o, ?_, (rsvField_eq_zero_iff _).mpr hrsv, ?_, hbuild⟩
    · rw [← BitVec.toNat_inj, hopc, opcField_toNat]
    · rw [takesWidth_iff, nbField_eq, hopc]
      omega
  · rintro ⟨i, o, hopc, hrsv, hnb, hbuild⟩
    have hcode : c.word.toNat / 2 ^ 24 = o.code.toNat := by rw [hopc, opcField_toNat]
    have hkind : operandKind c.operand = opcodeKind o := by
      rw [← beq_iff_eq, ← build_isSome o (nbField c.word), hbuild, Option.isSome_some]
    have hrow : (o.code.toNat, opcodeKind o) ∈ opcodeRows := (mem_opcodeRows_iff _ _).mpr ⟨o, rfl, rfl⟩
    rw [takesWidth_iff, nbField_eq] at hnb
    rw [rsvField_eq_zero_iff] at hrsv
    simp only [Illegal, hcode, hkind, not_or, not_not]
    refine ⟨List.mem_map_of_mem hrow, hrsv, ?_, hrow⟩
    rintro ⟨hne, h2, h11⟩
    omega

theorem step_of_decode_error {s : State} {c : Command} {rest : List HostEvent} {e : DecodeError}
    (hin : s.inputs = .command c :: rest) (hdec : decode c.word c.operand = .error e) :
    step s = .next (endedWith { s with inputs := rest } 11 0 0) := by
  simp only [step, takeInput_cons s _ _ hin, hdec, illegalCommand_eq]

/-- Settles O4: a command is illegal exactly when decoding rejects it. -/
theorem illegalCommandRaisesIllegalCommand : Obligations.IllegalCommandRaisesIllegalCommand := by
  intro s c rest hin
  refine ⟨fun hill => ?_, (not_illegal_iff c).mp⟩
  cases hdec : decode c.word c.operand with
  | error e => exact step_of_decode_error hin hdec
  | ok i => exact absurd hill ((not_illegal_iff c).mpr ⟨i, hdec⟩)

/-! ### The errors of BW_PUSH and BR_EXTRACT -/

theorem drain_length (k n t : Nat) : (drain k n t).1.length = k := by
  induction k generalizing n t with
  | zero => rfl
  | succ k ih => simp [drain, ih]

/-- The bytes a push leaves emitted, whatever the accumulator holds (40_bitwriter.md R101). -/
theorem pushedLength_eq (s : State) (nb v : Nat) : (s.writer.push nb v).out.length = pushedLength s nb := by
  simp only [Writer.push, List.length_append, drain_length]
  rfl

theorem exec_bwPush_error {s : State} {nb : Nat} {v : Word} {e : Raise} (h : bwPushRule nb v s = .error e) :
    exec (.bwPush nb v) s = .next (endedWith s e.kind.code e.field.id e.index) := by
  rw [exec_bwPush, h, commit_error]

theorem exec_brExtract_error {s : State} {nb : Nat} {count : Word} {e : Raise}
    (h : brExtractRule nb count s = .error e) :
    exec (.brExtract nb count) s = .next (endedWith s e.kind.code e.field.id e.index) := by
  rw [exec_brExtract, h, commit_error]

/-- Settles O19: of the four outcomes of the rule, the conditions of each clause leave one. -/
theorem bwPushErrorsInOrder : Obligations.BwPushErrorsInOrder := by
  intro s nb v
  have hcases := bwPushRule_cases nb v s
  simp only [pushedLength_eq] at hcases
  obtain ⟨hnb, hr⟩ | ⟨h1, h32, hv, hpol, hr⟩ | ⟨h1, h32, hacc, hcap, hr⟩ | ⟨h1, h32, hacc, hcap, -⟩ := hcases
  · exact ⟨fun _ => exec_bwPush_error hr, by omega, by omega⟩
  · have hrej : ¬Accepted s.params.ovfPolicy nb v := by simp [Accepted, hpol, hv]
    exact ⟨by omega, fun _ _ _ => exec_bwPush_error hr, fun _ _ hacc => absurd hacc hrej⟩
  · exact ⟨by omega, fun _ _ hrej => absurd hacc hrej, fun _ _ _ _ => exec_bwPush_error hr⟩
  · exact ⟨by omega, fun _ _ hrej => absurd hacc hrej, fun _ _ _ hex => by simp [hcap] at hex⟩

/-- Settles O26: of the three outcomes of the rule, the conditions of each clause leave one. -/
theorem brExtractErrorsInOrder : Obligations.BrExtractErrorsInOrder := by
  intro s nb count
  obtain ⟨hnb, hr⟩ | ⟨h1, h32, hcap, hr⟩ | ⟨h1, h32, hcap, -⟩ := brExtractRule_cases nb count s
  · exact ⟨fun _ => exec_brExtract_error hr, by omega⟩
  · exact ⟨by omega, fun _ _ _ => exec_brExtract_error hr⟩
  · exact ⟨by omega, fun _ _ hex => by simp [hcap] at hex⟩

/-! ### Running a program -/

/-- A step with a program on the port is the meaning of its first command (30_encoding.md R80). -/
theorem step_withProgram_cons (s : State) {i : Instr} (hi : i.wellFormed = true) (is : List Instr) :
    step (s.withProgram (i :: is)) = exec i (s.withProgram is) :=
  stepRunsDecodedCommand _ (encode i) (issue is ++ s.inputs) i rfl (encodedCommandDecodesToItself i hi)

theorem run_withProgram_cons {s t : State} {i : Instr} {is : List Instr} (hi : i.wellFormed = true)
    (h : exec i (s.withProgram is) = .next (t.withProgram is)) (k : Nat) :
    Host.Core.run core (k + 1) (s.withProgram (i :: is)) = Host.Core.run core k (t.withProgram is) := by
  have hstep : core.step (s.withProgram (i :: is)) = .next (t.withProgram is) :=
    (step_withProgram_cons s hi is).trans h
  simp only [Host.Core.run, hstep]

theorem run_withProgram_singleton {s t : State} {i : Instr} (hi : i.wellFormed = true) (h : exec i s = .next t) :
    Host.Core.run core 1 (s.withProgram [i]) = .next t :=
  run_withProgram_cons (is := []) hi h 0

theorem wellFormed_bwPush {nb : Nat} (h32 : nb ≤ 32) (v : Word) : (Instr.bwPush nb v).wellFormed = true :=
  decide_eq_true (by omega)

theorem wellFormed_brExtract {nb : Nat} (h32 : nb ≤ 32) (count : Word) :
    (Instr.brExtract nb count).wellFormed = true :=
  decide_eq_true (by omega)

/-! ### The responses of a run -/

/-- Every response given since `s` has status OK. -/
def OkSince (s t : State) : Prop :=
  ∃ given, t.responses = s.responses ++ given ∧ ∀ r ∈ given, r.status = 0

theorem OkSince.refl (s : State) : OkSince s s := ⟨[], by simp, by simp⟩

theorem OkSince.endedOk {s u : State} (h : OkSince s u) (p : Payload) : OkSince s (endedOk u p) := by
  obtain ⟨given, hu, hok⟩ := h
  refine ⟨given ++ [⟨0, 0, 0, u.stickyErr, p⟩], by simp [hu], ?_⟩
  rw [List.forall_mem_append, List.forall_mem_singleton]
  exact ⟨hok, rfl⟩

theorem OkSince.trans {s t u : State} (h : OkSince s t) (h' : OkSince t u) : OkSince s u := by
  obtain ⟨given, ht, hok⟩ := h
  obtain ⟨given', hu, hok'⟩ := h'
  exact ⟨given ++ given', by rw [hu, ht, List.append_assoc], List.forall_mem_append.mpr ⟨hok, hok'⟩⟩

theorem OkSince.pseudo_status {s t : State} (h : OkSince s t) :
    Pseudo.status (t.responses.drop s.responses.length) = 0 := by
  obtain ⟨given, ht, hok⟩ := h
  have hnone : given.find? (fun r => r.status != statusOk) = none := by
    simpa [List.find?_eq_none, statusOk] using hok
  rw [ht, List.drop_left, Pseudo.status, hnone]
  rfl

theorem OkSince.pseudo_result {s u : State} (h : OkSince s u) (p : Payload) :
    Pseudo.result ((Machine.endedOk u p).responses.drop s.responses.length) = p := by
  obtain ⟨given, hu, -⟩ := h
  rw [endedOk_responses, hu, List.append_assoc, List.drop_left, Pseudo.result, List.getLast?_concat]

/-! ### Commands that end OK -/

theorem exec_bwPush_ok {s : State} {nb : Nat} {v : Word} (h1 : 1 ≤ nb) (h32 : nb ≤ 32)
    (hacc : Accepted s.params.ovfPolicy nb v) (hcap : exceeds s.params.bufCap (pushedLength s nb) = false) :
    exec (.bwPush nb v) s = .next (endedOk (s.withWriter (s.writer.push nb (v.toNat % 2 ^ nb))) .none) := by
  have hcases := bwPushRule_cases nb v s
  simp only [pushedLength_eq] at hcases
  obtain ⟨hnb, -⟩ | ⟨-, -, hv, hpol, -⟩ | ⟨-, -, -, hex, -⟩ | ⟨-, -, -, -, hr⟩ := hcases
  · omega
  · exact absurd hacc (by simp [Accepted, hpol, hv])
  · simp [hcap] at hex
  · rw [exec_bwPush, hr, commit_ok]

theorem exec_bwFinish_ok {s : State} (hcap : exceeds s.params.bufCap s.writer.flush.length = false) :
    exec .bwFinish s = .next (endedOk (s.withWriter Writer.empty) (.bytes s.writer.flush)) := by
  obtain ⟨hex, -⟩ | ⟨-, hr⟩ := bwFinishRule_cases s
  · simp [hcap] at hex
  · rw [exec_bwFinish, hr, commit_ok]

theorem exec_brLoad_ok {s : State} {buf : List Byte} (hcap : exceeds s.params.bufCap buf.length = false) :
    exec (.brLoad buf) s = .next (endedOk ({ s with brBuf := buf }.withCursor Cursor.start) .none) := by
  obtain ⟨hex, -⟩ | ⟨-, hr⟩ := brLoadRule_cases buf s
  · simp [hcap] at hex
  · rw [exec_brLoad, hr, commit_ok]

theorem exec_brExtract_ok {s : State} {nb : Nat} {count : Word} (h1 : 1 ≤ nb) (h32 : nb ≤ 32)
    (hcap : exceeds s.params.seqCap count.toNat = false) :
    exec (.brExtract nb count) s =
      .next (endedOk (s.withCursor (extractValues s.brBuf nb count.toNat s.cursor).2)
        (.values (toWords (extractValues s.brBuf nb count.toNat s.cursor).1))) := by
  obtain ⟨hnb, -⟩ | ⟨-, -, hex, -⟩ | ⟨-, -, -, hr⟩ := brExtractRule_cases nb count s
  · omega
  · simp [hcap] at hex
  · rw [exec_brExtract, hr, commit_ok]

/-! ### The pseudo-instruction pack -/

theorem exceeds_mono {cap : Option Nat} {m n : Nat} (h : exceeds cap n = false) (hle : m ≤ n) :
    exceeds cap m = false := by
  cases cap with
  | none => rfl
  | some c => simp only [exceeds, decide_eq_false_iff_not] at h ⊢; omega

theorem writer_bits_length (w : Writer) : w.bits.length = 8 * w.out.length + w.cnt.toNat := by
  rw [Writer.bits, List.length_append, bitsOfBytes_length, bits_length]

theorem valueBits_length (values : List Nat) (nb : Nat) : (valueBits values nb).length = values.length * nb := by
  simp [valueBits, List.length_flatMap]

theorem valueBits_cons (v : Nat) (values : List Nat) (nb : Nat) :
    valueBits (v :: values) nb = bits v nb ++ valueBits values nb := List.flatMap_cons

theorem fromWords_cons (v : Word) (values : List Word) : fromWords (v :: values) = v.toNat :: fromWords values := rfl

/-- The bytes a push leaves emitted are within those of the stream it leaves, padded (40_bitwriter.md R101). -/
theorem pushedLength_le (s : State) (nb : Nat) : pushedLength s nb ≤ (s.writer.bits.length + nb + 7) / 8 := by
  have hout : s.writer.out.length = s.bwOut.length := rfl
  have hcnt : s.writer.cnt = s.bwCnt := rfl
  rw [writer_bits_length, hout, hcnt, pushedLength]
  omega

/-- The state after BW_RESET (40_bitwriter.md R100). -/
def afterBwReset (s : State) : State := endedOk (s.withWriter Writer.empty) .none

theorem exec_bwReset_withProgram (s : State) (is : List Instr) :
    exec .bwReset (s.withProgram is) = .next ((afterBwReset s).withProgram is) := rfl

/-- The state after a BW_PUSH of a value that fits (40_bitwriter.md R101). -/
def afterBwPush (s : State) (nb : Nat) (v : Word) : State :=
  endedOk (s.withWriter (s.writer.push nb v.toNat)) .none

theorem exec_bwPush_withProgram {s : State} {nb : Nat} {v : Word} (h1 : 1 ≤ nb) (h32 : nb ≤ 32) (hv : v.toNat < 2 ^ nb)
    (hcap : exceeds s.params.bufCap (pushedLength s nb) = false) (is : List Instr) :
    exec (.bwPush nb v) (s.withProgram is) = .next ((afterBwPush s nb v).withProgram is) := by
  have h := exec_bwPush_ok (s := s.withProgram is) h1 h32 (.inl hv) hcap
  rw [Nat.mod_eq_of_lt hv] at h
  exact h

theorem afterBwPush_holds {s : State} {nb : Nat} {v : Word} (h : s.writer.Holds) (hv : v.toNat < 2 ^ nb) :
    (afterBwPush s nb v).writer.Holds := (push_spec s.writer nb v.toNat h hv).holds

theorem afterBwPush_bits {s : State} {nb : Nat} {v : Word} (h : s.writer.Holds) (hv : v.toNat < 2 ^ nb) :
    (afterBwPush s nb v).writer.bits = s.writer.bits ++ bits v.toNat nb := (push_spec s.writer nb v.toNat h hv).bits

/-- `t` is `s` after pushes that all ended OK: the stream has grown by the values' bits (40_bitwriter.md R106). -/
structure Pushed (nb : Nat) (values : List Word) (s t : State) : Prop where
  bits : t.writer.bits = s.writer.bits ++ valueBits (fromWords values) nb
  params : t.params = s.params
  okSince : OkSince s t

theorem Pushed.nil (nb : Nat) (s : State) : Pushed nb [] s s := ⟨(List.append_nil _).symm, rfl, .refl s⟩

theorem Pushed.cons {nb : Nat} {v : Word} {values : List Word} {s t : State} (hholds : s.writer.Holds)
    (hv : v.toNat < 2 ^ nb) (h : Pushed nb values (afterBwPush s nb v) t) : Pushed nb (v :: values) s t where
  bits := by rw [h.bits, afterBwPush_bits hholds hv, List.append_assoc, fromWords_cons, valueBits_cons]
  params := h.params
  okSince := ((OkSince.refl s).endedOk .none).trans h.okSince

/-- Pushes whose stream, padded, is within the capacity all end OK. -/
theorem run_pushes {nb : Nat} (h1 : 1 ≤ nb) (h32 : nb ≤ 32) (values : List Word) (is : List Instr) (k : Nat) (s : State)
    (hholds : s.writer.Holds) (hfit : ∀ v ∈ fromWords values, v < 2 ^ nb)
    (hcap : exceeds s.params.bufCap ((s.writer.bits.length + values.length * nb + 7) / 8) = false) :
    ∃ t, Pushed nb values s t ∧
      Host.Core.run core (values.length + k) (s.withProgram (values.map (.bwPush nb ·) ++ is)) =
        Host.Core.run core k (t.withProgram is) := by
  induction values generalizing s with
  | nil => exact ⟨s, .nil nb s, by simp⟩
  | cons v values ih =>
    obtain ⟨hv, hrest⟩ := List.forall_mem_cons.mp hfit
    rw [List.length_cons, Nat.succ_mul] at hcap
    have hlen : (afterBwPush s nb v).writer.bits.length = s.writer.bits.length + nb := by
      rw [afterBwPush_bits hholds hv, List.length_append, bits_length]
    have hcapRest := exceeds_mono hcap (m := ((afterBwPush s nb v).writer.bits.length + values.length * nb + 7) / 8)
      (by omega)
    have hcapFirst := exceeds_mono hcap ((pushedLength_le s nb).trans (by omega))
    obtain ⟨t, ht, hrun⟩ := ih (afterBwPush s nb v) (afterBwPush_holds hholds hv) hrest hcapRest
    refine ⟨t, .cons hholds hv ht, ?_⟩
    rw [List.length_cons, Nat.succ_add, List.map_cons, List.cons_append,
      run_withProgram_cons (wellFormed_bwPush h32 v) (exec_bwPush_withProgram h1 h32 hv hcapFirst _), hrun]

/-- Settles O57: BW_RESET empties the stream, the pushes append the values' bits, and BW_FINISH hands them off. -/
theorem packProgramReturnsPackedBytes : Obligations.PackProgramReturnsPackedBytes := by
  intro s values nb h1 h32 hfit hcap
  have hempty : (afterBwReset s).writer.bits = [] := rfl
  obtain ⟨t, ht, hrun⟩ := run_pushes h1 h32 values [.bwFinish] 1 (afterBwReset s) Nat.one_pos hfit
    (by rw [hempty, List.length_nil, Nat.zero_add]; exact hcap)
  have hflush : t.writer.flush = bytesOf (valueBits (fromWords values) nb) := by
    rw [flush_eq, ht.bits, hempty, List.nil_append]
  have hfits : exceeds t.params.bufCap t.writer.flush.length = false := by
    rw [hflush, bytesOf_length, valueBits_length, fromWords_length, ht.params]
    exact hcap
  have hok : OkSince s (t.withWriter Writer.empty) := ((OkSince.refl s).endedOk .none).trans ht.okSince
  refine ⟨endedOk (t.withWriter Writer.empty) (.bytes t.writer.flush), ?run, (hok.endedOk _).pseudo_status, ?result,
    rfl, rfl, rfl⟩
  case run =>
    calc Host.Core.run core (values.length + 2) (s.withProgram (Pseudo.pack values nb).expand)
        = Host.Core.run core (values.length + 1)
            ((afterBwReset s).withProgram (values.map (.bwPush nb ·) ++ [.bwFinish])) :=
          run_withProgram_cons rfl (exec_bwReset_withProgram s _) _
      _ = Host.Core.run core 1 (t.withProgram [.bwFinish]) := hrun
      _ = .next (endedOk (t.withWriter Writer.empty) (.bytes t.writer.flush)) :=
          run_withProgram_singleton rfl (exec_bwFinish_ok hfits)
  case result => rw [hok.pseudo_result, hflush]

/-! ### The pseudo-instruction unpack -/

/-- The state after a BR_LOAD within the capacity (41_bitreader.md R120). -/
def afterBrLoad (s : State) (buf : List Byte) : State :=
  endedOk ({ s with brBuf := buf }.withCursor Cursor.start) .none

theorem exec_brLoad_withProgram {s : State} {buf : List Byte} (hcap : exceeds s.params.bufCap buf.length = false)
    (is : List Instr) : exec (.brLoad buf) (s.withProgram is) = .next ((afterBrLoad s buf).withProgram is) :=
  exec_brLoad_ok (s := s.withProgram is) hcap

@[simp] theorem afterBrLoad_brBuf (s : State) (buf : List Byte) : (afterBrLoad s buf).brBuf = buf := rfl
@[simp] theorem afterBrLoad_cursor (s : State) (buf : List Byte) : (afterBrLoad s buf).cursor = Cursor.start := rfl

theorem toWords_unpack (buf : List Byte) (count nb : Nat) :
    toWords (unpack buf count nb) = streamValues buf 0 nb count := by
  simp [unpack_eq, toWords, streamValues]

/-- A BR_EXTRACT right after BR_LOAD reads what a fresh reader would (41_bitreader.md R125). -/
theorem exec_brExtract_afterBrLoad {s : State} {buf : List Byte} {nb : Nat} {count : Word} (h1 : 1 ≤ nb) (h32 : nb ≤ 32)
    (hcap : exceeds s.params.seqCap count.toNat = false) :
    exec (.brExtract nb count) (afterBrLoad s buf) =
      .next (endedOk ((afterBrLoad s buf).withCursor (extractValues buf nb count.toNat Cursor.start).2)
        (.values (streamValues buf 0 nb count.toNat))) := by
  have h := exec_brExtract_ok (s := afterBrLoad s buf) h1 h32 hcap
  rwa [afterBrLoad_brBuf, afterBrLoad_cursor, ← unpack, toWords_unpack] at h

/-- Settles O58: BR_LOAD starts the cursor over, and BR_EXTRACT reads from there. -/
theorem unpackProgramReturnsStreamValues : Obligations.UnpackProgramReturnsStreamValues := by
  intro s buf count nb h1 h32 hbuf hseq
  have hok : OkSince s ((afterBrLoad s buf).withCursor (extractValues buf nb count.toNat Cursor.start).2) :=
    (OkSince.refl s).endedOk .none
  have hrun : Host.Core.run core 2 (s.withProgram (Pseudo.unpack buf count nb).expand) = _ :=
    (run_withProgram_cons rfl (exec_brLoad_withProgram hbuf _) 1).trans
      (run_withProgram_singleton (wellFormed_brExtract h32 count) (exec_brExtract_afterBrLoad h1 h32 hseq))
  exact ⟨_, hrun, (hok.endedOk _).pseudo_status, hok.pseudo_result _⟩

end Sys2Proof.Machine
end

section
/-! PROOFS. The BitWriter of 40_bitwriter.md: BW_RESET (R100), BW_PUSH (R101, R102), BW_FINISH (R103), the closed form and the
length of a packed sequence (R104, R105), and pushes of mixed widths (R106). -/

namespace Sys2Proof.Machine

/-! ### BW_RESET -/

/-- Settles O17. -/
theorem bwResetEmptiesWriter : Obligations.BwResetEmptiesWriter :=
  ⟨encodedCommandDecodesToItself .bwReset rfl, exec_bwReset⟩

/-! ### BW_PUSH of an accepted value -/

/-- The push of an accepted value's low `nb` bits, which fit whether or not the value does (40_bitwriter.md R101, R102). -/
theorem push_mod_spec {s : State} (nb v : Nat) (h : WriterHolds s) : PushSpec s.writer nb (v % 2 ^ nb) :=
  push_spec s.writer nb _ h (Nat.mod_lt v (Nat.two_pow_pos nb))

/-- Settles O18: the state after the command is the writer's push, whose stream, count and length are those of `PushSpec`. -/
theorem bwPushAppendsValueBits : Obligations.BwPushAppendsValueBits := by
  intro s nb v hholds h1 h32 hacc hcap
  have hpush := push_mod_spec nb v.toNat hholds
  exact ⟨_, exec_bwPush_ok h1 h32 hacc hcap, rfl, hpush.bits, hpush.length, hpush.cnt, hpush.holds⟩

/-! ### BW_FINISH -/

theorem flush_eq_finishedStream (s : State) : s.writer.flush = finishedStream s := flush_eq s.writer

theorem exec_bwFinish_error {s : State} (hcap : exceeds s.params.bufCap s.writer.flush.length = true) :
    exec .bwFinish s = .next (endedWith s 10 20 0) := by
  obtain ⟨-, hr⟩ | ⟨hfit, -⟩ := bwFinishRule_cases s
  · rw [exec_bwFinish, hr, commit_error]; rfl
  · simp [hcap] at hfit

/-- Settles O20: the flushed buffer is the padded stream, so its length decides between the rule's two outcomes. -/
theorem bwFinishHandsOffPaddedStream : Obligations.BwFinishHandsOffPaddedStream := by
  refine ⟨encodedCommandDecodesToItself .bwFinish rfl, fun s _ => ?_⟩
  rw [← flush_eq_finishedStream]
  exact ⟨exec_bwFinish_ok, exec_bwFinish_error⟩

/-! ### The closed form of pack -/

/-- Pushing a sequence appends the bits of its values in order, from any writer (40_bitwriter.md R104). -/
theorem foldl_push_bits {values : List Nat} {nb : Nat} (hfit : ∀ v ∈ values, v < 2 ^ nb) {w : Writer} (hw : w.Holds) :
    (values.foldl (fun w v => w.push nb v) w).bits = w.bits ++ valueBits values nb := by
  induction values generalizing w with
  | nil => exact (List.append_nil _).symm
  | cons v values ih =>
    obtain ⟨hv, hrest⟩ := List.forall_mem_cons.mp hfit
    have hpush := push_spec w nb v hw hv
    rw [List.foldl_cons, ih hrest hpush.holds, hpush.bits, List.append_assoc, valueBits_cons]

theorem writer_empty_holds : Writer.empty.Holds := Nat.one_pos

theorem writer_empty_bits : Writer.empty.bits = [] := rfl

/-- Settles O21: a flush pads the writer's stream, and from the empty writer that is the values' bits. -/
theorem packIsPaddedValueBits : Obligations.PackIsPaddedValueBits := by
  intro values nb _ _ hfit
  rw [pack, flush_eq, foldl_push_bits hfit writer_empty_holds, writer_empty_bits, List.nil_append]

/-- Settles O22, from the closed form O21. -/
theorem packedLengthIsCeilingOfBits : Obligations.PackedLengthIsCeilingOfBits := by
  intro values nb h1 h32 hfit
  rw [packIsPaddedValueBits values nb h1 h32 hfit, bytesOf_length, valueBits_length]

/-! ### Pushes of mixed widths -/

/-- Without a capacity, BW_PUSH ends OK on this width and value (40_bitwriter.md R101, R102). -/
abbrev PushTaken (policy : OvfPolicy) (p : Nat × Word) : Prop := 1 ≤ p.1 ∧ p.1 ≤ 32 ∧ Accepted policy p.1 p.2

/-- The bits that pushes of mixed widths add to the stream (40_bitwriter.md R106). -/
def takenBits (policy : OvfPolicy) (pushes : List (Nat × Word)) : List Bool :=
  (pushes.filter fun p => decide (PushTaken policy p)).flatMap fun p => bits (p.2.toNat % 2 ^ p.1) p.1

theorem takenBits_singleton_of_taken {policy : OvfPolicy} {p : Nat × Word} (h : PushTaken policy p) :
    takenBits policy [p] = bits (p.2.toNat % 2 ^ p.1) p.1 := by
  rw [takenBits, List.filter_singleton, decide_eq_true h]
  exact List.flatMap_singleton _ _

theorem takenBits_singleton_of_not_taken {policy : OvfPolicy} {p : Nat × Word} (h : ¬PushTaken policy p) :
    takenBits policy [p] = [] := by
  rw [takenBits, List.filter_singleton, decide_eq_false h]
  rfl

theorem takenBits_cons (policy : OvfPolicy) (p : Nat × Word) (pushes : List (Nat × Word)) :
    takenBits policy (p :: pushes) = takenBits policy [p] ++ takenBits policy pushes := by
  rw [takenBits, ← List.singleton_append, List.filter_append, List.flatMap_append]
  rfl

/-- `t` has the stream of `s` grown by `added`, and its parameters and port. -/
structure Grown (added : List Bool) (s t : State) : Prop where
  bits : t.writer.bits = s.writer.bits ++ added
  holds : WriterHolds t
  params : t.params = s.params
  inputs : t.inputs = s.inputs

theorem Grown.nil {s : State} (h : WriterHolds s) : Grown [] s s := ⟨(List.append_nil _).symm, h, rfl, rfl⟩

theorem Grown.trans {a b : List Bool} {s t u : State} (h : Grown a s t) (h' : Grown b t u) : Grown (a ++ b) s u where
  bits := by rw [h'.bits, h.bits, List.append_assoc]
  holds := h'.holds
  params := h'.params.trans h.params
  inputs := h'.inputs.trans h.inputs

/-- A push that is not taken ends with a status (40_bitwriter.md R101). -/
theorem exec_bwPush_not_taken {s : State} {p : Nat × Word} (h : ¬PushTaken s.params.ovfPolicy p) :
    ∃ code field, exec (.bwPush p.1 p.2) s = .next (endedWith s code field 0) := by
  obtain ⟨hwidth, hvalue, -⟩ := bwPushErrorsInOrder s p.1 p.2
  by_cases hnb : p.1 < 1 ∨ 32 < p.1
  · exact ⟨3, 18, hwidth hnb⟩
  · have h1 : 1 ≤ p.1 := by omega
    have h32 : p.1 ≤ 32 := by omega
    exact ⟨6, 19, hvalue h1 h32 fun hacc => h ⟨h1, h32, hacc⟩⟩

/-- One push, taken or not, in front of what else stands on the port (40_bitwriter.md R106, 70_reset_and_hazards.md R278). -/
theorem exec_bwPush_grown {s : State} (hholds : WriterHolds s) (hcap : s.params.bufCap = none) (p : Nat × Word)
    (is : List Instr) :
    ∃ t, exec (.bwPush p.1 p.2) (s.withProgram is) = .next (t.withProgram is) ∧
      Grown (takenBits s.params.ovfPolicy [p]) s t := by
  by_cases htaken : PushTaken s.params.ovfPolicy p
  · obtain ⟨h1, h32, hacc⟩ := htaken
    have hpush := push_mod_spec p.1 p.2.toNat hholds
    have hfits : exceeds (s.withProgram is).params.bufCap (pushedLength (s.withProgram is) p.1) = false := by
      rw [withProgram_params, hcap]; rfl
    rw [takenBits_singleton_of_taken ⟨h1, h32, hacc⟩]
    exact ⟨endedOk (s.withWriter (s.writer.push p.1 (p.2.toNat % 2 ^ p.1))) .none, exec_bwPush_ok h1 h32 hacc hfits,
      hpush.bits, hpush.holds, rfl, rfl⟩
  · obtain ⟨code, field, hexec⟩ := exec_bwPush_not_taken (s := s.withProgram is) htaken
    rw [takenBits_singleton_of_not_taken htaken]
    exact ⟨endedWith s code field 0, hexec, (List.append_nil _).symm, hholds, rfl, rfl⟩

theorem run_mixed_pushes {s : State} (hholds : WriterHolds s) (hcap : s.params.bufCap = none)
    {pushes : List (Nat × Word)} (hnb : ∀ p ∈ pushes, p.1 < 64) :
    ∃ t, Host.Core.run core pushes.length (s.withProgram (pushes.map fun p => .bwPush p.1 p.2)) = .next t ∧
      Grown (takenBits s.params.ovfPolicy pushes) s t := by
  induction pushes generalizing s with
  | nil => exact ⟨s, rfl, .nil hholds⟩
  | cons p pushes ih =>
    obtain ⟨hp, hrest⟩ := List.forall_mem_cons.mp hnb
    obtain ⟨u, hexec, hu⟩ := exec_bwPush_grown hholds hcap p (pushes.map fun p => .bwPush p.1 p.2)
    obtain ⟨t, hrun, ht⟩ := ih hu.holds (hu.params ▸ hcap) hrest
    have hwf : (Instr.bwPush p.1 p.2).wellFormed = true := decide_eq_true hp
    rw [hu.params] at ht
    exact ⟨t, (run_withProgram_cons hwf hexec _).trans hrun, takenBits_cons .. ▸ hu.trans ht⟩

/-- Settles O23, push by push. -/
theorem mixedWidthPushesGrowOneStream : Obligations.MixedWidthPushesGrowOneStream := by
  intro s pushes hholds hcap hnb
  obtain ⟨t, hrun, ht⟩ := run_mixed_pushes hholds hcap hnb
  exact ⟨t, hrun, ht.inputs, ht.bits⟩

end Sys2Proof.Machine
end

section
/-! PROOFS. The BitReader of 41_bitreader.md: BR_LOAD (R120), BR_EXTRACT (R124, R127), the round trip through a packed
sequence (R128), and packed streams cut short (R129). -/

namespace Sys2Proof.Machine

/-! ### BR_LOAD -/

theorem exec_brLoad_error {s : State} {buf : List Byte} (hcap : exceeds s.params.bufCap buf.length = true) :
    exec (.brLoad buf) s = .next (endedWith s 10 20 0) := by
  obtain ⟨-, hr⟩ | ⟨hfit, -⟩ := brLoadRule_cases buf s
  · rw [exec_brLoad, hr, commit_error]; rfl
  · simp [hcap] at hfit

/-- Settles O24: the buffer's length decides between the rule's two outcomes. -/
theorem brLoadAttachesBuffer : Obligations.BrLoadAttachesBuffer := fun _ buf =>
  ⟨encodedCommandDecodesToItself (.brLoad buf) rfl, exec_brLoad_ok, exec_brLoad_error⟩

/-! ### BR_EXTRACT -/

/-- Under R35 the bit position of R36 fixes the byte position and the count of buffered bits (41_bitreader.md R124). -/
theorem readerHolds_position {s : State} (h : ReaderHolds s) :
    s.brPos = (s.brBitPos + 7) / 8 ∧ s.brCnt.toNat = 8 * s.brPos - s.brBitPos := by
  have hpos : s.brBitPos + s.brCnt.toNat = 8 * s.brPos := (cursorAt_of_readerHolds s h).position
  have hcnt := s.brCnt.isLt
  omega

/-- Settles O25: the run of value steps from the cursor of R35, written back as a cursor of R35. -/
theorem brExtractReadsStreamValues : Obligations.BrExtractReadsStreamValues := by
  intro s nb count hholds h1 h32 hcap
  have hcnt : s.cursor.cnt ≤ 7 := Nat.le_of_lt_succ s.brCnt.isLt
  obtain ⟨hvalues, hcursor, hcnt'⟩ :=
    extractValues_spec s.brBuf nb count.toNat s.brBitPos s.cursor (cursorAt_of_readerHolds s hholds) hcnt
  obtain ⟨hholds', hbitPos⟩ := readerHolds_withCursor s _ _ hcursor hcnt'
  obtain ⟨hpos, hcount⟩ := readerHolds_position hholds'
  have hpayload : toWords (extractValues s.brBuf nb count.toNat s.cursor).1 =
      streamValues s.brBuf s.brBitPos nb count.toNat := by
    rw [hvalues, toWords, List.map_map]; rfl
  have hexec := exec_brExtract_ok (s := s) h1 h32 hcap
  rw [hpayload] at hexec
  exact ⟨_, hexec, rfl, hbitPos, hpos, hcount, hholds'⟩

/-! ### An exhausted reader -/

theorem brAcc_eq_zero_of_brCnt {s : State} (h : ReaderHolds s) (hcnt : s.brCnt = 0) : s.brAcc = 0 := by
  obtain ⟨-, hacc, -⟩ := h
  rw [hcnt] at hacc
  exact BitVec.eq_of_toNat_eq (Nat.lt_one_iff.mp hacc)

theorem streamValues_past_end {buf : List Byte} {p : Nat} (h : 8 * buf.length ≤ p) (nb count : Nat) :
    streamValues buf p nb count = List.replicate count 0 := by
  refine List.eq_replicate_iff.mpr ⟨by simp [streamValues], fun v hv => ?_⟩
  obtain ⟨k, -, rfl⟩ := List.mem_map.mp hv
  exact congrArg (BitVec.ofNat 32) (streamValue_past_end buf (p + k * nb) nb (by omega))

/-- Settles O27: BR_EXTRACT (O25) reads past the end, and the cursor it leaves is the one at the end, as before. -/
theorem exhaustedReaderReturnsZeros : Obligations.ExhaustedReaderReturnsZeros := by
  intro s nb count hholds hend hempty h1 h32 hcap
  obtain ⟨t, hexec, ht, hbitPos, hpos, hcount, hholds'⟩ := brExtractReadsStreamValues s nb count hholds h1 h32 hcap
  have hs : s.brBitPos = 8 * s.brBuf.length := by rw [State.brBitPos, hend, hempty]; rfl
  have ht' : t.brBitPos = 8 * s.brBuf.length := by rw [hbitPos, hs]; omega
  have htpos : t.brPos = s.brPos := by omega
  have htcnt : t.brCnt = s.brCnt := by
    rw [hempty]
    exact BitVec.eq_of_toNat_eq (show t.brCnt.toNat = 0 by omega)
  have htacc : t.brAcc = s.brAcc :=
    (brAcc_eq_zero_of_brCnt hholds' (htcnt.trans hempty)).trans (brAcc_eq_zero_of_brCnt hholds hempty).symm
  rw [htpos, htcnt, htacc, streamValues_past_end hs.ge] at ht
  rw [hexec, ht]

/-! ### Values of a packed stream -/

theorem unpack_getElem? (buf : List Byte) {count k : Nat} (nb : Nat) (hk : k < count) :
    (unpack buf count nb)[k]? = some (streamValue buf (k * nb) nb) := by
  rw [unpack_eq, List.getElem?_map, List.getElem?_range hk, Option.map_some]

/-- Value `k` of a sequence stands at bit `k * nb` of its bits (40_bitwriter.md R104). -/
theorem valueBits_drop {values : List Nat} {k v : Nat} (nb : Nat) (hk : values[k]? = some v) :
    (valueBits values nb).drop (k * nb) = bits v nb ++ valueBits (values.drop (k + 1)) nb := by
  induction values generalizing k with
  | nil => cases hk
  | cons u values ih =>
    rw [valueBits_cons]
    cases k with
    | zero =>
      obtain rfl : u = v := by simpa using hk
      simp
    | succ k =>
      rw [List.drop_append, List.drop_of_length_le (by rw [bits_length, Nat.succ_mul]; omega), bits_length,
        Nat.succ_mul, Nat.add_sub_cancel]
      exact ih hk

/-- A packed value stands in the stream of the packed bytes (41_bitreader.md R128). -/
theorem streamValue_pack {values : List Nat} {nb k v : Nat} (h1 : 1 ≤ nb) (h32 : nb ≤ 32)
    (hfit : ∀ v ∈ values, v < 2 ^ nb) (hk : values[k]? = some v) :
    streamValue (pack values nb) (k * nb) nb = v := by
  obtain ⟨hlt, -⟩ := List.getElem?_eq_some_iff.mp hk
  have hle : k * nb ≤ (valueBits values nb).length := by
    rw [valueBits_length]
    exact Nat.mul_le_mul_right nb hlt.le
  rw [streamValue, streamBits_eq, packIsPaddedValueBits values nb h1 h32 hfit, bitsOfBytes_bytesOf, padBits,
    List.drop_append_of_le_length hle, valueBits_drop nb hk, List.append_assoc, List.append_assoc,
    List.take_left' (bits_length v nb), natOfBits_bits_mod, Nat.mod_eq_of_lt (hfit v (List.mem_of_getElem? hk))]

/-- Settles O28, value by value. -/
theorem unpackInvertsPack : Obligations.UnpackInvertsPack := by
  intro values nb h1 h32 hfit
  have hlen : (unpack (pack values nb) values.length nb).length = values.length := by simp [unpack_eq]
  refine List.ext_getElem?' fun k hk => ?_
  have hlt : k < values.length := by omega
  have hget : values[k]? = some values[k] := List.getElem?_eq_getElem hlt
  rw [unpack_getElem? _ nb hlt, streamValue_pack h1 h32 hfit hget, hget]

/-! ### A stream cut short -/

/-- The bits before a cut are those of the whole stream. -/
theorem streamBit_take (buf : List Byte) {m k : Nat} (h : k < 8 * m) : streamBit (buf.take m) k = streamBit buf k := by
  rw [streamBit, List.getElem?_take_of_lt (by omega)]
  rfl

theorem streamValue_lt (buf : List Byte) (p n : Nat) : streamValue buf p n < 2 ^ n :=
  natOfBits_lt_of_length _ n (by simp)

/-- A value in two parts, the high bits first (41_bitreader.md R121). -/
theorem streamValue_add (buf : List Byte) (p a b : Nat) :
    streamValue buf p (a + b) = streamValue buf p a * 2 ^ b + streamValue buf (p + a) b := by
  simp only [streamValue, List.range_add, List.map_append, natOfBits_append, List.map_map, List.length_map,
    List.length_range, Function.comp_def, Nat.add_assoc]

theorem streamValue_take_before (buf : List Byte) {m p n : Nat} (h : p + n ≤ 8 * m) :
    streamValue (buf.take m) p n = streamValue buf p n := by
  refine congrArg natOfBits (List.map_congr_left fun k hk => ?_)
  have := List.mem_range.mp hk
  exact streamBit_take buf (by omega)

theorem streamValue_take_past (buf : List Byte) {m p : Nat} (n : Nat) (h : 8 * m ≤ p) :
    streamValue (buf.take m) p n = 0 :=
  streamValue_past_end _ p n (by rw [List.length_take]; omega)

/-- A value that starts before the cut keeps its high bits, and the `b` low bits past the cut are zeros
(41_bitreader.md R129). -/
theorem streamValue_take_straddling (buf : List Byte) {m p a b : Nat} (h : p + a = 8 * m) :
    streamValue (buf.take m) p (a + b) = streamValue buf p (a + b) / 2 ^ b * 2 ^ b := by
  have hquot : streamValue buf p (a + b) / 2 ^ b = streamValue buf p a := by
    rw [streamValue_add, Nat.mul_comm, Nat.mul_add_div (Nat.two_pow_pos b),
      Nat.div_eq_of_lt (streamValue_lt buf (p + a) b), Nat.add_zero]
  rw [hquot, streamValue_add, streamValue_take_before buf h.le, streamValue_take_past buf b h.ge, Nat.add_zero]

/-- Settles O29: the value before, across and past the cut, from the packed one (R128). -/
theorem cutStreamDecodesWithZeroFill : Obligations.CutStreamDecodesWithZeroFill := by
  intro values nb m k v h1 h32 hfit _ hk
  obtain ⟨hlt, -⟩ := List.getElem?_eq_some_iff.mp hk
  have hv := streamValue_pack h1 h32 hfit hk
  rw [unpack_getElem? _ nb hlt, Nat.succ_mul]
  refine ⟨fun hbefore => ?_, fun hstart hcut => ?_, fun hpast => ?_⟩
  · rw [streamValue_take_before _ hbefore, hv]
  · obtain ⟨a, ha⟩ : ∃ a, k * nb + a = 8 * m := ⟨8 * m - k * nb, by omega⟩
    obtain ⟨b, rfl⟩ : ∃ b, nb = a + b := ⟨nb - a, by omega⟩
    rw [streamValue_take_straddling _ ha, hv, ← ha, Nat.add_sub_add_left, Nat.add_sub_cancel_left]
  · rw [streamValue_take_past _ nb hpast]

end Sys2Proof.Machine
end

section
/-! PROOFS. The WidthSelector of 42_widthselector.md: WS_CLEAR (R140), WS_SCAN (R142), the least width that WS_WIDTH and
WS_SELECT report (R141, R143 to R145), and the scanner run value by value (R147). -/

namespace Sys2Proof.Machine

/-! ### The running maximum -/

theorem width_zero : width 0 = 1 := rfl

theorem scanMax_eq_ofNat (m v : Word) : scanMax m v = BitVec.ofNat 32 (max m.toNat v.toNat) := by
  rw [← scanMax_toNat, BitVec.ofNat_toNat, BitVec.setWidth_eq]

/-- The state after WS_CLEAR (42_widthselector.md R140). -/
def afterWsClear (s : State) : State := endedOk { s with wsMax := 0 } .none

@[simp] theorem afterWsClear_wsMax (s : State) : (afterWsClear s).wsMax = 0 := rfl

theorem exec_wsWidth_afterWsClear (s : State) :
    exec .wsWidth (afterWsClear s) = .next (endedOk (afterWsClear s) (.width 1)) := by
  rw [exec_wsWidth, afterWsClear_wsMax, BitVec.ofNat_eq_ofNat, BitVec.toNat_zero, width_zero]

/-- Settles O30: a cleared scanner holds 0, whose width is 1. -/
theorem wsClearRestartsScanner : Obligations.WsClearRestartsScanner :=
  ⟨encodedCommandDecodesToItself .wsClear rfl, fun s => ⟨exec_wsClear s, exec_wsWidth_afterWsClear s⟩⟩

/-- Settles O31. -/
theorem wsScanKeepsMaximum : Obligations.WsScanKeepsMaximum := fun s v =>
  ⟨encodedCommandDecodesToItself (.wsScan v) rfl, by rw [exec_wsScan, scanMax_eq_ofNat]⟩

/-! ### The least width -/

/-- The width of an upper bound that is attained, or is 0, is the least width of at least 1 (42_widthselector.md R145). -/
theorem leastWidth_width {values : List Nat} {m : Nat} (hbound : ∀ v ∈ values, v ≤ m) (hm : m = 0 ∨ m ∈ values) :
    LeastWidth values (width m) := by
  refine ⟨one_le_width m, fun v hv => (hbound v hv).trans_lt (lt_two_pow_width m), ?least⟩
  case least =>
    obtain rfl | hmem := hm
    · exact .inl width_zero
    · exact (width_eq_one_or m).imp_right fun hle => ⟨m, hmem, hle⟩

theorem leastWidth_singleton (m : Nat) : LeastWidth [m] (width m) :=
  leastWidth_width (fun _ hv => (List.mem_singleton.mp hv).le) (.inr List.mem_cons_self)

theorem leastWidth_seqMax (seq : List Word) : LeastWidth (fromWords seq) (width (seqMax seq).toNat) := by
  obtain ⟨hbound, hattained⟩ := seqMax_spec seq
  refine leastWidth_width (List.forall_mem_map.mpr hbound) (hattained.imp_right ?_)
  rintro ⟨v, hv, heq⟩
  exact heq ▸ List.mem_map_of_mem hv

/-- Settles O32. -/
theorem wsWidthReportsLeastWidth : Obligations.WsWidthReportsLeastWidth :=
  ⟨encodedCommandDecodesToItself .wsWidth rfl, fun s =>
    ⟨width s.wsMax.toNat, exec_wsWidth s, leastWidth_singleton _, width_word_le _⟩⟩

/-- Settles O33. -/
theorem wsSelectReportsLeastWidth : Obligations.WsSelectReportsLeastWidth := fun s seq =>
  ⟨encodedCommandDecodesToItself (.wsSelect seq) rfl,
    width (seqMax seq).toNat, exec_wsSelect s seq, leastWidth_seqMax seq, width_word_le _⟩

/-- Settles O34: every value is below 2 to the least width, so that the round trip of R128 applies at it. -/
theorem selectedWidthIsLeastAndRoundTrips : Obligations.SelectedWidthIsLeastAndRoundTrips := by
  intro seq
  obtain ⟨h1, hfit, -⟩ := leastWidth_seqMax seq
  have hround := unpackInvertsPack (fromWords seq) _ h1 (width_word_le _) hfit
  rw [fromWords_length] at hround
  exact ⟨leastWidth_seqMax seq, hround⟩

/-! ### The scanner run value by value -/

theorem exec_wsClear_withProgram (s : State) (is : List Instr) :
    exec .wsClear (s.withProgram is) = .next ((afterWsClear s).withProgram is) := rfl

/-- The state after a WS_SCAN (42_widthselector.md R142). -/
def afterWsScan (s : State) (v : Word) : State := endedOk { s with wsMax := scanMax s.wsMax v } .none

theorem exec_wsScan_withProgram (s : State) (v : Word) (is : List Instr) :
    exec (.wsScan v) (s.withProgram is) = .next ((afterWsScan s v).withProgram is) := rfl

/-- Scans of a sequence fold its values into the running maximum (42_widthselector.md R142). -/
theorem run_scans (seq : List Word) (is : List Instr) (k : Nat) (s : State) :
    ∃ t : State, t.wsMax = seq.foldl scanMax s.wsMax ∧
      Host.Core.run core (seq.length + k) (s.withProgram (seq.map Instr.wsScan ++ is)) =
        Host.Core.run core k (t.withProgram is) := by
  induction seq generalizing s with
  | nil => exact ⟨s, rfl, by simp⟩
  | cons v seq ih =>
    obtain ⟨t, hmax, hrun⟩ := ih (afterWsScan s v)
    refine ⟨t, hmax, ?_⟩
    rw [List.length_cons, Nat.succ_add, List.map_cons, List.cons_append,
      run_withProgram_cons rfl (exec_wsScan_withProgram s v _), hrun]

theorem endedOk_last_payload (s : State) (p : Payload) :
    (endedOk s p).responses.getLast?.map Response.payload = some p := by
  rw [endedOk_responses, List.getLast?_concat, Option.map_some]

/-- Settles O35: from the cleared maximum the scans reach `seqMax seq`, the number whose width WS_SELECT reports. -/
theorem scannerAgreesWithSelect : Obligations.ScannerAgreesWithSelect := by
  intro s seq
  obtain ⟨t, hmax, hrun⟩ := run_scans seq [.wsWidth] 1 (afterWsClear s)
  have hseqMax : t.wsMax = seqMax seq := hmax
  refine ⟨endedOk t (.width (width (seqMax seq).toNat)), _, ?run, exec_wsSelect s seq, endedOk_last_payload _ _,
    endedOk_last_payload _ _⟩
  case run =>
    calc Host.Core.run core (seq.length + 2) (s.withProgram (.wsClear :: seq.map Instr.wsScan ++ [.wsWidth]))
        = Host.Core.run core (seq.length + 1) ((afterWsClear s).withProgram (seq.map Instr.wsScan ++ [.wsWidth])) :=
          run_withProgram_cons rfl (exec_wsClear_withProgram s _) _
      _ = Host.Core.run core 1 (t.withProgram [.wsWidth]) := hrun
      _ = .next (endedOk t (.width (width t.wsMax.toNat))) := run_withProgram_singleton rfl (exec_wsWidth t)
      _ = .next (endedOk t (.width (width (seqMax seq).toNat))) := by rw [hseqMax]

end Sys2Proof.Machine
end

section
/-! PROOFS. The self-describing container of 43_container_sd.md: what CC_ENCODE writes and raises (R165, R166), what CC_DECODE
reads and raises (R170 to R180), and the laws of the two together (R181 to R183). -/

namespace Sys2Proof.Machine

/-! ### The layout in the codec's terms -/

/-- The metadata record of a level, as the codec holds it (43_container_sd.md R174). -/
def LevelRecord.levelMeta (r : LevelRecord) : LevelMeta := ⟨r.length, r.bitWidth, r.chunk.length⟩

/-- A level's metadata record with its payload chunk. -/
def LevelRecord.entry (r : LevelRecord) : LevelMeta × List Byte := (r.levelMeta, r.chunk)

theorem flatMap_snacRecord (records : List LevelRecord) :
    records.flatMap snacRecord = (records.map LevelRecord.levelMeta).flatMap metaBytes := by
  rw [List.flatMap_map]; rfl

theorem flatMap_chunk (records : List LevelRecord) :
    records.flatMap LevelRecord.chunk = (records.map LevelRecord.entry).flatMap Prod.snd := by
  rw [List.flatMap_map]; rfl

theorem map_levelMeta (records : List LevelRecord) :
    records.map LevelRecord.levelMeta = (records.map LevelRecord.entry).map Prod.fst := by
  rw [List.map_map]; rfl

/-- The fields before the payloads, of which the metadata of `records` are there (43_container_sd.md R160). -/
def snacFields (version : Byte) (sampleRate : Word) (name : List Byte) (levelCount : Nat) (records : List LevelRecord) :
    List Byte :=
  snacHeader version sampleRate name levelCount ++ records.flatMap snacRecord

theorem snacHeader_length (version : Byte) (sampleRate : Word) (name : List Byte) (levelCount : Nat) :
    (snacHeader version sampleRate name levelCount).length = 15 + name.length := by
  have hnamed : (snacNamed version sampleRate name).length = 11 + name.length :=
    namedBytes_length version sampleRate name
  rw [snacHeader, List.length_append, hnamed, le32_length]
  omega

theorem snacFields_length (version : Byte) (sampleRate : Word) (name : List Byte) (levelCount : Nat)
    (records : List LevelRecord) :
    (snacFields version sampleRate name levelCount records).length = 15 + name.length + 10 * records.length := by
  rw [snacFields, List.length_append, snacHeader_length, flatMap_snacRecord, flatMap_metaBytes_length, List.length_map]

/-! ### The record of a level that CC_ENCODE writes -/

theorem lt_two_pow_levelWidth (level : List Word) : ∀ v ∈ fromWords level, v < 2 ^ levelWidth level := by
  obtain ⟨-, hfit, -⟩ := leastWidth_seqMax level
  exact hfit

theorem one_le_levelWidth (level : List Word) : 1 ≤ levelWidth level := one_le_width _

theorem levelWidth_le (level : List Word) : levelWidth level ≤ 32 := width_word_le _

/-- The chunk that CC_ENCODE packs is the one of the layout (43_container_sd.md R165). -/
theorem levelChunk_eq (level : List Word) : levelChunk level = (encodedRecord level).chunk :=
  packIsPaddedValueBits _ _ (one_le_levelWidth level) (levelWidth_le level) (lt_two_pow_levelWidth level)

theorem snacRecord_encodedRecord (level : List Word) :
    snacRecord (encodedRecord level) = metaBytes ⟨level.length, levelWidth level, (levelChunk level).length⟩ := by
  rw [levelChunk_eq]; rfl

theorem encodedRecord_chunk_length (level : List Word) :
    (encodedRecord level).chunk.length = (level.length * levelWidth level + 7) / 8 := by
  rw [encodedRecord, bytesOf_length, valueBits_length, fromWords_length]

/-- Reading a written chunk at the selected width gives the level's values (43_container_sd.md R177, 42_widthselector.md R145). -/
theorem streamValues_encodedRecord (level : List Word) :
    streamValues (encodedRecord level).chunk 0 (levelWidth level) level.length = level := by
  have hround := unpackInvertsPack (fromWords level) (levelWidth level) (one_le_levelWidth level) (levelWidth_le level)
    (lt_two_pow_levelWidth level)
  rw [fromWords_length] at hround
  rw [← toWords_unpack, ← levelChunk_eq, levelChunk, hround, toWords_fromWords]

/-- A level whose length and payload size fit their fields (43_container_sd.md R165). -/
abbrev LevelFits (level : List Word) : Prop :=
  level.length < 2 ^ 32 ∧ (encodedRecord level).chunk.length < 2 ^ 32

/-- The size of a written chunk is the one that strict mode asks for, so CC_DECODE takes the record in either mode
(43_container_sd.md R175, R181). -/
theorem legalRecord_encodedRecord (p : Params) {level : List Word} (h : LevelFits level) :
    LegalRecord p (encodedRecord level) := by
  obtain ⟨hlen, hsize⟩ := h
  exact ⟨hlen, one_le_levelWidth level, levelWidth_le level, hsize, fun _ => encodedRecord_chunk_length level⟩

theorem legalRecords_encoded (p : Params) {levels : List (List Word)} (h : ∀ l ∈ levels, LevelFits l) :
    ∀ r ∈ levels.map encodedRecord, LegalRecord p r :=
  List.forall_mem_map.mpr fun l hl => legalRecord_encodedRecord p (h l hl)

/-! ### CC_ENCODE -/

theorem exec_ccEncode_error {s : State} {version : Byte} {sampleRate : Word} {name : List Byte}
    {levels : List (List Word)} {e : Raise}
    (h : encodeContainer s.params.bufCap version sampleRate name levels = .error e) :
    exec (.ccEncode version sampleRate name levels) s = .next (endedWith s e.kind.code e.field.id e.index) := by
  rw [exec_ccEncode, ccEncodeRule, h, except_error_bind, commit_error]

theorem exec_ccEncode_ok {s : State} {version : Byte} {sampleRate : Word} {name : List Byte}
    {levels : List (List Word)} {out : List Byte}
    (h : encodeContainer s.params.bufCap version sampleRate name levels = .ok out) :
    exec (.ccEncode version sampleRate name levels) s = .next (endedOk s (.bytes out)) := by
  rw [exec_ccEncode, ccEncodeRule, h, except_ok_bind, except_pure, commit_ok]

theorem endedOk_inj {s : State} {p q : Payload} (h : endedOk s p = endedOk s q) : p = q := by
  have hpayload := congrArg (fun t => t.responses.getLast?.map Response.payload) h
  simpa only [endedOk_last_payload, Option.some.injEq] using hpayload

theorem endedWith_ne_endedOk (s t : State) (k : RaiseKind) (f : BitVec 8) (i : Nat) (p : Payload) :
    endedWith s k.code f i ≠ endedOk t p := fun h => code_ne_zero k (congrArg State.status h)

/-- What CC_ENCODE responded is what the encoder gave. -/
theorem encodeContainer_of_exec {s : State} {version : Byte} {sampleRate : Word} {name : List Byte}
    {levels : List (List Word)} {out : List Byte}
    (h : exec (.ccEncode version sampleRate name levels) s = .next (endedOk s (.bytes out))) :
    encodeContainer s.params.bufCap version sampleRate name levels = .ok out := by
  cases hout : encodeContainer s.params.bufCap version sampleRate name levels with
  | error e =>
    rw [exec_ccEncode_error hout, Host.Outcome.next.injEq] at h
    exact (endedWith_ne_endedOk _ _ _ _ _ _ h).elim
  | ok out' =>
    rw [exec_ccEncode_ok hout, Host.Outcome.next.injEq] at h
    cases endedOk_inj h
    rfl

theorem encodeContainer_nameLen_error (cap : Option Nat) (version : Byte) (sampleRate : Word) {name : List Byte}
    (levels : List (List Word)) (h : 2 ^ 16 ≤ name.length) :
    encodeContainer cap version sampleRate name levels = .error ⟨.fieldOutOfRange, .modelNameLen, 0⟩ := by
  have hlen : decide (2 ^ 16 - 1 < name.length) = true := decide_eq_true (by omega)
  rw [encodeContainer, hlen, check_true, except_error_bind]

theorem check_nameLen {name : List Byte} (h : name.length < 2 ^ 16) (e : Raise) :
    check (decide (2 ^ 16 - 1 < name.length)) e = .ok () :=
  (check_ok_iff _ _).mpr (decide_eq_false (by omega))

theorem encodeContainer_name_error (cap : Option Nat) (version : Byte) (sampleRate : Word) {name : List Byte}
    (levels : List (List Word)) (hlen : name.length < 2 ^ 16) (h : utf8WellFormed name = false) :
    encodeContainer cap version sampleRate name levels = .error ⟨.invalidEncoding, .modelName, 0⟩ := by
  rw [encodeContainer, check_nameLen hlen, except_ok_bind, h, Bool.not_false, check_true, except_error_bind]

/-- The encoder past its checks of the name: the level count, then the levels (43_container_sd.md R165). -/
theorem encodeContainer_named (cap : Option Nat) (version : Byte) (sampleRate : Word) {name : List Byte}
    (levels : List (List Word)) (hname : LegalName name) :
    encodeContainer cap version sampleRate name levels = (do
      check (decide (2 ^ 32 - 1 < levels.length)) ⟨.fieldOutOfRange, .levelCount, 0⟩
      let body ← encodeLevels levels 0
      let out := snacHeader version sampleRate name levels.length ++ body.1 ++ body.2
      check (exceeds cap out.length) ⟨.capacityExceeded, .buffer, 0⟩
      return out) := by
  obtain ⟨hlen, hutf8⟩ := hname
  rw [encodeContainer, check_nameLen hlen, except_ok_bind, hutf8, Bool.not_true, check_false, except_ok_bind]
  rfl

theorem encodeContainer_levelCount_error (cap : Option Nat) (version : Byte) (sampleRate : Word) {name : List Byte}
    {levels : List (List Word)} (hname : LegalName name) (h : 2 ^ 32 ≤ levels.length) :
    encodeContainer cap version sampleRate name levels = .error ⟨.fieldOutOfRange, .levelCount, 0⟩ := by
  have hcount : decide (2 ^ 32 - 1 < levels.length) = true := decide_eq_true (by omega)
  rw [encodeContainer_named _ _ _ _ hname, hcount, check_true, except_error_bind]

theorem encodeContainer_levels_error (cap : Option Nat) (version : Byte) (sampleRate : Word) {name : List Byte}
    {levels : List (List Word)} {e : Raise} (hname : LegalName name) (hcount : levels.length < 2 ^ 32)
    (h : encodeLevels levels 0 = .error e) :
    encodeContainer cap version sampleRate name levels = .error e := by
  have hc : decide (2 ^ 32 - 1 < levels.length) = false := decide_eq_false (by omega)
  rw [encodeContainer_named _ _ _ _ hname, hc, check_false, except_ok_bind, h, except_error_bind]

/-- The levels that fit give the metadata records and the chunks of the layout (43_container_sd.md R160, R165). -/
theorem encodeLevels_of_fits {levels : List (List Word)} (h : ∀ l ∈ levels, LevelFits l) (i : Nat) :
    encodeLevels levels i =
      .ok ((levels.map encodedRecord).flatMap snacRecord, (levels.map encodedRecord).flatMap LevelRecord.chunk) := by
  rw [encodeLevels_ok levels i (by simpa only [levelChunk_eq] using h)]
  simp only [List.flatMap_map, snacRecord_encodedRecord, ← levelChunk_eq]

/-- Operands that fit leave the check of the capacity (43_container_sd.md R165). -/
theorem encodeContainer_of_fits (cap : Option Nat) (version : Byte) (sampleRate : Word) {name : List Byte}
    {levels : List (List Word)} (hname : LegalName name) (hcount : levels.length < 2 ^ 32)
    (hlevels : ∀ l ∈ levels, LevelFits l) :
    encodeContainer cap version sampleRate name levels = (do
      check (exceeds cap (snacBytes version sampleRate name (levels.map encodedRecord)).length)
        ⟨.capacityExceeded, .buffer, 0⟩
      return snacBytes version sampleRate name (levels.map encodedRecord)) := by
  have hc : decide (2 ^ 32 - 1 < levels.length) = false := decide_eq_false (by omega)
  rw [encodeContainer_named _ _ _ _ hname, hc, check_false, except_ok_bind, encodeLevels_of_fits hlevels, except_ok_bind,
    snacBytes, List.length_map]

/-- The operands from which CC_ENCODE wrote `out` (43_container_sd.md R165). -/
structure EncodedTo (bufCap : Option Nat) (version : Byte) (sampleRate : Word) (name : List Byte)
    (levels : List (List Word)) (out : List Byte) : Prop where
  legalName : LegalName name
  count_lt : levels.length < 2 ^ 32
  fits : ∀ l ∈ levels, LevelFits l
  bytes_eq : out = snacBytes version sampleRate name (levels.map encodedRecord)
  capacity : exceeds bufCap out.length = false

/-- The encoder gives the layout's bytes exactly for operands that fit (43_container_sd.md R160, R165). -/
theorem encodeContainer_ok_iff (cap : Option Nat) (version : Byte) (sampleRate : Word) (name : List Byte)
    (levels : List (List Word)) (out : List Byte) :
    encodeContainer cap version sampleRate name levels = .ok out ↔
      EncodedTo cap version sampleRate name levels out := by
  constructor
  · intro h
    have hok := h
    rw [encodeContainer] at h
    obtain ⟨⟨⟩, hlen, h⟩ := (except_bind_ok_iff _ _ _).mp h
    obtain ⟨⟨⟩, hutf8, h⟩ := (except_bind_ok_iff _ _ _).mp h
    obtain ⟨⟨⟩, hcount, h⟩ := (except_bind_ok_iff _ _ _).mp h
    obtain ⟨body, hbody, -⟩ := (except_bind_ok_iff _ _ _).mp h
    simp only [check_ok_iff, decide_eq_false_iff_not, Bool.not_eq_false'] at hlen hutf8 hcount
    have hname : LegalName name := ⟨by omega, hutf8⟩
    have hlevels : ∀ l ∈ levels, LevelFits l := fun l hl => by
      have hfits := encodeLevels_fits levels 0 body hbody l hl
      rwa [levelChunk_eq] at hfits
    rw [encodeContainer_of_fits cap version sampleRate hname (by omega) hlevels] at hok
    obtain ⟨⟨⟩, hcap, hout⟩ := (except_bind_ok_iff _ _ _).mp hok
    cases hout
    exact ⟨hname, by omega, hlevels, rfl, (check_ok_iff _ _).mp hcap⟩
  · rintro ⟨hname, hcount, hlevels, rfl, hcap⟩
    rw [encodeContainer_of_fits cap version sampleRate hname hcount hlevels, hcap, check_false, except_ok_bind,
      except_pure]

theorem EncodedTo.of_exec {s : State} {version : Byte} {sampleRate : Word} {name : List Byte}
    {levels : List (List Word)} {out : List Byte}
    (h : exec (.ccEncode version sampleRate name levels) s = .next (endedOk s (.bytes out))) :
    EncodedTo s.params.bufCap version sampleRate name levels out :=
  (encodeContainer_ok_iff ..).mp (encodeContainer_of_exec h)

/-- Settles O36. -/
theorem ccEncodeWritesLayout : Obligations.CcEncodeWritesLayout :=
  fun _ _ _ _ _ hname hcount hlevels hcap =>
    exec_ccEncode_ok ((encodeContainer_ok_iff ..).mpr ⟨hname, hcount, hlevels, rfl, hcap⟩)

/-- What the first level that does not fit raises, the loop over the levels raises (43_container_sd.md R165). -/
theorem encodeLevels_error {good levels : List (List Word)} {i : Nat} {e : Raise} (hgood : ∀ l ∈ good, LevelFits l)
    (h : encodeLevels levels (i + good.length) = .error e) : encodeLevels (good ++ levels) i = .error e := by
  induction good generalizing i with
  | nil => exact h
  | cons level good ih =>
    obtain ⟨⟨hlen, hsize⟩, hrest⟩ := List.forall_mem_cons.mp hgood
    have hl : decide (2 ^ 32 - 1 < level.length) = false := decide_eq_false (by omega)
    have hs : decide (2 ^ 32 - 1 < (levelChunk level).length) = false :=
      decide_eq_false (by rw [levelChunk_eq]; omega)
    have htail := ih (i := i + 1) hrest (by rwa [Nat.succ_add_eq_add_succ])
    simp only [List.cons_append, encodeLevels, hl, hs, check_false, except_ok_bind, htail, except_error_bind]

theorem encodeLevels_length_error {bad : List Word} (rest : List (List Word)) (i : Nat) (h : 2 ^ 32 ≤ bad.length) :
    encodeLevels (bad :: rest) i = .error ⟨.fieldOutOfRange, .levelLength, i⟩ := by
  have hl : decide (2 ^ 32 - 1 < bad.length) = true := decide_eq_true (by omega)
  rw [encodeLevels, hl, check_true, except_error_bind]

theorem encodeLevels_size_error {bad : List Word} (rest : List (List Word)) (i : Nat) (hlen : bad.length < 2 ^ 32)
    (h : 2 ^ 32 ≤ (encodedRecord bad).chunk.length) :
    encodeLevels (bad :: rest) i = .error ⟨.fieldOutOfRange, .levelPayloadSize, i⟩ := by
  have hl : decide (2 ^ 32 - 1 < bad.length) = false := decide_eq_false (by omega)
  have hs : decide (2 ^ 32 - 1 < (levelChunk bad).length) = true := decide_eq_true (by rw [levelChunk_eq]; omega)
  simp only [encodeLevels, hl, hs, check_false, except_ok_bind, check_true, except_error_bind]

/-- Settles O37, check by check. -/
theorem ccEncodeErrorsInOrder : Obligations.CcEncodeErrorsInOrder := by
  intro s version sampleRate name levels
  refine ⟨fun hlen => ?nameLen, fun hlen hutf8 => ?name, fun hname hcount => ?count, ?levels,
    fun hname hcount hlevels hcap => ?capacity⟩
  case nameLen => exact exec_ccEncode_error (encodeContainer_nameLen_error _ _ _ _ hlen)
  case name => exact exec_ccEncode_error (encodeContainer_name_error _ _ _ _ hlen hutf8)
  case count => exact exec_ccEncode_error (encodeContainer_levelCount_error _ _ _ hname hcount)
  case levels =>
    rintro good bad rest rfl hname hcount hgood
    have raised {e : Raise} (h : encodeLevels (bad :: rest) (0 + good.length) = .error e) :=
      exec_ccEncode_error (encodeContainer_levels_error s.params.bufCap version sampleRate hname hcount
        (encodeLevels_error hgood h))
    rw [Nat.zero_add] at raised
    exact ⟨fun hlen => raised (encodeLevels_length_error rest _ hlen),
      fun hlen hsize => raised (encodeLevels_size_error rest _ hlen hsize)⟩
  case capacity =>
    exact exec_ccEncode_error (by
      rw [encodeContainer_of_fits _ _ _ hname hcount hlevels, hcap, check_true, except_error_bind])

/-! ### CC_DECODE: the tag and the fields before the metadata -/

theorem exec_ccDecode_ok {s : State} {buf fallback : List Byte} {c : Container}
    (h : decodeContainer s.params buf fallback = .ok c) :
    exec (.ccDecode buf fallback) s = .next (endedOk s (.container c)) := by
  rw [exec_ccDecode, ccDecodeRule, h, except_ok_bind, except_pure, commit_ok]

theorem decodeContainer_capacity_error {p : Params} {buf : List Byte} (fallback : List Byte)
    (h : exceeds p.bufCap buf.length = true) :
    decodeContainer p buf fallback = .error ⟨.capacityExceeded, .buffer, 0⟩ := by
  rw [decodeContainer, h, check_true, except_error_bind]

theorem noTag_iff (buf : List Byte) :
    (decide (buf.length < 4) || slice buf 0 4 != magicTag) = true ↔
      buf.length < 4 ∨ buf.take 4 ≠ [0x53, 0x4E, 0x41, 0x43] := by
  simp [slice, magicTag]

theorem decodeContainer_tag_error {p : Params} {buf : List Byte} (fallback : List Byte)
    (hcap : exceeds p.bufCap buf.length = false) (h : buf.length < 4 ∨ buf.take 4 ≠ [0x53, 0x4E, 0x41, 0x43]) :
    decodeContainer p buf fallback = .error ⟨.magicMismatch, .magic, 0⟩ := by
  rw [decodeContainer, hcap, check_false, except_ok_bind, (noTag_iff buf).mpr h, check_true, except_error_bind]

/-- Settles O39: the two checks that come before every field. -/
theorem ccDecodeRejectsOtherTags : Obligations.CcDecodeRejectsOtherTags := fun s buf fallback =>
  ⟨fun hcap => exec_ccDecode_error s buf fallback _ (decodeContainer_capacity_error fallback hcap),
    fun hcap htag => ⟨exec_ccDecode_error s buf fallback _ (decodeContainer_tag_error fallback hcap htag),
      Bool.or_false _⟩⟩

/-- The decoder past the tag: the fields before the metadata, then the metadata and the payloads (43_container_sd.md R170). -/
theorem decodeContainer_tagged {p : Params} {buf : List Byte} (fallback : List Byte)
    (hcap : exceeds p.bufCap buf.length = false) (htag : buf.take 4 = [0x53, 0x4E, 0x41, 0x43]) :
    decodeContainer p buf fallback = (do
      let version ← readField buf 4 1 .version 0
      let sampleRate ← readField buf 5 4 .sampleRate 0
      let nameLen ← readField buf 9 2 .modelNameLen 0
      let name ← readName buf fallback nameLen
      let levelCount ← readField buf (11 + nameLen) 4 .levelCount 0
      let metas ← readMetas p.strictPayload buf levelCount 0 (15 + nameLen)
      let levels ← readPayloads p.seqCap buf metas.1 0 metas.2
      return ⟨BitVec.ofNat 8 version, BitVec.ofNat 32 sampleRate, name.1, name.2, levels.1, levels.2⟩) := by
  have hlen : min 4 buf.length = 4 := List.length_take ▸ congrArg List.length htag
  have htagged : (decide (buf.length < 4) || slice buf 0 4 != magicTag) = false := by
    rw [Bool.eq_false_iff, Ne, noTag_iff]
    exact not_or.mpr ⟨by omega, not_not.mpr htag⟩
  rw [decodeContainer, hcap, check_false, except_ok_bind, htagged, check_false, except_ok_bind]

theorem readField_within {buf : List Byte} {p n : Nat} (f : FieldId) (i : Nat) (h : p + n ≤ buf.length) :
    readField buf p n f i = .ok (rdle (slice buf p n)) := by
  obtain ⟨hshort, -⟩ | ⟨-, hr⟩ := readField_cases buf p n f i
  · omega
  · exact hr

theorem readName_short {buf : List Byte} {len : Nat} (fallback : List Byte) (hne : len ≠ 0)
    (h : buf.length < 11 + len) :
    readName buf fallback len = .error ⟨.truncatedHeader, .modelName, 0⟩ := by
  rw [readName, if_neg hne, need, decide_eq_true h, check_true, except_error_bind]

theorem readName_within {buf : List Byte} {len : Nat} (fallback : List Byte) (h : 11 + len ≤ buf.length)
    (hutf8 : utf8WellFormed (slice buf 11 len) = true) : ∃ stored, readName buf fallback len = .ok stored := by
  by_cases hz : len = 0
  · exact ⟨(fallback, true), if_pos hz⟩
  · have hneed : need buf 11 len .modelName 0 = .ok () := (check_ok_iff _ _).mpr (decide_eq_false (by omega))
    exact ⟨(slice buf 11 len, false), by
      rw [readName, if_neg hz, hneed, except_ok_bind, hutf8, Bool.not_true, check_false, except_ok_bind, except_pure]⟩

/-- Settles O40: every field before the short one is within the buffer. -/
theorem ccDecodeNamesShortHeaderField : Obligations.CcDecodeNamesShortHeaderField := by
  intro s buf fallback hcap htag
  have hdec := decodeContainer_tagged fallback hcap htag
  have raised (f : FieldId) (h : decodeContainer s.params buf fallback = .error ⟨.truncatedHeader, f, 0⟩) :=
    exec_ccDecode_error s buf fallback _ h
  refine ⟨fun h => raised .version ?version, fun h5 h => raised .sampleRate ?sampleRate,
    fun h9 h => raised .modelNameLen ?nameLen, fun h11 hne h => raised .modelName ?name,
    fun hname hutf8 h => raised .levelCount ?levelCount⟩
  case version => rw [hdec, readField_short _ _ _ _ _ h, except_error_bind]
  case sampleRate =>
    rw [hdec, readField_within _ _ h5, except_ok_bind, readField_short _ _ _ _ _ h, except_error_bind]
  case nameLen =>
    rw [hdec, readField_within _ _ (by omega), except_ok_bind, readField_within _ _ h9, except_ok_bind,
      readField_short _ _ _ _ _ h, except_error_bind]
  case name =>
    rw [hdec, readField_within _ _ (by omega), except_ok_bind, readField_within _ _ (by omega), except_ok_bind,
      readField_within _ _ h11, except_ok_bind, readName_short fallback hne h, except_error_bind]
  case levelCount =>
    obtain ⟨stored, hstored⟩ := readName_within fallback hname hutf8
    rw [hdec, readField_within _ _ (by omega), except_ok_bind, readField_within _ _ (by omega), except_ok_bind,
      readField_within _ _ (by omega), except_ok_bind, hstored, except_ok_bind,
      readField_short _ _ _ _ _ (by omega), except_error_bind]

/-! ### CC_DECODE: the metadata -/

section Metadata

variable {p : Params} {version : Byte} {sampleRate : Word} {name : List Byte} {levelCount : Nat}
  {records : List LevelRecord} {rest buf : List Byte}

theorem snacFields_append (rest : List Byte) :
    snacFields version sampleRate name levelCount records ++ rest =
      namedBytes version sampleRate name ++ (le32 levelCount ++ (records.flatMap snacRecord ++ rest)) := by
  simp only [snacFields, snacHeader, List.append_assoc]
  rfl

/-- A legal record in the terms of the metadata loop (43_container_sd.md R174, R175). -/
theorem legalRecords_levelMeta (h : ∀ r ∈ records, LegalRecord p r) :
    ∀ m ∈ records.map LevelRecord.levelMeta, m.length < 2 ^ 32 ∧ 1 ≤ m.bitWidth ∧ m.bitWidth ≤ 32 ∧
      m.payloadSize < 2 ^ 32 ∧ (p.strictPayload = true → m.payloadSize = ceildiv8 (m.length * m.bitWidth)) :=
  List.forall_mem_map.mpr fun r hr => by
    simpa only [ceildiv8_eq, LevelRecord.levelMeta] using h r hr

/-- What the record after legal ones raises, CC_DECODE raises (43_container_sd.md R174). -/
theorem decodeContainer_metadata_error {e : Raise} (fallback : List Byte) (hname : LegalName name)
    (hcount : levelCount < 2 ^ 32) (hlt : records.length < levelCount) (hlegal : ∀ r ∈ records, LegalRecord p r)
    (hbuf : buf = snacFields version sampleRate name levelCount records ++ rest)
    (hcap : exceeds p.bufCap buf.length = false)
    (h : readMeta p.strictPayload buf records.length (15 + name.length + 10 * records.length) = .error e) :
    decodeContainer p buf fallback = .error e := by
  obtain ⟨hlen, hutf8⟩ := hname
  subst hbuf
  have hmetas := readMetas_error p.strictPayload (records.map LevelRecord.levelMeta)
    (snacHeader version sampleRate name levelCount) rest levelCount 0 (15 + name.length) e
    (snacHeader_length ..).symm (by rwa [List.length_map]) (legalRecords_levelMeta hlegal)
    (by rw [List.length_map, Nat.zero_add, ← flatMap_snacRecord]; exact h)
  rw [← flatMap_snacRecord, ← snacFields] at hmetas
  rw [snacFields_append] at hcap hmetas ⊢
  rw [decodeContainer_header p version sampleRate name _ fallback levelCount hlen hutf8 hcount hcap]
  simp only [hmetas, except_error_bind]

/-- After legal metadata, what is left of CC_DECODE are the payloads (43_container_sd.md R170). -/
theorem decodeContainer_payloads (fallback : List Byte) (hname : LegalName name) (hcount : records.length < 2 ^ 32)
    (hlegal : ∀ r ∈ records, LegalRecord p r)
    (hbuf : buf = snacFields version sampleRate name records.length records ++ rest)
    (hcap : exceeds p.bufCap buf.length = false) :
    decodeContainer p buf fallback = (do
      let levels ← readPayloads p.seqCap buf (records.map LevelRecord.levelMeta) 0
        (snacFields version sampleRate name records.length records).length
      return ⟨version, sampleRate, if name = [] then fallback else name, decide (name = []), levels.1, levels.2⟩) := by
  obtain ⟨hlen, hutf8⟩ := hname
  subst hbuf
  have hmetas := readMetas_ok p.strictPayload (records.map LevelRecord.levelMeta)
    (snacHeader version sampleRate name records.length) rest 0 (15 + name.length) (snacHeader_length ..).symm
    (legalRecords_levelMeta hlegal)
  rw [← flatMap_snacRecord, ← List.append_assoc, ← snacFields, List.length_map,
    ← snacFields_length version sampleRate name records.length] at hmetas
  rw [snacFields_append] at hcap hmetas ⊢
  rw [decodeContainer_header p version sampleRate name _ fallback records.length hlen hutf8 hcount hcap]
  simp only [hmetas, except_ok_bind]

theorem decodeContainer_payloads_error {e : Raise} (fallback : List Byte) (hname : LegalName name)
    (hcount : records.length < 2 ^ 32) (hlegal : ∀ r ∈ records, LegalRecord p r)
    (hbuf : buf = snacFields version sampleRate name records.length records ++ rest)
    (hcap : exceeds p.bufCap buf.length = false)
    (h : readPayloads p.seqCap buf (records.map LevelRecord.levelMeta) 0
      (snacFields version sampleRate name records.length records).length = .error e) :
    decodeContainer p buf fallback = .error e := by
  rw [decodeContainer_payloads fallback hname hcount hlegal hbuf hcap, h, except_error_bind]

theorem decodeContainer_name_error (fallback : List Byte) (hlen : name.length < 2 ^ 16)
    (hutf8 : utf8WellFormed name = false)
    (hcap : exceeds p.bufCap (snacNamed version sampleRate name ++ rest).length = false) :
    decodeContainer p (snacNamed version sampleRate name ++ rest) fallback =
      .error ⟨.invalidEncoding, .modelName, 0⟩ := by
  have hne : name ≠ [] := by rintro rfl; cases hutf8
  have hread := readName_stored version sampleRate name rest fallback
  rw [if_neg hne, if_neg (by simp [hutf8])] at hread
  have hnamed := decodeContainer_named p version sampleRate name rest fallback hlen hcap
  simp only [hread, except_error_bind] at hnamed
  exact hnamed

/-- The fields of a record that starts with a length and a width (43_container_sd.md R160). -/
theorem rdle_record_fields {length bitWidth : Nat} (hlen : length < 2 ^ 32) (hwidth : bitWidth < 2 ^ 16)
    (rest : List Byte) :
    rdle (slice (le32 length ++ le16 bitWidth ++ rest) 0 4) = length ∧
      rdle (slice (le32 length ++ le16 bitWidth ++ rest) 4 2) = bitWidth ∧
      slice (le32 length ++ le16 bitWidth ++ rest) 6 4 = slice rest 0 4 :=
  ⟨rdle_le32 length hlen, rdle_le16 bitWidth hwidth, slice_after (le32 length ++ le16 bitWidth) rest 6 0 4 rfl⟩

end Metadata

/-- Settles O41: of the outcomes of one record, the conditions of each clause leave one. -/
theorem ccDecodeNamesShortMetadataField : Obligations.CcDecodeNamesShortMetadataField := by
  rintro s version sampleRate name good levelCount rest fallback buf hname hcount hlt hlegal rfl hcap
  have raised {e : Raise} (h : readMeta _ _ _ _ = .error e) := exec_ccDecode_error s _ fallback e
    (decodeContainer_metadata_error fallback hname hcount hlt hlegal rfl hcap h)
  obtain ⟨h, hr⟩ | ⟨h4, h, hr⟩ | ⟨h6, hw, -⟩ | ⟨h6, -, -, h, hr⟩ | ⟨h10, -⟩ | ⟨h10, -⟩ :=
    readMeta_cases s.params.strictPayload (snacFields version sampleRate name levelCount good) rest good.length _
      (snacFields_length ..).symm
  · exact ⟨fun _ => raised hr, by omega, by omega⟩
  · exact ⟨by omega, fun _ _ => raised hr, by omega⟩
  · exact ⟨by omega, by omega, by omega⟩
  · exact ⟨by omega, by omega, fun _ _ _ _ => raised hr⟩
  · exact ⟨by omega, by omega, by omega⟩
  · exact ⟨by omega, by omega, by omega⟩

/-- Settles O42: the name is checked before everything behind it, and a bad width or size is one of the outcomes of its record. -/
theorem ccDecodeRejectsBadMetadata : Obligations.CcDecodeRejectsBadMetadata := by
  intro s version sampleRate name rest fallback hlen
  refine ⟨fun hutf8 hcap => exec_ccDecode_error s _ fallback _ (decodeContainer_name_error fallback hlen hutf8 hcap), ?_⟩
  rintro good levelCount length bitWidth _ hutf8 hcount hlt hlegal hlength hwidth rfl hcap
  have raised {e : Raise} (h : readMeta _ _ _ _ = .error e) := exec_ccDecode_error s _ fallback e
    (decodeContainer_metadata_error fallback ⟨hlen, hutf8⟩ hcount hlt hlegal rfl hcap h)
  have hcases := readMeta_cases s.params.strictPayload (snacFields version sampleRate name levelCount good)
    (le32 length ++ le16 bitWidth ++ rest) good.length _ (snacFields_length ..).symm
  obtain ⟨hfirst, hsecond, hthird⟩ := rdle_record_fields hlength hwidth rest
  have hrest : (le32 length ++ le16 bitWidth ++ rest).length = 6 + rest.length := List.length_append
  rw [hfirst, hsecond, hthird, hrest, ceildiv8_eq] at hcases
  obtain ⟨h, -⟩ | ⟨-, h, -⟩ | ⟨-, hw, hr⟩ | ⟨-, h1, h32, h, -⟩ | ⟨-, h1, h32, -, -, hr⟩ | ⟨-, h1, h32, hsize, -⟩ := hcases
  · omega
  · omega
  · exact ⟨fun _ => raised hr, by omega⟩
  · exact ⟨by omega, by omega⟩
  · exact ⟨by omega, fun _ _ _ _ _ => raised hr⟩
  · exact ⟨by omega, fun _ _ hstrict _ hne => absurd (hsize hstrict) hne⟩

/-! ### CC_DECODE: the payloads -/

/-- Settles O43. -/
theorem ccDecodePayloadErrorsInOrder : Obligations.CcDecodePayloadErrorsInOrder := by
  rintro s version sampleRate name good bad more _ rest fallback _ hname rfl hcount hlegal hcapacity rfl hcap
  have hentries : ∀ r ∈ good.map LevelRecord.entry,
      r.1.payloadSize = r.2.length ∧ exceeds s.params.seqCap r.1.length = false :=
    List.forall_mem_map.mpr fun r hr => ⟨rfl, hcapacity r hr⟩
  have hpayloads := readPayloads_error s.params.seqCap (good.map LevelRecord.entry) bad.levelMeta
    (more.map LevelRecord.levelMeta)
    (snacFields version sampleRate name (good ++ bad :: more).length (good ++ bad :: more)) rest 0 _ rfl hentries
  rw [← flatMap_chunk, ← map_levelMeta, ← List.map_cons, ← List.map_append, List.length_map, Nat.zero_add] at hpayloads
  obtain ⟨hshort, hlong⟩ := hpayloads
  rw [List.append_assoc] at hcap ⊢
  have raised {e : Raise} (h : readPayloads _ _ _ _ _ = .error e) := exec_ccDecode_error s _ fallback e
    (decodeContainer_payloads_error fallback hname hcount hlegal rfl hcap h)
  exact ⟨fun hrest => raised (hshort hrest), fun hrest hseq => raised (hlong hrest hseq)⟩

theorem snacFields_append_chunks (version : Byte) (sampleRate : Word) (name : List Byte) (records : List LevelRecord) :
    snacFields version sampleRate name records.length records ++ records.flatMap LevelRecord.chunk =
      snacBytes version sampleRate name records := rfl

/-- What the payload loop returns for the records are the decoded levels (43_container_sd.md R177, R179). -/
theorem map_entry_decoded (records : List LevelRecord) :
    (records.map LevelRecord.entry).map (fun r => (⟨BitVec.ofNat 32 r.1.length, r.1.bitWidth,
      toWords (unpack r.2 r.1.length r.1.bitWidth)⟩ : Level)) = records.map decodedLevel := by
  simp only [toWords_unpack, List.map_map]
  rfl

/-- Settles O38: the metadata and the payloads are read where they stand, and the trailing bytes are not reached. -/
theorem ccDecodeReadsLayout : Obligations.CcDecodeReadsLayout := by
  intro s version sampleRate name records trailing fallback hname hcount hrecords hcap
  have hentries : ∀ r ∈ records.map LevelRecord.entry,
      r.1.payloadSize = r.2.length ∧ exceeds s.params.seqCap r.1.length = false :=
    List.forall_mem_map.mpr fun r hr => ⟨rfl, (hrecords r hr).2⟩
  have hpayloads := readPayloads_ok s.params.seqCap (records.map LevelRecord.entry)
    (snacFields version sampleRate name records.length records) trailing 0 _ rfl hentries
  rw [← flatMap_chunk, ← map_levelMeta, ← List.length_append, snacFields_append_chunks,
    map_entry_decoded] at hpayloads
  rw [← snacFields_append_chunks, List.append_assoc] at hcap
  have hdec := decodeContainer_payloads fallback hname hcount (fun r hr => (hrecords r hr).1) rfl hcap
  rw [hpayloads, except_ok_bind, except_pure, ← List.append_assoc, snacFields_append_chunks] at hdec
  exact exec_ccDecode_ok hdec

/-! ### The round trip -/

theorem map_decodedLevel_encodedRecord (levels : List (List Word)) :
    (levels.map encodedRecord).map decodedLevel =
      levels.map fun l => ⟨BitVec.ofNat 32 l.length, width (seqMax l).toNat, l⟩ := by
  rw [List.map_map]
  exact List.map_congr_left fun l _ => congrArg (Level.mk _ _) (streamValues_encodedRecord l)

/-- Settles O44: the written container is one of the layout (O36), its records are legal whatever the parameters, and reading
one (O38) gives the level's values back. -/
theorem containerRoundTrip : Obligations.ContainerRoundTrip := by
  intro s d version sampleRate name levels out fallback henc hcap hseq
  obtain ⟨hname, hcount, hfits, rfl, -⟩ := EncodedTo.of_exec henc
  have hrecords : ∀ r ∈ levels.map encodedRecord, LegalRecord d.params r ∧ exceeds d.params.seqCap r.length = false :=
    List.forall_mem_map.mpr fun l hl => ⟨legalRecord_encodedRecord d.params (hfits l hl), hseq l hl⟩
  have hdec := ccDecodeReadsLayout d version sampleRate name (levels.map encodedRecord) [] fallback hname
    (by rwa [List.length_map]) hrecords (by rwa [List.append_nil])
  rwa [List.append_nil, map_decodedLevel_encodedRecord] at hdec

theorem snacBytes_split (version : Byte) (sampleRate : Word) (name : List Byte) (good : List LevelRecord)
    (bad : LevelRecord) (more : List LevelRecord) :
    snacBytes version sampleRate name (good ++ bad :: more) =
      snacFields version sampleRate name (good ++ bad :: more).length (good ++ bad :: more) ++
        good.flatMap LevelRecord.chunk ++ (bad.chunk ++ more.flatMap LevelRecord.chunk) := by
  rw [← snacFields_append_chunks, List.flatMap_append, List.flatMap_cons, ← List.append_assoc]

/-- A decoded container holds no level above the capacity: the first one would have raised (43_container_sd.md R176, R180). -/
theorem seqCap_of_decoded {s : State} {version : Byte} {sampleRate : Word} {name fallback : List Byte}
    {records : List LevelRecord} {c : Container} (hname : LegalName name) (hcount : records.length < 2 ^ 32)
    (hlegal : ∀ r ∈ records, LegalRecord s.params r)
    (hcap : exceeds s.params.bufCap (snacBytes version sampleRate name records).length = false)
    (hdec : exec (.ccDecode (snacBytes version sampleRate name records) fallback) s = .next (endedOk s (.container c))) :
    ∀ r ∈ records, exceeds s.params.seqCap r.length = false := by
  cases hfirst : records.find? fun r => exceeds s.params.seqCap r.length with
  | none => simpa using List.find?_eq_none.mp hfirst
  | some bad =>
    obtain ⟨hlong, good, more, rfl, hgood⟩ := List.find?_eq_some_iff_append.mp hfirst
    obtain ⟨-, hraised⟩ := ccDecodePayloadErrorsInOrder s version sampleRate name good bad more _ _ fallback _ hname rfl
      hcount hlegal (by simpa using hgood) (snacBytes_split ..) hcap
    rw [hraised (by simp) hlong, Host.Outcome.next.injEq] at hdec
    exact (endedWith_ne_endedOk s s .capacityExceeded _ _ _ hdec).elim

/-- Settles O45: the decoded fields are the encoded ones (O44). -/
theorem reencodingGivesSameBytes : Obligations.ReencodingGivesSameBytes := by
  intro s version sampleRate name levels out fallback c henc hdec hfallback
  obtain ⟨hname, hcount, hfits, rfl, hcap⟩ := EncodedTo.of_exec henc
  have hseq := seqCap_of_decoded hname (by rwa [List.length_map]) (legalRecords_encoded s.params hfits) hcap hdec
  rw [containerRoundTrip s s version sampleRate name levels _ fallback henc hcap (List.forall_mem_map.mp hseq),
    Host.Outcome.next.injEq] at hdec
  cases endedOk_inj hdec
  have hstored : (if name = [] then fallback else name) = name := by
    by_cases hn : name = []
    · rw [if_pos hn, hfallback.resolve_left (not_not.mpr hn), hn]
    · exact if_neg hn
  simpa [hstored, Function.comp_def] using henc

/-! ### A container cut short -/

/-- The command ends with TruncatedHeader or TruncatedPayload (43_container_sd.md R183). -/
def EndsTruncated (s : State) (i : Instr) : Prop :=
  ∃ (code field : BitVec 8) (index : Nat), (code = 1 ∨ code = 2) ∧ exec i s = .next (endedWith s code field index)

theorem slice_take {buf : List Byte} {m p n : Nat} (h : p + n ≤ m) : slice (buf.take m) p n = slice buf p n := by
  rw [slice, List.drop_take, List.take_take, Nat.min_eq_left (by omega), slice]

/-- A cut through a concatenation of parts lies within one of them. -/
theorem take_flatMap_cut {α β : Type} (f : α → List β) {l : List α} {n : Nat} (h : n < (l.flatMap f).length) :
    ∃ good bad more m, l = good ++ bad :: more ∧ m < (f bad).length ∧
      (l.flatMap f).take n = good.flatMap f ++ (f bad).take m := by
  induction l generalizing n with
  | nil => simp at h
  | cons x l ih =>
    rw [List.flatMap_cons] at h ⊢
    by_cases hx : n < (f x).length
    · exact ⟨[], x, l, n, rfl, hx, by rw [List.take_append_of_le_length hx.le]; rfl⟩
    · obtain ⟨k, rfl⟩ : ∃ k, n = (f x).length + k := ⟨n - (f x).length, by omega⟩
      obtain ⟨good, bad, more, m, rfl, hm, htake⟩ := ih (n := k) (by rw [List.length_append] at h; omega)
      exact ⟨x :: good, bad, more, m, rfl, hm, by
        rw [List.take_length_add_append, htake, List.flatMap_cons, List.append_assoc]⟩

section Cut

variable {s : State} {version : Byte} {sampleRate : Word} {name buf : List Byte}
  {records : List LevelRecord}

theorem endsTruncated_header (fallback rest : List Byte) {n levelCount : Nat} (hname : LegalName name)
    (hcap : exceeds s.params.bufCap ((snacHeader version sampleRate name levelCount ++ rest).take n).length = false)
    (h4 : 4 ≤ n) (hn : n < 15 + name.length) :
    EndsTruncated s (.ccDecode ((snacHeader version sampleRate name levelCount ++ rest).take n) fallback) := by
  obtain ⟨hnameLt, hutf8⟩ := hname
  generalize hbuf : (snacHeader version sampleRate name levelCount ++ rest).take n = buf at hcap ⊢
  have htag : buf.take 4 = [0x53, 0x4E, 0x41, 0x43] := by rw [← hbuf, List.take_take, Nat.min_eq_left h4]; rfl
  have hlen : buf.length = n := by
    rw [← hbuf, List.length_take, List.length_append, snacHeader_length]; omega
  have hnameLen (h : 11 ≤ n) : rdle (slice buf 9 2) = name.length := by
    rw [← hbuf, slice_take h]; exact rdle_le16 _ hnameLt
  have hstored (h : 11 + name.length ≤ n) : slice buf 11 name.length = name := by
    rw [← hbuf, slice_take h, snacHeader, snacNamed, List.append_assoc, List.append_assoc]
    exact slice_append _ name _ 11 name.length rfl rfl
  obtain ⟨hversion, hrate, hlength, hmodel, hlevels⟩ := ccDecodeNamesShortHeaderField s buf fallback hcap htag
  rw [hlen] at hversion hrate hlength hmodel hlevels
  by_cases h5 : n < 5
  · exact ⟨1, 2, 0, .inl rfl, hversion h5⟩
  by_cases h9 : n < 9
  · exact ⟨1, 3, 0, .inl rfl, hrate (by omega) h9⟩
  by_cases h11 : n < 11
  · exact ⟨1, 4, 0, .inl rfl, hlength (by omega) h11⟩
  rw [hnameLen (by omega)] at hmodel hlevels
  by_cases hk : n < 11 + name.length
  · exact ⟨1, 5, 0, .inl rfl, hmodel (by omega) (by omega) hk⟩
  · rw [hstored (by omega)] at hlevels
    exact ⟨1, 6, 0, .inl rfl, hlevels (by omega) hutf8 hn⟩

theorem endsTruncated_record (fallback : List Byte) {good : List LevelRecord} {bad : LevelRecord} {levelCount m : Nat}
    (hname : LegalName name) (hcount : levelCount < 2 ^ 32) (hlt : good.length < levelCount)
    (hgood : ∀ r ∈ good, LegalRecord s.params r) (hbad : LegalRecord s.params bad) (hm : m < 10)
    (hbuf : buf = snacFields version sampleRate name levelCount good ++ (snacRecord bad).take m)
    (hcap : exceeds s.params.bufCap buf.length = false) : EndsTruncated s (.ccDecode buf fallback) := by
  obtain ⟨-, h1, h32, -⟩ := hbad
  have hlen : ((snacRecord bad).take m).length = m := by
    rw [List.length_take, Nat.min_eq_left]; exact hm.le
  have hwidth (h : 6 ≤ m) : rdle (slice ((snacRecord bad).take m) 4 2) = bad.bitWidth := by
    rw [slice_take h]; exact rdle_le16 _ (by omega)
  obtain ⟨hlevel, hbits, hsize⟩ := ccDecodeNamesShortMetadataField s version sampleRate name good levelCount _ fallback
    buf hname hcount hlt hgood hbuf hcap
  rw [hlen] at hlevel hbits hsize
  by_cases h4 : m < 4
  · exact ⟨1, 7, _, .inl rfl, hlevel h4⟩
  by_cases h6 : m < 6
  · exact ⟨1, 8, _, .inl rfl, hbits (by omega) h6⟩
  rw [hwidth (by omega)] at hsize
  exact ⟨1, 9, _, .inl rfl, hsize (by omega) hm h1 h32⟩

theorem exec_ccDecode_cut_chunk (fallback : List Byte) {good more : List LevelRecord} {bad : LevelRecord} {m : Nat}
    (hname : LegalName name) (hcount : (good ++ bad :: more).length < 2 ^ 32)
    (hlegal : ∀ r ∈ good ++ bad :: more, LegalRecord s.params r ∧ exceeds s.params.seqCap r.length = false)
    (hm : m < bad.chunk.length)
    (hbuf : buf = snacFields version sampleRate name (good ++ bad :: more).length (good ++ bad :: more) ++
      good.flatMap LevelRecord.chunk ++ bad.chunk.take m)
    (hcap : exceeds s.params.bufCap buf.length = false) :
    exec (.ccDecode buf fallback) s = .next (endedWith s 2 10 good.length) := by
  obtain ⟨hshort, -⟩ := ccDecodePayloadErrorsInOrder s version sampleRate name good bad more _ (bad.chunk.take m) fallback
    buf hname rfl hcount (fun r hr => (hlegal r hr).1) (fun r hr => (hlegal r (List.mem_append_left _ hr)).2) hbuf hcap
  exact hshort (by rw [List.length_take]; omega)

/-- A legal container cut behind its tag is truncated: the cut lies in a field before the metadata, in a metadata record or
in a payload (43_container_sd.md R183). -/
theorem endsTruncated_take (fallback : List Byte) {n : Nat} (hname : LegalName name) (hcount : records.length < 2 ^ 32)
    (hlegal : ∀ r ∈ records, LegalRecord s.params r ∧ exceeds s.params.seqCap r.length = false)
    (hcap : exceeds s.params.bufCap ((snacBytes version sampleRate name records).take n).length = false)
    (h4 : 4 ≤ n) (hn : n < (snacBytes version sampleRate name records).length) :
    EndsTruncated s (.ccDecode ((snacBytes version sampleRate name records).take n) fallback) := by
  rw [← snacFields_append_chunks, List.length_append] at hn
  rw [← snacFields_append_chunks] at hcap ⊢
  by_cases hheader : n < 15 + name.length
  · rw [snacFields, List.append_assoc] at hcap ⊢
    exact endsTruncated_header fallback _ hname hcap h4 hheader
  obtain ⟨k, rfl⟩ : ∃ k, n = 15 + name.length + k := ⟨n - (15 + name.length), by omega⟩
  by_cases hmeta : k < (records.flatMap snacRecord).length
  · rw [List.take_append_of_le_length (by rw [snacFields, List.length_append, snacHeader_length]; omega), snacFields,
      ← snacHeader_length version sampleRate name records.length, List.take_length_add_append] at hcap ⊢
    obtain ⟨good, bad, more, m, rfl, hm, htake⟩ := take_flatMap_cut snacRecord hmeta
    rw [htake, ← List.append_assoc] at hcap ⊢
    obtain ⟨hgood, hrest⟩ := List.forall_mem_append.mp hlegal
    exact endsTruncated_record fallback hname hcount (by simp) (fun r hr => (hgood r hr).1)
      (hrest bad List.mem_cons_self).1 hm rfl hcap
  · obtain ⟨j, rfl⟩ : ∃ j, k = 10 * records.length + j := ⟨k - 10 * records.length, by
      rw [flatMap_snacRecord, flatMap_metaBytes_length, List.length_map] at hmeta; omega⟩
    rw [← Nat.add_assoc, ← snacFields_length version sampleRate name records.length records] at hcap hn ⊢
    obtain ⟨good, bad, more, m, rfl, hm, htake⟩ := take_flatMap_cut LevelRecord.chunk (Nat.lt_of_add_lt_add_left hn)
    rw [List.take_length_add_append, htake, ← List.append_assoc] at hcap ⊢
    exact ⟨2, 10, _, .inr rfl, exec_ccDecode_cut_chunk fallback hname hcount hlegal hm rfl hcap⟩

/-- Without the last byte of a last chunk that is not empty, that chunk is short (43_container_sd.md R183). -/
theorem exec_ccDecode_dropLast (fallback : List Byte) {init : List LevelRecord} {last : LevelRecord}
    (hname : LegalName name) (hcount : (init ++ [last]).length < 2 ^ 32)
    (hlegal : ∀ r ∈ init ++ [last], LegalRecord s.params r ∧ exceeds s.params.seqCap r.length = false)
    (hne : last.chunk ≠ [])
    (hcap : exceeds s.params.bufCap (snacBytes version sampleRate name (init ++ [last])).dropLast.length = false) :
    exec (.ccDecode (snacBytes version sampleRate name (init ++ [last])).dropLast fallback) s =
      .next (endedWith s 2 10 init.length) := by
  have hlen := List.length_pos_iff.mpr hne
  rw [snacBytes_split, List.flatMap_nil, List.append_nil, List.dropLast_append_of_ne_nil hne,
    List.dropLast_eq_take] at hcap ⊢
  exact exec_ccDecode_cut_chunk fallback hname hcount hlegal (by omega) rfl hcap

end Cut

theorem encodedRecord_chunk_ne_nil {level : List Word} (h : level ≠ []) : (encodedRecord level).chunk ≠ [] := by
  have hlen : 1 * 1 ≤ level.length * levelWidth level :=
    Nat.mul_le_mul (List.length_pos_iff.mpr h) (one_le_levelWidth level)
  rw [← List.length_pos_iff, encodedRecord_chunk_length]
  omega

/-- Settles O46: the records of a written container are legal, and a cut one is within the capacity. -/
theorem cutContainerIsTruncated : Obligations.CutContainerIsTruncated := by
  intro s version sampleRate name levels out fallback henc hseq
  obtain ⟨hname, hcount, hfits, rfl, hcap⟩ := EncodedTo.of_exec henc
  have hlegal : ∀ r ∈ levels.map encodedRecord, LegalRecord s.params r ∧ exceeds s.params.seqCap r.length = false :=
    List.forall_mem_map.mpr fun l hl => ⟨legalRecord_encodedRecord s.params (hfits l hl), hseq l hl⟩
  rw [← List.length_map (as := levels) encodedRecord] at hcount
  refine ⟨fun n h4 hn => ?cut, fun last hlast hne => ?lastByte⟩
  case cut =>
    exact endsTruncated_take fallback hname hcount hlegal (exceeds_mono hcap (List.length_take_le' ..)) h4 hn
  case lastByte =>
    obtain ⟨init, rfl⟩ := List.getLast?_eq_some_iff.mp hlast
    rw [List.map_append, List.map_singleton] at hcount hlegal hcap ⊢
    have h := exec_ccDecode_dropLast fallback hname hcount hlegal (encodedRecord_chunk_ne_nil hne)
      (exceeds_mono hcap (List.dropLast_sublist _).length_le)
    rw [List.length_map] at h
    rwa [List.length_append, List.length_singleton, Nat.add_sub_cancel]

end Sys2Proof.Machine
end

section
/-! PROOFS. The framed container of 44_container_ff.md: what FF_ENCODE writes and raises (R205, R206), what FF_DECODE reads and
raises (R210 to R214, R216), and the laws of the two together (R215). -/

namespace Sys2Proof.Machine

/-! ### The layout in the codec's terms -/

/-- A frame's shape and chunk, as the laws of the frame loop take them (44_container_ff.md R210). -/
def FrameRecord.entry (r : FrameRecord) : (I32 × I32 × I32) × List Byte := ((r.shapeB, r.shapeN, r.shapeT), r.chunk)

theorem flatMap_framedRecord (records : List FrameRecord) :
    records.flatMap framedRecord = (records.map FrameRecord.entry).flatMap frameBytes := by
  rw [List.flatMap_map]; rfl

/-- The fields before the frames (44_container_ff.md R200). -/
def framedHeader (sampleRate channelCount : I32) (frameCount : Nat) : List Byte :=
  le32 sampleRate.toNat ++ le32 channelCount.toNat ++ le32 frameCount

theorem framedHeader_length (sampleRate channelCount : I32) (frameCount : Nat) :
    (framedHeader sampleRate channelCount frameCount).length = 12 := rfl

theorem framedHeader_append (sampleRate channelCount : I32) (records : List FrameRecord) :
    framedHeader sampleRate channelCount records.length ++ records.flatMap framedRecord =
      framedBytes sampleRate channelCount records := rfl

theorem framedRecord_length (r : FrameRecord) : (framedRecord r).length = 12 + r.chunk.length := by
  simp only [framedRecord, List.length_append, le32_length]

/-- A non-negative i32 is below the sign bit (00_scope.md R11). -/
theorem toNat_lt_of_nonneg {x : I32} (h : 0 ≤ x.toInt) : x.toNat < 2 ^ 31 := by
  have := BitVec.toInt_lt (x := x)
  rw [toInt_eq_toNat x h] at this
  omega

/-- The exact product of non-negative dimensions is the number of codes of the shape (44_container_ff.md R201). -/
theorem shapeProduct_toNat_eq_codeCount {b n t : I32} (hb : 0 ≤ b.toInt) (hn : 0 ≤ n.toInt) (ht : 0 ≤ t.toInt) :
    (shapeProduct b n t).toNat = codeCount b n t := shapeProduct_toNat b n t hb hn ht

theorem ceildiv8_ffWidth (count : Nat) : ceildiv8 (ffWidth * count) = (10 * count + 7) / 8 := ceildiv8_eq _

/-! ### The record of a frame that FF_ENCODE writes -/

/-- The codes of a frame as they are stored: modulo 1024 (44_container_ff.md R206). -/
def storedCodes (f : Frame) : List Nat := f.values.map fun v => v.toNat % 1024

theorem storedCodes_lt (f : Frame) : ∀ v ∈ storedCodes f, v < 2 ^ 10 :=
  List.forall_mem_map.mpr fun v _ => Nat.mod_lt v.toNat (by decide)

theorem storedCodes_length (f : Frame) : (storedCodes f).length = f.values.length := List.length_map _

/-- The codes that FF_ENCODE packs give the chunk of the layout (44_container_ff.md R205). -/
theorem pack_storedCodes (f : Frame) : pack (storedCodes f) ffWidth = (encodedFrame f).chunk :=
  packIsPaddedValueBits _ 10 (by decide) (by decide) (storedCodes_lt f)

theorem toWords_storedCodes (f : Frame) : toWords (storedCodes f) = f.values.map (· % 1024) := by
  rw [toWords, storedCodes, List.map_map]
  refine List.map_congr_left fun v _ => BitVec.eq_of_toNat_eq ?_
  simp [BitVec.toNat_umod]
  omega

section LegalFrame

variable {policy : OvfPolicy} {f : Frame}

theorem LegalFrame.length_eq (h : LegalFrame policy f) :
    f.values.length = codeCount f.shapeB f.shapeN f.shapeT := by
  obtain ⟨hb, hn, ht, hlen, -⟩ := h
  rw [← shapeProduct_toNat_eq_codeCount hb hn ht, shapeProduct, ← hlen, Int.toNat_natCast]

/-- The chunk of a written frame has the size its shape declares (44_container_ff.md R203). -/
theorem legalFrameRecord_encodedFrame (h : LegalFrame policy f) : LegalFrameRecord (encodedFrame f) := by
  have hcount := LegalFrame.length_eq h
  obtain ⟨hb, hn, ht, -⟩ := h
  refine ⟨hb, hn, ht, ?_⟩
  rw [encodedFrame, bytesOf_length, valueBits_length, List.length_map, hcount, Nat.mul_comm]

/-- Reading a written chunk gives the stored codes (44_container_ff.md R215). -/
theorem decodedFrame_encodedFrame (h : LegalFrame policy f) :
    decodedFrame (encodedFrame f) = ⟨f.shapeB, f.shapeN, f.shapeT, f.values.map (· % 1024)⟩ := by
  have hround := unpackInvertsPack (storedCodes f) 10 (by decide) (by decide) (storedCodes_lt f)
  rw [storedCodes_length, LegalFrame.length_eq h] at hround
  have hvalues : streamValues (encodedFrame f).chunk 0 10 (codeCount f.shapeB f.shapeN f.shapeT) =
      f.values.map (· % 1024) := by
    rw [← toWords_unpack, ← pack_storedCodes, ffWidth, hround, toWords_storedCodes]
  exact congrArg (Frame.mk _ _ _) hvalues

end LegalFrame

/-! ### FF_ENCODE -/

/-- A code that the policy does not accept raises ValueOutOfRange (44_container_ff.md R206). -/
theorem fitCodes_error {policy : OvfPolicy} {values : List Word} (i : Nat)
    (h : ¬∀ v ∈ fromWords values, v < 2 ^ 10 ∨ policy = .mask) :
    fitCodes policy i values = .error ⟨.valueOutOfRange, .ffPayload, i⟩ := by
  induction values with
  | nil => exact absurd (List.forall_mem_nil _) h
  | cons v values ih =>
    by_cases hv : v.toNat < 2 ^ 10 ∨ policy = .mask
    · have htail := ih fun hrest => h (List.forall_mem_cons.mpr ⟨hv, hrest⟩)
      rw [fitCodes, fitValue_accepted policy ffWidth v.toNat .ffPayload i hv, except_ok_bind, htail, except_error_bind]
    · obtain ⟨hlt, -⟩ | ⟨-, hmask, -⟩ | ⟨-, -, hraised⟩ := fitValue_cases policy ffWidth v.toNat .ffPayload i
      · exact absurd (.inl hlt) hv
      · exact absurd (.inr hmask) hv
      · rw [fitCodes, hraised, except_error_bind]

/-- A legal frame is written as its record, and any other raises what its first failed check does (44_container_ff.md R205, R216). -/
theorem encodeFrame_cases (policy : OvfPolicy) (i : Nat) (f : Frame) :
    (LegalFrame policy f ∧ encodeFrame policy i f = .ok (framedRecord (encodedFrame f))) ∨
      (¬LegalFrame policy f ∧ ∃ kind field, encodeFrame policy i f = .error ⟨kind, field, i⟩ ∧
        (kind.code, field.id) = frameError f) := by
  by_cases hb : f.shapeB.toInt < 0
  · exact .inr ⟨fun ⟨h, _⟩ => by omega, .fieldOutOfRange, .ffShapeB, by simp [encodeFrame, hb],
      by simp [frameError, hb, FieldId.id, RaiseKind.code]⟩
  by_cases hn : f.shapeN.toInt < 0
  · exact .inr ⟨fun ⟨_, h, _⟩ => by omega, .fieldOutOfRange, .ffShapeN, by simp [encodeFrame, hb, hn],
      by simp [frameError, hb, hn, FieldId.id, RaiseKind.code]⟩
  by_cases ht : f.shapeT.toInt < 0
  · exact .inr ⟨fun ⟨_, _, h, _⟩ => by omega, .fieldOutOfRange, .ffShapeT, by simp [encodeFrame, hb, hn, ht],
      by simp [frameError, hb, hn, ht, FieldId.id, RaiseKind.code]⟩
  by_cases hlen : (f.values.length : Int) = f.shapeB.toInt * f.shapeN.toInt * f.shapeT.toInt
  · by_cases hfit : ∀ v ∈ fromWords f.values, v < 2 ^ 10 ∨ policy = .mask
    · have hcodes : fitCodes policy i f.values = .ok (storedCodes f) :=
        fitCodes_ok policy i f.values (List.forall_mem_map.mp hfit)
      exact .inl ⟨⟨by omega, by omega, by omega, hlen, hfit⟩, by
        simp [encodeFrame, shapeProduct, hb, hn, ht, hlen, hcodes, pack_storedCodes, framedRecord, encodedFrame]⟩
    · exact .inr ⟨fun ⟨_, _, _, _, h⟩ => hfit h, .valueOutOfRange, .ffPayload,
        by simp [encodeFrame, shapeProduct, hb, hn, ht, hlen, fitCodes_error i hfit],
        by simp [frameError, hb, hn, ht, hlen, FieldId.id, RaiseKind.code]⟩
  · exact .inr ⟨fun ⟨_, _, _, h, _⟩ => hlen h, .shapeMismatch, .ffPayload,
      by simp [encodeFrame, shapeProduct, hb, hn, ht, hlen],
      by simp [frameError, hb, hn, ht, hlen, FieldId.id, RaiseKind.code]⟩

theorem encodeFrames_cons (policy : OvfPolicy) {f : Frame} (frames : List Frame) (i : Nat) (h : LegalFrame policy f) :
    encodeFrames policy (f :: frames) i = (do
      let rest ← encodeFrames policy frames (i + 1)
      return framedRecord (encodedFrame f) ++ rest) := by
  obtain ⟨-, hok⟩ | ⟨hbad, -⟩ := encodeFrame_cases policy i f
  · rw [encodeFrames, hok, except_ok_bind]
  · exact absurd h hbad

theorem encodeFrames_ok {policy : OvfPolicy} {frames : List Frame} (i : Nat) (h : ∀ f ∈ frames, LegalFrame policy f) :
    encodeFrames policy frames i = .ok ((frames.map encodedFrame).flatMap framedRecord) := by
  induction frames generalizing i with
  | nil => rfl
  | cons f frames ih =>
    obtain ⟨hf, hrest⟩ := List.forall_mem_cons.mp h
    rw [encodeFrames_cons policy frames i hf, ih (i + 1) hrest, except_ok_bind, except_pure, List.map_cons,
      List.flatMap_cons]

/-- Conversely, frames that are encoded are legal (44_container_ff.md R205). -/
theorem encodeFrames_legal {policy : OvfPolicy} {frames : List Frame} {i : Nat} {out : List Byte}
    (h : encodeFrames policy frames i = .ok out) : ∀ f ∈ frames, LegalFrame policy f := by
  induction frames generalizing i out with
  | nil => exact List.forall_mem_nil _
  | cons f frames ih =>
    rw [encodeFrames] at h
    obtain ⟨first, hfirst, h⟩ := (except_bind_ok_iff _ _ _).mp h
    obtain ⟨rest, hrest, -⟩ := (except_bind_ok_iff _ _ _).mp h
    obtain ⟨hf, -⟩ | ⟨-, kind, field, hraised, -⟩ := encodeFrame_cases policy i f
    · exact List.forall_mem_cons.mpr ⟨hf, ih hrest⟩
    · rw [hraised] at hfirst
      cases hfirst

/-- What the first frame that is not legal raises, with its index (44_container_ff.md R205, R216). -/
theorem encodeFrames_error {policy : OvfPolicy} {good : List Frame} {bad : Frame} (rest : List Frame) (i : Nat)
    (hgood : ∀ f ∈ good, LegalFrame policy f) (hbad : ¬LegalFrame policy bad) :
    ∃ kind field, encodeFrames policy (good ++ bad :: rest) i = .error ⟨kind, field, i + good.length⟩ ∧
      (kind.code, field.id) = frameError bad := by
  induction good generalizing i with
  | nil =>
    obtain ⟨hlegal, -⟩ | ⟨-, kind, field, hraised, hcode⟩ := encodeFrame_cases policy i bad
    · exact absurd hlegal hbad
    · exact ⟨kind, field, by rw [List.nil_append, encodeFrames, hraised, except_error_bind]; rfl, hcode⟩
  | cons f good ih =>
    obtain ⟨hf, hgood⟩ := List.forall_mem_cons.mp hgood
    obtain ⟨kind, field, htail, hcode⟩ := ih (i + 1) hgood
    exact ⟨kind, field, by
      rw [List.cons_append, encodeFrames_cons policy _ i hf, htail, except_error_bind, List.length_cons,
        Nat.succ_add_eq_add_succ], hcode⟩

theorem exec_ffEncode_error {s : State} {sampleRate channelCount : I32} {frames : List Frame} {e : Raise}
    (h : encodeFramed s.params sampleRate channelCount frames = .error e) :
    exec (.ffEncode sampleRate channelCount frames) s = .next (endedWith s e.kind.code e.field.id e.index) := by
  rw [exec_ffEncode, ffEncodeRule, h, except_error_bind, commit_error]

theorem exec_ffEncode_ok {s : State} {sampleRate channelCount : I32} {frames : List Frame} {out : List Byte}
    (h : encodeFramed s.params sampleRate channelCount frames = .ok out) :
    exec (.ffEncode sampleRate channelCount frames) s = .next (endedOk s (.bytes out)) := by
  rw [exec_ffEncode, ffEncodeRule, h, except_ok_bind, except_pure, commit_ok]

/-- What FF_ENCODE responded is what the encoder gave. -/
theorem encodeFramed_of_exec {s : State} {sampleRate channelCount : I32} {frames : List Frame} {out : List Byte}
    (h : exec (.ffEncode sampleRate channelCount frames) s = .next (endedOk s (.bytes out))) :
    encodeFramed s.params sampleRate channelCount frames = .ok out := by
  cases hout : encodeFramed s.params sampleRate channelCount frames with
  | error e =>
    rw [exec_ffEncode_error hout, Host.Outcome.next.injEq] at h
    exact (endedWith_ne_endedOk _ _ _ _ _ _ h).elim
  | ok out' =>
    rw [exec_ffEncode_ok hout, Host.Outcome.next.injEq] at h
    cases endedOk_inj h
    rfl

theorem encodeFramed_count_error (p : Params) (sampleRate channelCount : I32) {frames : List Frame}
    (h : 2 ^ 31 ≤ frames.length) :
    encodeFramed p sampleRate channelCount frames = .error ⟨.fieldOutOfRange, .ffFrameCount, 0⟩ := by
  have hcount : decide (2 ^ 31 - 1 < frames.length) = true := decide_eq_true (by omega)
  rw [encodeFramed, hcount, check_true, except_error_bind]

/-- The encoder past its check of the count: the frames, then the capacity (44_container_ff.md R205). -/
theorem encodeFramed_counted (p : Params) (sampleRate channelCount : I32) {frames : List Frame}
    (h : frames.length < 2 ^ 31) :
    encodeFramed p sampleRate channelCount frames = (do
      let body ← encodeFrames p.ovfPolicy frames 0
      let out := framedHeader sampleRate channelCount frames.length ++ body
      check (exceeds p.bufCap out.length) ⟨.capacityExceeded, .buffer, 0⟩
      return out) := by
  have hcount : decide (2 ^ 31 - 1 < frames.length) = false := decide_eq_false (by omega)
  rw [encodeFramed, hcount, check_false, except_ok_bind]
  rfl

/-- Legal frames leave the check of the capacity (44_container_ff.md R205). -/
theorem encodeFramed_of_legal (p : Params) (sampleRate channelCount : I32) {frames : List Frame}
    (hcount : frames.length < 2 ^ 31) (hlegal : ∀ f ∈ frames, LegalFrame p.ovfPolicy f) :
    encodeFramed p sampleRate channelCount frames = (do
      check (exceeds p.bufCap (framedBytes sampleRate channelCount (frames.map encodedFrame)).length)
        ⟨.capacityExceeded, .buffer, 0⟩
      return framedBytes sampleRate channelCount (frames.map encodedFrame)) := by
  rw [encodeFramed_counted p _ _ hcount, encodeFrames_ok 0 hlegal, except_ok_bind, ← framedHeader_append,
    List.length_map]

/-- The operands from which FF_ENCODE wrote `out` (44_container_ff.md R205). -/
structure FramedTo (p : Params) (sampleRate channelCount : I32) (frames : List Frame) (out : List Byte) : Prop where
  count_lt : frames.length < 2 ^ 31
  legal : ∀ f ∈ frames, LegalFrame p.ovfPolicy f
  bytes_eq : out = framedBytes sampleRate channelCount (frames.map encodedFrame)
  capacity : exceeds p.bufCap out.length = false

/-- The encoder gives the layout's bytes exactly for legal frames within the capacity (44_container_ff.md R200, R205). -/
theorem encodeFramed_ok_iff (p : Params) (sampleRate channelCount : I32) (frames : List Frame) (out : List Byte) :
    encodeFramed p sampleRate channelCount frames = .ok out ↔ FramedTo p sampleRate channelCount frames out := by
  constructor
  · intro h
    have hcount : frames.length < 2 ^ 31 := by
      by_contra hlong
      rw [encodeFramed_count_error p _ _ (Nat.le_of_not_lt hlong)] at h
      cases h
    have hok := h
    rw [encodeFramed_counted p _ _ hcount] at hok
    obtain ⟨body, hbody, -⟩ := (except_bind_ok_iff _ _ _).mp hok
    have hlegal := encodeFrames_legal hbody
    rw [encodeFramed_of_legal p _ _ hcount hlegal] at h
    obtain ⟨⟨⟩, hcap, hout⟩ := (except_bind_ok_iff _ _ _).mp h
    cases hout
    exact ⟨hcount, hlegal, rfl, (check_ok_iff _ _).mp hcap⟩
  · rintro ⟨hcount, hlegal, rfl, hcap⟩
    rw [encodeFramed_of_legal p _ _ hcount hlegal, hcap, check_false, except_ok_bind, except_pure]

theorem FramedTo.of_exec {s : State} {sampleRate channelCount : I32} {frames : List Frame} {out : List Byte}
    (h : exec (.ffEncode sampleRate channelCount frames) s = .next (endedOk s (.bytes out))) :
    FramedTo s.params sampleRate channelCount frames out :=
  (encodeFramed_ok_iff ..).mp (encodeFramed_of_exec h)

/-- Settles O47. -/
theorem ffEncodeWritesLayout : Obligations.FfEncodeWritesLayout :=
  fun _ _ _ _ hcount hlegal hcap => exec_ffEncode_ok ((encodeFramed_ok_iff ..).mpr ⟨hcount, hlegal, rfl, hcap⟩)

/-- Settles O48, check by check. -/
theorem ffEncodeErrorsInOrder : Obligations.FfEncodeErrorsInOrder := by
  intro s sampleRate channelCount frames
  refine ⟨fun hcount => ?count, ?frame, fun hcount hlegal hcap => ?capacity⟩
  case count => exact exec_ffEncode_error (encodeFramed_count_error s.params _ _ hcount)
  case frame =>
    rintro good bad rest rfl hcount hgood hbad
    obtain ⟨kind, field, hraised, hcode⟩ := encodeFrames_error rest 0 hgood hbad
    rw [Nat.zero_add] at hraised
    rw [← hcode]
    exact exec_ffEncode_error (by
      rw [encodeFramed_counted s.params sampleRate channelCount hcount, hraised, except_error_bind])
  case capacity =>
    exact exec_ffEncode_error (by
      rw [encodeFramed_of_legal s.params _ _ hcount hlegal, hcap, check_true, except_error_bind])

/-! ### FF_DECODE: the fields before the frames -/

theorem exec_ffDecode_ok {s : State} {buf : List Byte} {c : FramedContainer} (h : decodeFramed s.params buf = .ok c) :
    exec (.ffDecode buf) s = .next (endedOk s (.framed c)) := by
  rw [exec_ffDecode, ffDecodeRule, h, except_ok_bind, except_pure, commit_ok]

theorem decodeFramed_capacity_error {p : Params} {buf : List Byte} (h : exceeds p.bufCap buf.length = true) :
    decodeFramed p buf = .error ⟨.capacityExceeded, .buffer, 0⟩ := by
  rw [decodeFramed, h, check_true, except_error_bind]

theorem readI32_within {buf : List Byte} {p : Nat} (f : FieldId) (i : Nat) (h : p + 4 ≤ buf.length) :
    readI32 buf p f i = .ok (BitVec.ofNat 32 (rdle (slice buf p 4))) := by
  rw [readI32, readField_within f i h, except_ok_bind, except_pure]

theorem readI32_short {buf : List Byte} {p : Nat} (f : FieldId) (i : Nat) (h : buf.length < p + 4) :
    readI32 buf p f i = .error ⟨.truncatedHeader, f, i⟩ := by
  rw [readI32, readField_short buf p 4 f i h, except_error_bind]

section Dimension

variable {a rest : List Byte} {p k : Nat} (f : FieldId) (i : Nat) (hp : p = a.length + k)
include hp

theorem readDim_after_short (h : rest.length < k + 4) :
    readDim (a ++ rest) p f i = .error ⟨.truncatedHeader, f, i⟩ := by
  rw [readDim, readI32_short f i (by rw [List.length_append]; omega), except_error_bind]

theorem readDim_after_negative (h : k + 4 ≤ rest.length) (hx : 2 ^ 31 ≤ rdle (slice rest k 4)) :
    readDim (a ++ rest) p f i = .error ⟨.fieldOutOfRange, f, i⟩ := by
  rw [← ofNat_toInt_neg_iff _ (rdle_slice_lt rest k)] at hx
  obtain ⟨hshort, -⟩ | ⟨-, -, hr⟩ | ⟨-, hpos, -⟩ := readDim_cases a rest p k f i hp
  · omega
  · exact hr
  · omega

theorem readDim_after (h : k + 4 ≤ rest.length) (hx : rdle (slice rest k 4) < 2 ^ 31) :
    readDim (a ++ rest) p f i = .ok (BitVec.ofNat 32 (rdle (slice rest k 4))) := by
  rw [← Nat.not_le, ← ofNat_toInt_neg_iff _ (rdle_slice_lt rest k)] at hx
  obtain ⟨hshort, -⟩ | ⟨-, hneg, -⟩ | ⟨-, -, hr⟩ := readDim_cases a rest p k f i hp
  · omega
  · exact absurd hneg hx
  · exact hr

end Dimension

/-- The decoder past the two fields that are never checked: the frame count, then the frames (44_container_ff.md R210). -/
theorem decodeFramed_rates {p : Params} {buf : List Byte} (hcap : exceeds p.bufCap buf.length = false)
    (h8 : 8 ≤ buf.length) :
    decodeFramed p buf = (do
      let frameCount ← readDim buf 8 .ffFrameCount 0
      let frames ← readFrames p.seqCap buf frameCount.toNat 0 12
      return ⟨BitVec.ofNat 32 (rdle (slice buf 0 4)), BitVec.ofNat 32 (rdle (slice buf 4 4)), frames.1, frames.2⟩) := by
  rw [decodeFramed, hcap, check_false, except_ok_bind, readI32_within _ _ (by omega), except_ok_bind,
    readI32_within _ _ h8, except_ok_bind]

/-- Settles O50: every field before the bad one is within the buffer. -/
theorem ffDecodeHeaderErrorsInOrder : Obligations.FfDecodeHeaderErrorsInOrder := by
  intro s buf
  refine ⟨fun hcap => ?capacity, fun hcap => ⟨fun h => ?sampleRate, fun h4 h => ?channelCount, fun h8 h => ?frameCount,
    fun h12 hneg => ?negative⟩⟩
  case capacity => exact exec_ffDecode_error s buf _ (decodeFramed_capacity_error hcap)
  case sampleRate =>
    exact exec_ffDecode_error s buf ⟨.truncatedHeader, .ffSampleRate, 0⟩ (by
      rw [decodeFramed, hcap, check_false, except_ok_bind, readI32_short _ _ h, except_error_bind])
  case channelCount =>
    exact exec_ffDecode_error s buf ⟨.truncatedHeader, .ffChannelCount, 0⟩ (by
      rw [decodeFramed, hcap, check_false, except_ok_bind, readI32_within _ _ h4, except_ok_bind, readI32_short _ _ h,
        except_error_bind])
  case frameCount =>
    have hr : readDim buf 8 .ffFrameCount 0 = .error _ := readDim_after_short (a := []) .ffFrameCount 0 rfl h
    exact exec_ffDecode_error s buf _ (by rw [decodeFramed_rates hcap h8, hr, except_error_bind])
  case negative =>
    have hr : readDim buf 8 .ffFrameCount 0 = .error _ := readDim_after_negative (a := []) .ffFrameCount 0 rfl h12 hneg
    exact exec_ffDecode_error s buf _ (by rw [decodeFramed_rates hcap (by omega), hr, except_error_bind])

/-- Settles O52: no frame is announced, so none is read. -/
theorem ffDecodeAcceptsAnyZeroFrameCount : Obligations.FfDecodeAcceptsAnyZeroFrameCount := by
  intro s buf hcap h12 hzero
  have hcount : rdle (slice buf 8 4) = 0 := by rw [hzero]; rfl
  have hr : readDim buf 8 .ffFrameCount 0 = .ok _ := readDim_after (a := []) .ffFrameCount 0 rfl h12 (by omega)
  rw [hcount] at hr
  exact exec_ffDecode_ok (by rw [decodeFramed_rates hcap (by omega), hr]; rfl)

/-! ### FF_DECODE: the frames -/

/-- A legal record whose codes are within the capacity of a response (44_container_ff.md R210). -/
abbrev ReadableRecord (seqCap : Option Nat) (r : FrameRecord) : Prop :=
  LegalFrameRecord r ∧ exceeds seqCap (codeCount r.shapeB r.shapeN r.shapeT) = false

/-- Reading a readable record where it stands (44_container_ff.md R210). -/
theorem readFrame_framedRecord {seqCap : Option Nat} {r : FrameRecord} (h : ReadableRecord seqCap r) (a rest : List Byte)
    (i : Nat) {p : Nat} (hp : p = a.length) :
    readFrame seqCap (a ++ (framedRecord r ++ rest)) i p = .ok (decodedFrame r, p + (framedRecord r).length) := by
  obtain ⟨⟨hb, hn, ht, hsize⟩, hcap⟩ := h
  have hcount := shapeProduct_toNat_eq_codeCount hb hn ht
  rw [← hcount] at hcap hsize
  rw [framedRecord_length, ← Nat.add_assoc, decodedFrame, ← hcount, ← toWords_unpack]
  exact readFrame_ok seqCap a r.chunk rest r.shapeB r.shapeN r.shapeT i p hp hb hn ht
    (by rw [hsize, ceildiv8_ffWidth]) hcap

/-- Reading readable records where they stand (44_container_ff.md R210). -/
theorem readFrames_framedRecords {seqCap : Option Nat} {records : List FrameRecord}
    (h : ∀ r ∈ records, ReadableRecord seqCap r) (a rest : List Byte) (i : Nat) {p : Nat} (hp : p = a.length) :
    readFrames seqCap (a ++ (records.flatMap framedRecord ++ rest)) records.length i p =
      .ok (records.map decodedFrame, p + (records.flatMap framedRecord).length) := by
  induction records generalizing a i p with
  | nil => rfl
  | cons r records ih =>
    obtain ⟨hr, hrest⟩ := List.forall_mem_cons.mp h
    have hfirst := readFrame_framedRecord hr a (records.flatMap framedRecord ++ rest) i hp
    have htail := ih hrest (a ++ framedRecord r) (i + 1) (p := p + (framedRecord r).length) (by
      rw [List.length_append, hp])
    rw [List.append_assoc] at htail
    rw [List.flatMap_cons, List.append_assoc, List.length_cons, readFrames, hfirst, except_ok_bind, htail,
      except_ok_bind, except_pure, List.map_cons, List.length_append, Nat.add_assoc]

section Frames

variable {p : Params} {sampleRate channelCount : I32} {buf rest : List Byte} {frameCount : Nat}

/-- What is left of FF_DECODE after the header are the frames (44_container_ff.md R210). -/
theorem decodeFramed_framedHeader (hcount : frameCount < 2 ^ 31)
    (hbuf : buf = framedHeader sampleRate channelCount frameCount ++ rest)
    (hcap : exceeds p.bufCap buf.length = false) :
    decodeFramed p buf = (do
      let frames ← readFrames p.seqCap buf frameCount 0 12
      return ⟨sampleRate, channelCount, frames.1, frames.2⟩) := by
  rw [framedHeader, List.append_assoc, List.append_assoc] at hbuf
  subst hbuf
  exact decodeFramed_header p sampleRate channelCount frameCount rest hcount hcap

/-- What the frame after readable ones raises, FF_DECODE raises (44_container_ff.md R210). -/
theorem decodeFramed_frame_error {good : List FrameRecord} {e : Raise} (hcount : frameCount < 2 ^ 31)
    (hlt : good.length < frameCount) (hgood : ∀ r ∈ good, ReadableRecord p.seqCap r)
    (hbuf : buf = framedHeader sampleRate channelCount frameCount ++ good.flatMap framedRecord ++ rest)
    (hcap : exceeds p.bufCap buf.length = false)
    (h : readFrame p.seqCap buf good.length
      (framedHeader sampleRate channelCount frameCount ++ good.flatMap framedRecord).length = .error e) :
    decodeFramed p buf = .error e := by
  have hentries : ∀ r ∈ good.map FrameRecord.entry, 0 ≤ r.1.1.toInt ∧ 0 ≤ r.1.2.1.toInt ∧ 0 ≤ r.1.2.2.toInt ∧
      r.2.length = ceildiv8 (ffWidth * (shapeProduct r.1.1 r.1.2.1 r.1.2.2).toNat) ∧
      exceeds p.seqCap (shapeProduct r.1.1 r.1.2.1 r.1.2.2).toNat = false := by
    refine List.forall_mem_map.mpr fun r hr => ?_
    obtain ⟨⟨hb, hn, ht, hsize⟩, hseq⟩ := hgood r hr
    rw [← shapeProduct_toNat_eq_codeCount hb hn ht] at hsize hseq
    exact ⟨hb, hn, ht, by rw [ceildiv8_ffWidth]; exact hsize, hseq⟩
  rw [decodeFramed_framedHeader hcount (by rw [hbuf, List.append_assoc]) hcap]
  have hframes := readFrames_error p.seqCap (good.map FrameRecord.entry) (framedHeader sampleRate channelCount frameCount)
    rest frameCount 0 _ e rfl (by rwa [List.length_map]) hentries
  rw [← flatMap_framedRecord, List.length_map, Nat.zero_add, ← List.length_append, ← hbuf, framedHeader_length] at hframes
  rw [hframes h, except_error_bind]

end Frames

/-- Settles O49: the records are read where they stand, and the trailing bytes are not reached. -/
theorem ffDecodeReadsLayout : Obligations.FfDecodeReadsLayout := by
  intro s sampleRate channelCount records trailing hcount hrecords hcap
  have hbuf : framedBytes sampleRate channelCount records ++ trailing =
      framedHeader sampleRate channelCount records.length ++ (records.flatMap framedRecord ++ trailing) := by
    rw [← framedHeader_append, List.append_assoc]
  have hdec := decodeFramed_framedHeader hcount hbuf hcap
  have hframes := readFrames_framedRecords hrecords (framedHeader sampleRate channelCount records.length) trailing 0
    (framedHeader_length ..).symm
  rw [← hbuf] at hframes
  rw [hframes, except_ok_bind, except_pure, ← framedHeader_length sampleRate channelCount records.length,
    ← List.length_append, framedHeader_append] at hdec
  exact exec_ffDecode_ok hdec

/-! ### FF_DECODE: the first bad frame -/

section BadFrame

variable (seqCap : Option Nat) {buf : List Byte} {i p : Nat} {e : Raise} {b n t : I32}

theorem readFrame_shapeB_error (h : readDim buf p .ffShapeB i = .error e) : readFrame seqCap buf i p = .error e := by
  rw [readFrame, h, except_error_bind]

theorem readFrame_shapeN_error (readB : readDim buf p .ffShapeB i = .ok b)
    (h : readDim buf (p + 4) .ffShapeN i = .error e) : readFrame seqCap buf i p = .error e := by
  rw [readFrame, readB, except_ok_bind, h, except_error_bind]

theorem readFrame_shapeT_error (readB : readDim buf p .ffShapeB i = .ok b)
    (readN : readDim buf (p + 4) .ffShapeN i = .ok n) (h : readDim buf (p + 8) .ffShapeT i = .error e) :
    readFrame seqCap buf i p = .error e := by
  rw [readFrame, readB, except_ok_bind, readN, except_ok_bind, h, except_error_bind]

/-- A frame past its dimensions: codes that are cut short, or more than the capacity, in this order
(44_container_ff.md R210, R216). -/
theorem readFrame_codes_error {count : Nat} (readB : readDim buf p .ffShapeB i = .ok b)
    (readN : readDim buf (p + 4) .ffShapeN i = .ok n) (readT : readDim buf (p + 8) .ffShapeT i = .ok t)
    (hcount : (shapeProduct b n t).toNat = count) :
    (buf.length < p + 12 + (10 * count + 7) / 8 →
      readFrame seqCap buf i p = .error ⟨.truncatedPayload, .ffPayload, i⟩) ∧
    (p + 12 + (10 * count + 7) / 8 ≤ buf.length → exceeds seqCap count = true →
      readFrame seqCap buf i p = .error ⟨.capacityExceeded, .count, i⟩) := by
  simp only [readFrame, readB, readN, readT, except_ok_bind, hcount, ceildiv8_ffWidth]
  refine ⟨fun hshort => ?_, fun hlong hcap => ?_⟩
  · rw [decide_eq_true hshort, check_true, except_error_bind]
  · rw [decide_eq_false (not_lt.mpr hlong), check_false, except_ok_bind, hcap, check_true, except_error_bind]

end BadFrame

/-- The product of dimensions that were read as u32 numbers below the sign bit (44_container_ff.md R201, R211). -/
theorem shapeProduct_ofNat {b n t : Nat} (hb : b < 2 ^ 31) (hn : n < 2 ^ 31) (ht : t < 2 ^ 31) :
    (shapeProduct (BitVec.ofNat 32 b) (BitVec.ofNat 32 n) (BitVec.ofNat 32 t)).toNat = b * n * t := by
  have nonneg {x : Nat} (h : x < 2 ^ 31) : 0 ≤ (BitVec.ofNat 32 x).toInt :=
    not_lt.mp fun hneg => absurd h (not_lt.mpr ((ofNat_toInt_neg_iff x (by omega)).mp hneg))
  have toNat {x : Nat} (h : x < 2 ^ 31) : (BitVec.ofNat 32 x).toNat = x := Nat.mod_eq_of_lt (by omega)
  rw [shapeProduct_toNat _ _ _ (nonneg hb) (nonneg hn) (nonneg ht), toNat hb, toNat hn, toNat ht]

/-- Settles O51: the dimensions before the bad one are read. -/
theorem ffDecodeFrameErrorsInOrder : Obligations.FfDecodeFrameErrorsInOrder := by
  rintro s sampleRate channelCount frameCount good rest buf _ _ _ hcount hlt hgood hbuf hcap rfl rfl rfl
  rw [← framedHeader] at hbuf
  have raised {e : Raise} (h : readFrame _ _ _ _ = .error e) := exec_ffDecode_error s buf e
    (decodeFramed_frame_error hcount hlt hgood hbuf hcap h)
  generalize framedHeader sampleRate channelCount frameCount ++ good.flatMap framedRecord = before at hbuf raised
  subst hbuf
  refine ⟨fun h => raised (readFrame_shapeB_error _ (readDim_after_short _ _ rfl h)),
    fun h4 h => raised (readFrame_shapeB_error _ (readDim_after_negative _ _ rfl h4 h)), fun h4 hb => ?_⟩
  have readB := readDim_after .ffShapeB good.length (Nat.add_zero before.length).symm h4 hb
  refine ⟨fun h => raised (readFrame_shapeN_error _ readB (readDim_after_short _ _ rfl h)),
    fun h8 h => raised (readFrame_shapeN_error _ readB (readDim_after_negative _ _ rfl h8 h)), fun h8 hn => ?_⟩
  have readN := readDim_after .ffShapeN good.length (Eq.refl (before.length + 4)) h8 hn
  refine ⟨fun h => raised (readFrame_shapeT_error _ readB readN (readDim_after_short _ _ rfl h)),
    fun h12 h => raised (readFrame_shapeT_error _ readB readN (readDim_after_negative _ _ rfl h12 h)), fun h12 ht => ?_⟩
  have readT := readDim_after .ffShapeT good.length (Eq.refl (before.length + 8)) h12 ht
  obtain ⟨hshort, hlong⟩ := readFrame_codes_error s.params.seqCap readB readN readT (shapeProduct_ofNat hb hn ht)
  rw [List.length_append] at hshort hlong
  exact ⟨fun h => raised (hshort (by omega)), fun h hseq => raised (hlong (by omega) hseq)⟩

/-! ### The round trip, and a container cut short -/

section CutFramed

variable {s : State} {sampleRate channelCount : I32} {buf : List Byte}

theorem endsTruncated_framedHeader (rest : List Byte) {n frameCount : Nat}
    (hcap : exceeds s.params.bufCap ((framedHeader sampleRate channelCount frameCount ++ rest).take n).length = false)
    (hn : n < 12) :
    EndsTruncated s (.ffDecode ((framedHeader sampleRate channelCount frameCount ++ rest).take n)) := by
  have hlen : ((framedHeader sampleRate channelCount frameCount ++ rest).take n).length = n := by
    rw [List.length_take, List.length_append, framedHeader_length]; omega
  obtain ⟨-, hfields⟩ := ffDecodeHeaderErrorsInOrder s ((framedHeader sampleRate channelCount frameCount ++ rest).take n)
  obtain ⟨hrate, hchannels, hcount, -⟩ := hfields hcap
  rw [hlen] at hrate hchannels hcount
  by_cases h4 : n < 4
  · exact ⟨1, 11, 0, .inl rfl, hrate h4⟩
  by_cases h8 : n < 8
  · exact ⟨1, 12, 0, .inl rfl, hchannels (by omega) h8⟩
  · exact ⟨1, 13, 0, .inl rfl, hcount (by omega) hn⟩

/-- A legal record cut short, behind readable ones: the cut lies in a dimension or in the codes (44_container_ff.md R215). -/
theorem endsTruncated_framedRecord {good : List FrameRecord} {bad : FrameRecord} {frameCount m : Nat}
    (hcount : frameCount < 2 ^ 31) (hlt : good.length < frameCount)
    (hgood : ∀ r ∈ good, ReadableRecord s.params.seqCap r) (hbad : LegalFrameRecord bad)
    (hm : m < (framedRecord bad).length)
    (hbuf : buf = framedHeader sampleRate channelCount frameCount ++ good.flatMap framedRecord ++ (framedRecord bad).take m)
    (hcap : exceeds s.params.bufCap buf.length = false) : EndsTruncated s (.ffDecode buf) := by
  obtain ⟨hb, hn, ht, hsize⟩ := hbad
  have hlen : ((framedRecord bad).take m).length = m := by rw [List.length_take]; omega
  have hfieldB (h : 4 ≤ m) : rdle (slice ((framedRecord bad).take m) 0 4) = bad.shapeB.toNat := by
    rw [slice_take h]; exact rdle_le32 _ bad.shapeB.isLt
  have hfieldN (h : 8 ≤ m) : rdle (slice ((framedRecord bad).take m) 4 4) = bad.shapeN.toNat := by
    rw [slice_take h]; exact rdle_le32 _ bad.shapeN.isLt
  have hfieldT (h : 12 ≤ m) : rdle (slice ((framedRecord bad).take m) 8 4) = bad.shapeT.toNat := by
    rw [slice_take h]; exact rdle_le32 _ bad.shapeT.isLt
  obtain ⟨hshortB, -, hreadB⟩ := ffDecodeFrameErrorsInOrder s sampleRate channelCount frameCount good _ buf _ _ _ hcount
    hlt hgood hbuf hcap rfl rfl rfl
  rw [hlen] at hshortB hreadB
  by_cases h4 : m < 4
  · exact ⟨1, 14, _, .inl rfl, hshortB h4⟩
  rw [hfieldB (by omega)] at hreadB
  obtain ⟨hshortN, -, hreadN⟩ := hreadB (by omega) (toNat_lt_of_nonneg hb)
  by_cases h8 : m < 8
  · exact ⟨1, 15, _, .inl rfl, hshortN h8⟩
  rw [hfieldN (by omega)] at hreadN
  obtain ⟨hshortT, -, hreadT⟩ := hreadN (by omega) (toNat_lt_of_nonneg hn)
  by_cases h12 : m < 12
  · exact ⟨1, 16, _, .inl rfl, hshortT h12⟩
  rw [hfieldT (by omega)] at hreadT
  obtain ⟨hshort, -⟩ := hreadT (by omega) (toNat_lt_of_nonneg ht)
  rw [framedRecord_length, hsize, codeCount] at hm
  exact ⟨2, 17, _, .inr rfl, hshort hm⟩

/-- A framed container of readable records that is cut to a shorter length is truncated: the cut lies in the header or in a
record (44_container_ff.md R215). -/
theorem endsTruncated_framedBytes_take {records : List FrameRecord} {n : Nat} (hcount : records.length < 2 ^ 31)
    (hrecords : ∀ r ∈ records, ReadableRecord s.params.seqCap r)
    (hcap : exceeds s.params.bufCap ((framedBytes sampleRate channelCount records).take n).length = false)
    (hn : n < (framedBytes sampleRate channelCount records).length) :
    EndsTruncated s (.ffDecode ((framedBytes sampleRate channelCount records).take n)) := by
  rw [← framedHeader_append] at hcap hn ⊢
  by_cases hheader : n < 12
  · exact endsTruncated_framedHeader _ hcap hheader
  obtain ⟨k, rfl⟩ : ∃ k, n = 12 + k := ⟨n - 12, by omega⟩
  rw [← framedHeader_length sampleRate channelCount records.length] at hcap hn ⊢
  rw [List.length_append] at hn
  obtain ⟨good, bad, more, m, rfl, hm, htake⟩ := take_flatMap_cut framedRecord (Nat.lt_of_add_lt_add_left hn)
  rw [List.take_length_add_append, htake, ← List.append_assoc] at hcap ⊢
  obtain ⟨hgood, hrest⟩ := List.forall_mem_append.mp hrecords
  exact endsTruncated_framedRecord hcount (by simp) hgood (hrest bad List.mem_cons_self).1 hm rfl hcap

end CutFramed

/-- Under REJECT a legal frame's codes are below 1024, so that storing them changes none (44_container_ff.md R206). -/
theorem map_mod_of_legal_reject {f : Frame} (h : LegalFrame .reject f) : f.values.map (· % 1024) = f.values := by
  obtain ⟨-, -, -, -, hfit⟩ := h
  refine (List.map_congr_left fun v hv => ?_).trans (List.map_id _)
  have hlt := (hfit v.toNat (List.mem_map_of_mem hv)).resolve_right (by decide)
  exact BitVec.eq_of_toNat_eq (by rw [BitVec.toNat_umod]; exact Nat.mod_eq_of_lt hlt)

/-- Settles O53: the written container is one of the layout (O47) with readable records, so that reading it (O49) gives the
stored codes, and each cut lies in a field or in a chunk that the header or a record announces (O50, O51). -/
theorem framedRoundTripAndTruncation : Obligations.FramedRoundTripAndTruncation := by
  intro s sampleRate channelCount frames out henc hseq
  obtain ⟨hcount, hlegal, rfl, hcap⟩ := FramedTo.of_exec henc
  have hrecords : ∀ r ∈ frames.map encodedFrame, ReadableRecord s.params.seqCap r :=
    List.forall_mem_map.mpr fun f hf => ⟨legalFrameRecord_encodedFrame (hlegal f hf), hseq f hf⟩
  have hdecoded : (frames.map encodedFrame).map decodedFrame =
      frames.map fun f => ⟨f.shapeB, f.shapeN, f.shapeT, f.values.map (· % 1024)⟩ := by
    rw [List.map_map]
    exact List.map_congr_left fun f hf => decodedFrame_encodedFrame (hlegal f hf)
  rw [← List.length_map (as := frames) encodedFrame] at hcount
  refine ⟨?roundTrip, fun hreject f hf => map_mod_of_legal_reject (hreject ▸ hlegal f hf), fun n hn => ?cut⟩
  case roundTrip =>
    have hdec := ffDecodeReadsLayout s sampleRate channelCount (frames.map encodedFrame) [] hcount hrecords
      (by rwa [List.append_nil])
    rwa [List.append_nil, hdecoded] at hdec
  case cut => exact endsTruncated_framedBytes_take hcount hrecords (exceeds_mono hcap (List.length_take_le' ..)) hn

end Sys2Proof.Machine
end

section
/-! PROOFS. The statement about the system command ST_READ (45_system.md): O54. -/

namespace Sys2Proof.Machine

/-- Settles O54: the twelve fields are read off `s`, the state before the command's status is written. -/
theorem stReadReturnsSnapshot : Obligations.StReadReturnsSnapshot :=
  ⟨encodedCommandDecodesToItself .stRead rfl, exec_stRead⟩

end Sys2Proof.Machine
end

section
/-! PROOFS. How commands end, 60_exceptions.md: every command completes with one response (R241, R251), what a status lets a
command change (R250, R252), which statuses a command can end with (R240), and the idle block (R259). -/

namespace Sys2Proof.Machine

/-! ### The idle block and reset on the port -/

/-- Settles O6: the port has nothing to take. -/
theorem idleStepKeepsState : Obligations.IdleStepKeepsState := by
  intro s hin
  simp only [step, takeInput_nil s hin]

theorem step_of_reset {s : State} {rest : List HostEvent} (hin : s.inputs = .reset :: rest) :
    step s = .next (resetBlock { s with inputs := rest }) := by
  simp only [step, takeInput_cons s _ _ hin]

/-! ### Every command completes -/

/-- `t` is `s` after a command: the port as it was, a status of R240, and one response more, the record of the status registers
with a payload only if the status is OK (60_exceptions.md R241). -/
structure Responded (s t : State) : Prop where
  inputs : t.inputs = s.inputs
  status_le : t.status.toNat ≤ 11
  response : ∃ payload, t.responses = s.responses ++ [⟨t.status, t.errField, t.errIndex, t.stickyErr, payload⟩] ∧
    (t.status ≠ 0 → payload = .none)

theorem responded_endedOk {s u : State} (hin : u.inputs = s.inputs) (hresp : u.responses = s.responses) (p : Payload) :
    Responded s (endedOk u p) :=
  ⟨hin, Nat.zero_le 11, p, congrArg (· ++ _) hresp, fun hne => absurd rfl hne⟩

theorem responded_endedWith (s : State) (k : RaiseKind) (f : BitVec 8) (index : Nat) :
    Responded s (endedWith s k.code f index) :=
  ⟨rfl, (code_range k).2, .none, rfl, fun _ => rfl⟩

/-- Writing a unit touches neither port. -/
theorem Writes.ports_eq {s u : State} {i : Instr} (h : Writes s i u) :
    u.inputs = s.inputs ∧ u.responses = s.responses := by
  cases h <;> exact ⟨rfl, rfl⟩

theorem Ended.responded {s t : State} {i : Instr} (h : Ended s i t) : Responded s t := by
  cases h with
  | ok hw p =>
    obtain ⟨hin, hresp⟩ := hw.ports_eq
    exact responded_endedOk hin hresp p
  | @raised e _ => exact responded_endedWith s e.kind _ _

/-- No command is refused or stops the block (60_exceptions.md R251). -/
theorem exec_completes (i : Instr) (s : State) : ∃ t, exec i s = .next t := by
  cases i <;> exact ⟨_, rfl⟩

/-- The step that takes a command, legal or not, gives its response. -/
theorem step_responds {s : State} {c : Command} {rest : List HostEvent} (hin : s.inputs = .command c :: rest) :
    ∃ t, step s = .next t ∧ Responded { s with inputs := rest } t := by
  cases hdec : decode c.word c.operand with
  | error e => exact ⟨_, step_of_decode_error hin hdec, responded_endedWith _ .illegalCommand 0 0⟩
  | ok i =>
    obtain ⟨t, ht⟩ := exec_completes i { s with inputs := rest }
    exact ⟨t, (stepRunsDecodedCommand s c rest i hin hdec).trans ht, (exec_ended ht).responded⟩

/-- Settles O10, by what stands first on the port. -/
theorem everyCommandEndsWithStatus : Obligations.EveryCommandEndsWithStatus := by
  intro s
  cases hin : s.inputs with
  | nil => exact ⟨s, idleStepKeepsState s hin, hin, nofun⟩
  | cons e rest =>
    cases e with
    | reset => exact ⟨_, step_of_reset hin, rfl, nofun⟩
    | command c =>
      obtain ⟨t, hstep, ht⟩ := step_responds hin
      exact ⟨t, hstep, ht.inputs, fun _ _ => ht.status_le⟩

/-- Settles O11. -/
theorem everyCommandGivesOneResponse : Obligations.EveryCommandGivesOneResponse := by
  intro s t c rest hin h
  obtain ⟨u, hstep, hu⟩ := step_responds hin
  cases hstep.symm.trans h
  exact hu.response

/-! ### The commit rule -/

/-- Settles O12: of the two ways a command ends, one has status 0 and the other never. -/
theorem failingCommandChangesOnlyStatus : Obligations.FailingCommandChangesOnlyStatus := by
  intro i s t h
  cases exec_ended h with
  | ok hw p => exact ⟨fun _ => ⟨rfl, rfl, hw.stickyErr_eq⟩, fun hne => absurd rfl hne⟩
  | @raised e _ =>
    have hsame : SameStreams s (endedWith s e.kind.code e.field.id e.index) := by simp [SameStreams]
    exact ⟨fun h0 => absurd h0 (code_ne_zero e.kind), fun _ => ⟨hsame, rfl⟩⟩

/-! ### Which command raises what -/

/-- The column 'raised by' of 60_exceptions.md R240, read by command: the kinds its row of the table lets it raise. -/
def raisableKinds : Instr → List RaiseKind
  | .bwPush _ _ => [.unsupportedBitWidth, .valueOutOfRange, .capacityExceeded]
  | .bwFinish => [.capacityExceeded]
  | .brLoad _ => [.capacityExceeded]
  | .brExtract _ _ => [.unsupportedBitWidth, .capacityExceeded]
  | .ccEncode _ _ _ _ => [.invalidEncoding, .fieldOutOfRange, .capacityExceeded]
  | .ccDecode _ _ => [.truncatedHeader, .truncatedPayload, .unsupportedBitWidth, .magicMismatch, .invalidEncoding,
      .payloadSizeMismatch, .capacityExceeded]
  | .ffEncode _ _ _ => [.valueOutOfRange, .fieldOutOfRange, .shapeMismatch, .capacityExceeded]
  | .ffDecode _ => framedKinds
  | _ => []

theorem possibleStatuses_eq (i : Instr) : possibleStatuses i = 0 :: (raisableKinds i).map RaiseKind.code := by
  cases i <;> rfl

/-- A rule of command `i` raises only kinds that the status table lets `i` raise. -/
abbrev RaisesAsListed (i : Instr) (r : Result) : Prop := RaisesOnly (KindIn (raisableKinds i)) r

/-- A command ends with status 0 or with the code of what its rule raises (60_exceptions.md R250). -/
theorem commit_status_mem {i : Instr} {r : Result} (hr : RaisesAsListed i r) (s : State) :
    (commit s r).status ∈ possibleStatuses i := by
  rw [possibleStatuses_eq]
  obtain ⟨t, p, -, hc⟩ | ⟨e, he, hc⟩ := commit_cases s r
  · rw [hc]
    exact List.mem_cons_self
  · rw [hc]
    exact List.mem_cons_of_mem _ (List.mem_map_of_mem (hr e he))

theorem KindIn.mono {ks ls : List RaiseKind} (hsub : ks ⊆ ls) (e : Raise) (h : KindIn ks e) : KindIn ls e := hsub h

theorem checkWidth_raises (nb : Nat) : RaisesOnly (KindIn [.unsupportedBitWidth]) (checkWidth nb) :=
  raisesOnly_check _ _ (by simp [KindIn])

theorem bwPushRule_raises (nb : Nat) (v : Word) (s : State) : RaisesAsListed (.bwPush nb v) (bwPushRule nb v s) :=
  raisesOnly_bind ((checkWidth_raises nb).mono (KindIn.mono (by simp [raisableKinds]))) fun _ =>
    raisesOnly_bind ((fitValue_raises _ _ _ _ _).mono (KindIn.mono (by simp [raisableKinds]))) fun _ =>
      raisesOnly_bind (raisesOnly_check _ _ (by simp [KindIn, raisableKinds])) fun _ => raisesOnly_ok _ _

theorem bwFinishRule_raises (s : State) : RaisesAsListed .bwFinish (bwFinishRule s) :=
  raisesOnly_bind (raisesOnly_check _ _ (by simp [KindIn, raisableKinds])) fun _ => raisesOnly_ok _ _

theorem brLoadRule_raises (buf : List Byte) (s : State) : RaisesAsListed (.brLoad buf) (brLoadRule buf s) :=
  raisesOnly_bind (raisesOnly_check _ _ (by simp [KindIn, raisableKinds])) fun _ => raisesOnly_ok _ _

theorem brExtractRule_raises (nb : Nat) (count : Word) (s : State) :
    RaisesAsListed (.brExtract nb count) (brExtractRule nb count s) :=
  raisesOnly_bind ((checkWidth_raises nb).mono (KindIn.mono (by simp [raisableKinds]))) fun _ =>
    raisesOnly_bind (raisesOnly_check _ _ (by simp [KindIn, raisableKinds])) fun _ => raisesOnly_ok _ _

theorem ccEncodeRule_raises (version : Byte) (sampleRate : Word) (modelName : List Byte) (levels : List (List Word))
    (s : State) :
    RaisesAsListed (.ccEncode version sampleRate modelName levels)
      (ccEncodeRule version sampleRate modelName levels s) :=
  raisesOnly_bind ((encodeContainer_raises _ _ _ _ _).mono (KindIn.mono (by simp [raisableKinds]))) fun _ =>
    raisesOnly_ok _ _

theorem kindIn_of_decodeRaise {buf fallbackName : List Byte} (e : Raise) (h : DecodeRaise e) :
    KindIn (raisableKinds (.ccDecode buf fallbackName)) e := by
  obtain rfl | h := h
  · simp [KindIn, raisableKinds]
  · exact KindIn.mono (by simp [raisableKinds]) e h

theorem ccDecodeRule_raises (buf fallbackName : List Byte) (s : State) :
    RaisesAsListed (.ccDecode buf fallbackName) (ccDecodeRule buf fallbackName s) :=
  raisesOnly_bind ((decodeContainer_raises _ _ _).mono kindIn_of_decodeRaise) fun _ => raisesOnly_ok _ _

theorem ffEncodeRule_raises (sampleRate channelCount : I32) (frames : List Frame) (s : State) :
    RaisesAsListed (.ffEncode sampleRate channelCount frames) (ffEncodeRule sampleRate channelCount frames s) :=
  raisesOnly_bind (encodeFramed_raises _ _ _ _) fun _ => raisesOnly_ok _ _

theorem ffDecodeRule_raises (buf : List Byte) (s : State) : RaisesAsListed (.ffDecode buf) (ffDecodeRule buf s) :=
  raisesOnly_bind (decodeFramed_raises _ _) fun _ => raisesOnly_ok _ _

/-- Settles O13, command by command: what its rule raises, or the status OK where it raises nothing. -/
theorem statusArisesOnlyFromItsCommands : Obligations.StatusArisesOnlyFromItsCommands := by
  intro i s t h
  cases i with
  | bwReset => cases h; exact List.mem_cons_self
  | bwPush nb v => cases h; exact commit_status_mem (bwPushRule_raises nb v s) s
  | bwFinish => cases h; exact commit_status_mem (bwFinishRule_raises s) s
  | brLoad buf => cases h; exact commit_status_mem (brLoadRule_raises buf s) s
  | brExtract nb count => cases h; exact commit_status_mem (brExtractRule_raises nb count s) s
  | wsClear => cases h; exact List.mem_cons_self
  | wsScan v => cases h; exact List.mem_cons_self
  | wsWidth => cases h; exact List.mem_cons_self
  | wsSelect seq => cases h; exact List.mem_cons_self
  | ccEncode version sampleRate modelName levels =>
    cases h; exact commit_status_mem (ccEncodeRule_raises version sampleRate modelName levels s) s
  | ccDecode buf fallbackName => cases h; exact commit_status_mem (ccDecodeRule_raises buf fallbackName s) s
  | ffEncode sampleRate channelCount frames =>
    cases h; exact commit_status_mem (ffEncodeRule_raises sampleRate channelCount frames s) s
  | ffDecode buf => cases h; exact commit_status_mem (ffDecodeRule_raises buf s) s
  | stRead => cases h; exact List.mem_cons_self

end Sys2Proof.Machine
end

section
/-! PROOFS. Reset, 70_reset_and_hazards.md (R270). -/

namespace Sys2Proof.Machine

/-- Settles O7: the step is `resetBlock`, and what follows is what its lemmas say of each element, in the order of R30. -/
theorem resetSetsEveryElement : Obligations.ResetSetsEveryElement := by
  intro s rest hin
  exact ⟨_, step_of_reset hin,
    resetBlock_bwAcc _, resetBlock_bwCnt _, resetBlock_bwOut _,
    resetBlock_brBuf _, resetBlock_brPos _, resetBlock_brAcc _, resetBlock_brCnt _,
    resetBlock_wsMax _,
    resetBlock_status _, resetBlock_errField _, resetBlock_errIndex _, resetBlock_stickyErr _,
    resetBlock_params _⟩

end Sys2Proof.Machine
end
